-- ==== Sys2Proof/Config.lean ====
section
/-! DEFINITION. The parameters of the spec (spec/00_scope.md R5, R6): what a launch fixes, the defaults
the spec gives, and the shape of the named parameter ENCODING (spec/30_encoding.md). -/

namespace Sys2Proof

/-- `NREGS` (R5). -/
def Config.numRegs : Nat := 8

/-- `DATA_UNINIT` (R6, D10): what a load from a data word outside the image and never stored does. -/
inductive DataUninit where
  /-- It raises `UninitDataRead`. -/
  | fault
  /-- It returns 0. -/
  | zero
  deriving DecidableEq, Repr

/-- The constants of one launch (R6): `MEM_WORDS`, `DATA_UNINIT` and `IMAGE_LEN`. -/
structure Launch where
  /-- `MEM_WORDS`: the valid addresses of each memory are `0 .. memWords - 1`. -/
  memWords : Nat
  /-- `DATA_UNINIT`. -/
  dataUninit : DataUninit
  /-- `IMAGE_LEN`: the number of words of the loaded image. -/
  imageLen : Nat
  deriving DecidableEq, Repr

/-- The default `MEM_WORDS` (R6). -/
def Config.memWords : Nat := 65536

/-- The default `DATA_UNINIT` (R6). -/
def Config.dataUninit : DataUninit := .fault

/-- The largest offset added to an address plus 1, so that `pc` stays in
`[-32767, MEM_WORDS + 32767]` (R35). -/
def Config.maxBranch : Nat := 32767

/-- Where the fields of an instruction word lie (each given by its lowest bit) and the number of each
opcode: the named parameter `ENCODING` (spec/30_encoding.md, D1, D2). Its value is in Decode.lean. -/
structure Encoding where
  /-- Lowest bit of the 3-bit opcode. -/
  opLo : Nat
  /-- Lowest bit of the 3-bit `regA`. -/
  regALo : Nat
  /-- Lowest bit of the 3-bit `regB`. -/
  regBLo : Nat
  /-- Lowest bit of the 3-bit `destReg`. -/
  destLo : Nat
  /-- Lowest bit of the 16-bit offset. -/
  offLo : Nat
  /-- Opcode number of `ADD`. -/
  opAdd : BitVec 3
  /-- Opcode number of `NOR`. -/
  opNor : BitVec 3
  /-- Opcode number of `LW`. -/
  opLw : BitVec 3
  /-- Opcode number of `SW`. -/
  opSw : BitVec 3
  /-- Opcode number of `BEQ`. -/
  opBeq : BitVec 3
  /-- Opcode number of `JALR`. -/
  opJalr : BitVec 3
  /-- Opcode number of `HALT`. -/
  opHalt : BitVec 3
  /-- Opcode number of `NOOP`. -/
  opNoop : BitVec 3
  deriving DecidableEq, Repr

end Sys2Proof
end

