-- ==== Sys2Proof/Word.lean ====
section
/-! DEFINITION. The word types of the CORE and their plainest arithmetic (spec/00_scope.md R5, R7, R8). -/

namespace Sys2Proof

/-- A 32-bit pattern: an instruction word, a register, a data-memory word (R5, R8). -/
abbrev Word := BitVec 32

/-- A 3-bit register index, naming `reg[0]` to `reg[7]` (R5, R107). -/
abbrev RegIdx := BitVec 3

/-- The 16-bit offset field (R5, R106). -/
abbrev Off16 := BitVec 16

/-- `signed(v)`: the two's-complement reading of a 32-bit pattern (R8). -/
def Word.signed (v : Word) : Int := v.toInt

/-- `sext_32(f)`: the 32-bit pattern whose signed reading is `f - 65536` when `f[15] = 1`
and `f` otherwise (R8). -/
def Off16.sext (f : Off16) : Word := f.signExtend 32

end Sys2Proof
end

