-- ==== Sys2Proof/Syntax.lean ====
section
/-! DEFINITION. The instructions of the CORE: one constructor per row of spec/opcode_table.json
(spec/30_encoding.md R102, R104, R107). -/

namespace Sys2Proof

/-- The eight instructions (R104). The operands are the fields of R102, in encoding order. -/
inductive Instr where
  /-- `ADD regA regB destReg` (R200). -/
  | add (regA regB destReg : RegIdx)
  /-- `NOR regA regB destReg` (R201). -/
  | nor (regA regB destReg : RegIdx)
  /-- `LW regA regB offset` (R220): base `regA`, destination `regB`. -/
  | lw (regA regB : RegIdx) (offset : Off16)
  /-- `SW regA regB offset` (R222): base `regA`, data `regB`. -/
  | sw (regA regB : RegIdx) (offset : Off16)
  /-- `BEQ regA regB offset` (R240). -/
  | beq (regA regB : RegIdx) (offset : Off16)
  /-- `JALR regA regB` (R262): decoded, unimplemented. -/
  | jalr (regA regB : RegIdx)
  /-- `HALT` (R260). -/
  | halt
  /-- `NOOP` (R261). -/
  | noop
  deriving DecidableEq, Repr

end Sys2Proof
end

