-- ==== Sys2Proof/Decode.lean ====
section
/-! DEFINITION. Decoding and encoding (spec/30_encoding.md R100 to R110). Decoding is total: every
32-bit word is one of the eight instructions (R105, R110), so nothing is rejected. -/

namespace Sys2Proof

/-- The value of the named parameter `ENCODING` (R101, R104; D1, D2). PRESUMED, unsafe: the positions and
the numbers are the LC-2K layout, general knowledge and not in the source (assumption 3). -/
def encoding : Encoding :=
  { opLo := 22, regALo := 19, regBLo := 16, destLo := 0, offLo := 0
    opAdd := 0, opNor := 1, opLw := 2, opSw := 3, opBeq := 4, opJalr := 5, opHalt := 6, opNoop := 7 }

/-- `op(w)` (R101). -/
def op (w : Word) : BitVec 3 := w.extractLsb' encoding.opLo 3

/-- `regA(w)` (R101). -/
def regA (w : Word) : RegIdx := w.extractLsb' encoding.regALo 3

/-- `regB(w)` (R101). -/
def regB (w : Word) : RegIdx := w.extractLsb' encoding.regBLo 3

/-- `destReg(w)` (R101). -/
def destReg (w : Word) : RegIdx := w.extractLsb' encoding.destLo 3

/-- `off16(w)` (R101). -/
def off16 (w : Word) : Off16 := w.extractLsb' encoding.offLo 16

/-- `sext_32(off16(w))`: the immediate, never scaled (R106). -/
def offset (w : Word) : Word := (off16 w).sext

/-- The record the decoder of R105 answers, every field extracted from every word whatever the
opcode. -/
structure Decoded where
  /-- `op(w)`. -/
  opcode : BitVec 3
  /-- `regA(w)`. -/
  regA : RegIdx
  /-- `regB(w)`. -/
  regB : RegIdx
  /-- `destReg(w)`. -/
  destReg : RegIdx
  /-- `sext_32(off16(w))`. -/
  offset : Word
  deriving DecidableEq, Repr

/-- `decode(w)` of R105: the pure function of the instruction_decoder block. -/
def decodeFields (w : Word) : Decoded :=
  { opcode := op w, regA := regA w, regB := regB w, destReg := destReg w, offset := offset w }

/-- The instruction a word is (R104, R105, R109): chosen by `op(w)` alone, the unused bits ignored. The
last branch is `NOOP`, the one opcode value left (`decode_noop` in Laws/Decode.lean). -/
def decode (w : Word) : Instr :=
  if op w = encoding.opAdd then .add (regA w) (regB w) (destReg w)
  else if op w = encoding.opNor then .nor (regA w) (regB w) (destReg w)
  else if op w = encoding.opLw then .lw (regA w) (regB w) (off16 w)
  else if op w = encoding.opSw then .sw (regA w) (regB w) (off16 w)
  else if op w = encoding.opBeq then .beq (regA w) (regB w) (off16 w)
  else if op w = encoding.opJalr then .jalr (regA w) (regB w)
  else if op w = encoding.opHalt then .halt
  else .noop

/-- `NOOP_WORD` (R108). -/
def noopWord : Word := 0x01C00000

/-- A field put at its place in a word (R103). -/
def place {n : Nat} (f : BitVec n) (lo : Nat) : Word := f.setWidth 32 <<< lo

/-- Opcode, `regA` and `regB` of a word, the other bits zero (R103, format J). -/
def encodeRegs (o : BitVec 3) (a b : RegIdx) : Word :=
  place o encoding.opLo ||| place a encoding.regALo ||| place b encoding.regBLo

/-- The word of an instruction with all unused bits zero (R103). -/
def encode : Instr → Word
  | .add a b d => encodeRegs encoding.opAdd a b ||| place d encoding.destLo
  | .nor a b d => encodeRegs encoding.opNor a b ||| place d encoding.destLo
  | .lw a b k => encodeRegs encoding.opLw a b ||| place k encoding.offLo
  | .sw a b k => encodeRegs encoding.opSw a b ||| place k encoding.offLo
  | .beq a b k => encodeRegs encoding.opBeq a b ||| place k encoding.offLo
  | .jalr a b => encodeRegs encoding.opJalr a b
  | .halt => place encoding.opHalt encoding.opLo
  | .noop => place encoding.opNoop encoding.opLo

/-- The bits of an instruction's word that its format uses (R102); the others are ignored (R109). -/
def usedBits : Instr → Word
  | .add _ _ _ => 0x01FF0007
  | .nor _ _ _ => 0x01FF0007
  | .lw _ _ _ => 0x01FFFFFF
  | .sw _ _ _ => 0x01FFFFFF
  | .beq _ _ _ => 0x01FFFFFF
  | .jalr _ _ => 0x01FF0000
  | .halt => 0x01C00000
  | .noop => 0x01C00000

/-- The instruction word in which the table numbers `nbits` bits as `w`, the bits above them zero. -/
def tableWord (nbits w : Nat) : Word := BitVec.ofNat 32 (w % 2 ^ nbits)

/-- The instruction the decoder reads from the bits `w` of a row of spec/opcode_table.json. An
instruction is one 32-bit word (R100), so more bits than that are no instruction. -/
def decodeTableWord (nbits w : Nat) : Option Instr :=
  if nbits ≤ 32 then some (decode (tableWord nbits w)) else none

end Sys2Proof
end

