-- ==== Sys2Proof/Machine/State.lean ====
section
/-! DEFINITION. The state of the CORE as plain data (spec/10_state.md R30 to R51) and its reset value. -/

namespace Sys2Proof.Machine

/-- The run-time faults (R280). A fault is not an outcome that stops the model: its entry is described by
the spec (R281: nothing of the cycle is committed and `status` becomes `Faulted(code, info)`), so it
is the payload of `Status.faulted` and a step that raises one answers a NEXT state (assumption 6). -/
inductive Fault where
  /-- Code 1. Raised by the fetch unit when the `pc` whose fetch is used is outside `[0, MEM_WORDS)`
  (R74). Safe: it is the behaviour the spec states. -/
  | fetchAddress (pc : Word)
  /-- Code 2. Raised by `LW` and `SW` in the memory stage when the signed address is outside
  `[0, MEM_WORDS)` (R75). Safe: it is the behaviour the spec states. -/
  | dataAddress (addr : Word)
  /-- Code 3. Raised by `LW` in the memory stage when `DATA_UNINIT = fault`, the address is at or above
  `IMAGE_LEN` and the word was never stored (R76). Safe: it is the behaviour the spec states. -/
  | uninitDataRead (addr : Word)
  /-- Code 4. Raised by `JALR` in the memory stage (R262). Safe: it is the behaviour the spec states. -/
  | unimplementedJalr (word : Word)
  deriving DecidableEq, Repr

/-- Why the model has no meaning for an instruction. No instruction of this model is refused. -/
inductive Refusal where
  /-- Raised by an arm of `exec` for an instruction that has no meaning yet. Safe: no claim about it can
  be proved. No arm raises it. -/
  | notModelled (mnemonic : String)
  deriving DecidableEq, Repr

/-- `status` (R49). -/
inductive Status where
  /-- The CORE executes cycles. -/
  | running
  /-- A `HALT` was found in MEMWB. -/
  | halted
  /-- A cycle raised a fault: `Faulted(code, info)`. -/
  | faulted (f : Fault)
  deriving DecidableEq, Repr

/-- One word of a memory at its word address (R70, R73). -/
abbrev Cell := Nat × Word

/-- A word memory: its listed cells, addresses strictly rising, none holding what an unlisted address
reads as (assumption 1). -/
abbrev Memory := List Cell

/-- IFID, the Fetch→Decode pipeline register (R40). -/
structure IfId where
  /-- The word fetched. -/
  instr : Word
  /-- The address the word was fetched from plus 1. -/
  pcPlus1 : Word
  deriving DecidableEq, Repr

/-- IDEX, the Decode→Execute pipeline register (R41). -/
structure IdEx where
  /-- The instruction word. -/
  instr : Word
  /-- Copied from IFID. -/
  pcPlus1 : Word
  /-- `reg[regA(instr)]` as read in decode. -/
  readRegA : Word
  /-- `reg[regB(instr)]` as read in decode. -/
  readRegB : Word
  /-- `sext_32(off16(instr))`. -/
  offset : Word
  deriving DecidableEq, Repr

/-- EXMEM, the Execute→Memory pipeline register (R42). -/
structure ExMem where
  /-- The instruction word. -/
  instr : Word
  /-- The branch target, a 32-bit signed integer. -/
  branchTarget : Word
  /-- The one flag-like bit (R37). -/
  equalityFlag : Bool
  /-- The ALU result or the data address. -/
  aluResult : Word
  /-- The forwarded B operand of a store. -/
  storeData : Word
  deriving DecidableEq, Repr

/-- MEMWB, the Memory→Writeback pipeline register (R43). -/
structure MemWb where
  /-- The instruction word. -/
  instr : Word
  /-- The value to commit. -/
  writeData : Word
  deriving DecidableEq, Repr

/-- WBEND, the Writeback→Retire pipeline register (R44). -/
structure WbEnd where
  /-- The instruction word. -/
  instr : Word
  /-- The committed value. -/
  writeData : Word
  deriving DecidableEq, Repr

/-- `IFID_BUBBLE` (R46). -/
def IfId.bubble : IfId := { instr := noopWord, pcPlus1 := 0 }

/-- `IDEX_BUBBLE` (R46). -/
def IdEx.bubble : IdEx := { instr := noopWord, pcPlus1 := 0, readRegA := 0, readRegB := 0, offset := 0 }

/-- An EXMEM record that holds the word `w` and nothing computed: every Don't-Care field is zero
(R47, R165). -/
def ExMem.idle (w : Word) : ExMem :=
  { instr := w, branchTarget := 0, equalityFlag := false, aluResult := 0, storeData := 0 }

/-- `EXMEM_BUBBLE` (R46). -/
def ExMem.bubble : ExMem := ExMem.idle noopWord

/-- `MEMWB_BUBBLE` (R46). -/
def MemWb.bubble : MemWb := { instr := noopWord, writeData := 0 }

/-- `WBEND_BUBBLE` (R46). -/
def WbEnd.bubble : WbEnd := { instr := noopWord, writeData := 0 }

/-- The four stages the rules of the instructions (R200 to R262) are written in: "decode:", "execute:",
"memory:" and "writeback:". Fetch works before an instruction is known. -/
inductive Stage where
  /-- IFID to IDEX. -/
  | decode
  /-- IDEX to EXMEM. -/
  | execute
  /-- EXMEM to MEMWB. -/
  | memory
  /-- MEMWB to the register file and WBEND. -/
  | writeback
  deriving DecidableEq, Repr

/-- The state of the CORE (R30). -/
structure State where
  /-- The constants of the launch (R6). No step changes them. -/
  launch : Launch
  /-- Address of the next instruction to fetch, signed (R35). -/
  pc : Word
  /-- The general registers (R31). -/
  reg : Vector Word 8
  /-- Instruction memory (R70). -/
  imem : Memory
  /-- Data memory (R70). -/
  dmem : Memory
  /-- The addresses stored to since reset, strictly rising (R72). -/
  dwritten : List Nat
  /-- Fetch→Decode (R40). -/
  ifid : IfId
  /-- Decode→Execute (R41). -/
  idex : IdEx
  /-- Execute→Memory (R42). -/
  exmem : ExMem
  /-- Memory→Writeback (R43). -/
  memwb : MemWb
  /-- Writeback→Retire (R44). -/
  wbend : WbEnd
  /-- The cycle counter (R48). -/
  cycles : Word
  /-- `Running`, `Halted` or `Faulted(code, info)` (R49). -/
  status : Status
  /-- The MODEL's own field: the stage whose work `exec` is asked for, or `none` for the whole
  instruction, its four stages in order (assumption 2). DESIGN CHOICE, safe: no rule reads it. -/
  stage : Option Stage
  /-- The MODEL's own field: how many rising clock edges the next step takes after its first one. A step
  leaves it 0, and it is 0 at reset, so a step of a run is one edge (assumption 16). DESIGN CHOICE, safe:
  no clock edge reads it. -/
  burst : Nat
  deriving DecidableEq, Repr

/-- The machine right after reset (R50, R310) with the default parameters of R6 and the empty image: no
program is part of reset (assumption 7). `stage` and `burst` are the model's own (assumptions 2, 16). -/
def State.reset : State :=
  { launch := { memWords := Config.memWords, dataUninit := Config.dataUninit, imageLen := 0 }
    pc := 0
    reg := Vector.replicate 8 0
    imem := []
    dmem := []
    dwritten := []
    ifid := IfId.bubble
    idex := IdEx.bubble
    exmem := ExMem.bubble
    memwb := MemWb.bubble
    wbend := WbEnd.bubble
    cycles := 0
    status := .running
    stage := none
    burst := 0 }

end Sys2Proof.Machine
end

