-- ==== Sys2Proof/Machine/Ops.lean ====
section
/-! DEFINITION. The named operations over registers, memories and status (spec/20_memory.md R70 to R77,
spec/40_pipeline.md R155, spec/60_exceptions.md R280, R281) and the stages of one instruction. -/

namespace Sys2Proof.Machine

/-! ### General registers -/

/-- `x[i]`: a read port of the register file, the value before the edge, 0 for index 0 (R32, R155). -/
def x (s : State) (i : RegIdx) : Word :=
  if i = 0 then 0 else s.reg[i.toNat]'i.isLt

/-- The write port of the register file: a write to index 0 is discarded (R32, R155). -/
def writeReg (s : State) (i : RegIdx) (v : Word) : State :=
  if i = 0 then s else { s with reg := s.reg.set i.toNat v i.isLt }

/-! ### Word memories -/

/-- What an unlisted address of either memory reads as: 0, the reset contents beyond the image
(R50, D9, D10). -/
def unlistedWord : Word := 0

/-- The word at address `a`. -/
def Memory.read : Memory → Nat → Word
  | [], _ => unlistedWord
  | (b, u) :: m, a => if a = b then u else Memory.read m a

/-- The cell that lists `v` at `a` before the rest of a memory, left out where it would list what an
unlisted address reads as. -/
def Memory.listed (a : Nat) (v : Word) (m : Memory) : Memory :=
  if v = unlistedWord then m else (a, v) :: m

/-- `v` stored at address `a`, the canonical form kept. -/
def Memory.write : Memory → Nat → Word → Memory
  | [], a, v => Memory.listed a v []
  | (b, u) :: m, a, v =>
    if a < b then Memory.listed a v ((b, u) :: m)
    else if a = b then Memory.listed a v m
    else (b, u) :: Memory.write m a v

/-- The canonical form: addresses strictly rising, no cell equal to what an unlisted address
reads as. -/
abbrev Memory.wf (m : Memory) : Prop :=
  m.Pairwise (fun c d => c.1 < d.1) ∧ ∀ c ∈ m, c.2 ≠ unlistedWord

/-- The words of `image` at the addresses from `a` up (R50, R71). -/
def Memory.ofImage : Nat → List Word → Memory
  | _, [] => []
  | a, w :: ws => Memory.listed a w (Memory.ofImage (a + 1) ws)

/-- The words of `ws` stored at the addresses from `a` up, one after another. -/
def Memory.place : Memory → Nat → List Word → Memory
  | m, _, [] => m
  | m, a, w :: ws => Memory.place (m.write a w) (a + 1) ws

/-- The mark of address `a` set in `dwritten` (R72), the addresses strictly rising. -/
def setMark : List Nat → Nat → List Nat
  | [], a => [a]
  | b :: m, a => if a < b then a :: b :: m else if a = b then b :: m else b :: setMark m a

/-- The form of `dwritten`: each marked address once, rising. -/
abbrev marksWf (m : List Nat) : Prop := m.Pairwise (· < ·)

/-! ### Taking a fault, and leaving one -/

/-- The numeric code of a fault (R280), 3 bits on the `fault_code` port (R135). -/
def Fault.code : Fault → BitVec 3
  | .fetchAddress _ => 1
  | .dataAddress _ => 2
  | .uninitDataRead _ => 3
  | .unimplementedJalr _ => 4

/-- The information a fault records (R280), 32 bits on the `fault_info` port (R135). -/
def Fault.info : Fault → Word
  | .fetchAddress p => p
  | .dataAddress a => a
  | .uninitDataRead a => a
  | .unimplementedJalr w => w

/-- `raise F`: nothing of the cycle is committed and `status <- Faulted(code, info)` (R281). There is no
vector, no saved `pc` and no handler (R282). -/
def raiseFault (s : State) (f : Fault) : State := { s with status := .faulted f }

/-- The image the launch loaded: the words of `imem` below `IMAGE_LEN` (R71: `imem` keeps them). -/
def imageCells (s : State) : Memory := s.imem.filter (fun c => c.1 < s.launch.imageLen)

/-- The reset edge of R130 and R310, the only way out of `Faulted` and `Halted` (R281, R283, R295): every
element takes its reset value for the image of the launch (R50). -/
def restart (s : State) : State :=
  { State.reset with launch := s.launch, imem := imageCells s, dmem := imageCells s }

/-! ### Memory access -/

/-- The range check of R74 and R75: `0 <= signed(v) < MEM_WORDS`. -/
def inRange (s : State) (v : Word) : Bool :=
  decide (0 ≤ v.signed) && decide (v.signed < (s.launch.memWords : Int))

/-- `IMemRead(a)` (R74). -/
def imemRead (s : State) (a : Word) : Except Fault Word :=
  if inRange s a then .ok (s.imem.read a.toNat) else .error (.fetchAddress a)

/-- `DataAddr(v)` (R75). -/
def dataAddr (s : State) (v : Word) : Except Fault Nat :=
  if inRange s v then .ok v.toNat else .error (.dataAddress v)

/-- Whether a data word may be read: it is in the image, or was stored, or `DATA_UNINIT = zero`
(R76). -/
def readable (s : State) (a : Nat) : Bool :=
  decide (a < s.launch.imageLen) || s.dwritten.contains a || decide (s.launch.dataUninit = .zero)

/-- `DMemRead(v)` (R76): the range check comes first (R285). -/
def dmemRead (s : State) (v : Word) : Except Fault Word :=
  match dataAddr s v with
  | .error f => .error f
  | .ok a => if readable s a then .ok (s.dmem.read a) else .error (.uninitDataRead v)

/-- `DMemWrite(v, d)` (R77): `dmem` only, never `imem` (R71, R87). -/
def dmemWrite (s : State) (v d : Word) : Except Fault State :=
  match dataAddr s v with
  | .error f => .error f
  | .ok a => .ok { s with dmem := s.dmem.write a d, dwritten := setMark s.dwritten a }

/-! ### The stages of one instruction -/

/-- The decode stage's work (R150): IFID's word and `pcPlus1` go on, registers `a` and `b` are read with
their values before the edge (R34), with the offset `k`. -/
def decodeStage (s : State) (a b : RegIdx) (k : Word) : State :=
  { s with idex := { instr := s.ifid.instr, pcPlus1 := s.ifid.pcPlus1,
                     readRegA := x s a, readRegB := x s b, offset := k } }

/-- The execute stage leaves the record `r` in EXMEM (R165). -/
def executeStage (s : State) (r : ExMem) : State := { s with exmem := r }

/-- The memory stage hands EXMEM's word and the value `v` to MEMWB (R171). -/
def memoryStage (s : State) (v : Word) : State :=
  { s with memwb := { instr := s.exmem.instr, writeData := v } }

/-- The writeback stage's copy of MEMWB into WBEND (R175, R176). -/
def retire (s : State) : State :=
  { s with wbend := { instr := s.memwb.instr, writeData := s.memwb.writeData } }

/-- The writeback stage commits MEMWB's value to register `d`, index 0 guarded, and retires (R175). -/
def writebackStage (s : State) (d : RegIdx) : State := retire (writeReg s d s.memwb.writeData)

/-- `s` with the word `w` alone in the pipeline: `w`, which stands at `pc`, in IFID, every other register
a bubble, and `pc` past it. -/
def alone (s : State) (w : Word) : State :=
  { s with pc := s.pc + 1, ifid := { instr := w, pcPlus1 := s.pc + 1 }, idex := IdEx.bubble,
           exmem := ExMem.bubble, memwb := MemWb.bubble, wbend := WbEnd.bubble }

/-- One stage more of an instruction's work, unless it has halted or faulted. -/
def thenStage (work : Stage → State → State) (st : Stage) (t : State) : State :=
  if t.status = .running then work st t else t

/-- The whole instruction `w` with the work `work`, alone and in order (R242, R323): its four stages one
after another, of which the registers, data memory and `pc` keep what they did. A fault or a halt commits
nothing but `status` (R131, R281). -/
def inOrder (w : Word) (work : Stage → State → State) (s : State) : State :=
  let t := thenStage work .writeback <| thenStage work .memory <|
    thenStage work .execute <| thenStage work .decode <| alone s w
  if t.status = .running then
    { s with pc := t.pc, reg := t.reg, dmem := t.dmem, dwritten := t.dwritten }
  else { s with status := t.status }

/-- What `exec` answers for an instruction with the word `w` and the stage work `work`: the stage that
`State.stage` asks for, or the whole instruction in order. -/
def perform (w : Word) (work : Stage → State → State) (s : State) :
    Host.Outcome State Fault Refusal :=
  match s.stage with
  | some st => .next (work st s)
  | none => .next (inOrder w work s)

end Sys2Proof.Machine
end

