-- ==== Sys2Proof/Machine/Operands.lean ====
section
/-! DEFINITION. The operands of the instructions: which fields are read and written (spec/30_encoding.md
R107), forwarding (spec/40_pipeline.md R160), addresses and targets (R221, R241). -/

namespace Sys2Proof.Machine

/-- Whether an instruction is one the hazard rule counts as reading `regA` (R107, R145). -/
def readsA : Instr → Bool
  | .add _ _ _ => true
  | .nor _ _ _ => true
  | .lw _ _ _ => true
  | .sw _ _ _ => true
  | .beq _ _ _ => true
  | .jalr _ _ => false
  | .halt => false
  | .noop => false

/-- Whether an instruction is one the hazard rule counts as reading `regB` (R107, R145). -/
def readsB : Instr → Bool
  | .add _ _ _ => true
  | .nor _ _ _ => true
  | .lw _ _ _ => false
  | .sw _ _ _ => true
  | .beq _ _ _ => true
  | .jalr _ _ => false
  | .halt => false
  | .noop => false

/-- The destination of an `ADD` or `NOR`, the instructions that forward from EXMEM (R160). -/
def aluDest : Instr → Option RegIdx
  | .add _ _ d => some d
  | .nor _ _ d => some d
  | .lw _ _ _ => none
  | .sw _ _ _ => none
  | .beq _ _ _ => none
  | .jalr _ _ => none
  | .halt => none
  | .noop => none

/-- `wdest`: the register an instruction writes, if any (R160). -/
def wdest : Instr → Option RegIdx
  | .add _ _ d => some d
  | .nor _ _ d => some d
  | .lw _ b _ => some b
  | .sw _ _ _ => none
  | .beq _ _ _ => none
  | .jalr _ _ => none
  | .halt => none
  | .noop => none

/-- `fwd(i, v)`: the up-to-date value of register `i`, for which decode read `v`; EXMEM first, then
MEMWB, then WBEND, register 0 never (R160). -/
def fwd (s : State) (i : RegIdx) (v : Word) : Word :=
  if i = 0 then v
  else if aluDest (decode s.exmem.instr) = some i then s.exmem.aluResult
  else if wdest (decode s.memwb.instr) = some i then s.memwb.writeData
  else if wdest (decode s.wbend.instr) = some i then s.wbend.writeData
  else v

/-- `opA` of the forwarding mux for an instruction in IDEX whose `regA` is `a` (R160). -/
def operandA (s : State) (a : RegIdx) : Word := fwd s a s.idex.readRegA

/-- `opB` of the forwarding mux for an instruction in IDEX whose `regB` is `b` (R160). -/
def operandB (s : State) (b : RegIdx) : Word := fwd s b s.idex.readRegB

/-- The effective address of `LW` and `SW` in the execute stage: the forwarded base plus the offset,
modulo 2^32 (R165, R221). -/
def effectiveAddress (s : State) (a : RegIdx) : Word := operandA s a + s.idex.offset

/-- The branch target in the execute stage: `pcPlus1` plus the signed offset (R165, R241), held in 32
bits (R35, D23). -/
def branchTarget (s : State) : Word := s.idex.pcPlus1 + s.idex.offset

end Sys2Proof.Machine
end

