-- ==== Sys2Proof/Machine/Flags.lean ====
section
/-! DEFINITION. The flag computations. The CORE has no architectural flag, condition code or carry
(spec/10_state.md R37, spec/41_alu.md R200, R201); the one flag-like bit is `EXMEM.equalityFlag`. -/

namespace Sys2Proof.Machine

/-- The equality flag of `BEQ`: equality of the forwarded 32-bit patterns (R165, R202, R240). -/
def equalityFlag (opA opB : Word) : Bool := opA == opB

end Sys2Proof.Machine
end

