-- ==== Sys2Proof/Machine/Alu.lean ====
section
/-! DEFINITION. The register-register ALU instructions `ADD` and `NOR` (spec/41_alu.md). -/

namespace Sys2Proof.Machine

/-- The four lines of R200: `ADD` adds modulo 2^32, with no flag and no fault. -/
def addStage (a b d : RegIdx) (st : Stage) (s : State) : State :=
  match st with
  | .decode => decodeStage s a b (offset s.ifid.instr)
  | .execute => executeStage s
      { ExMem.idle s.idex.instr with aluResult := operandA s a + operandB s b }
  | .memory => memoryStage s s.exmem.aluResult
  | .writeback => writebackStage s d

/-- The four lines of R201: `NOR` is the bitwise NOR of 32 bits. -/
def norStage (a b d : RegIdx) (st : Stage) (s : State) : State :=
  match st with
  | .decode => decodeStage s a b (offset s.ifid.instr)
  | .execute => executeStage s
      { ExMem.idle s.idex.instr with aluResult := ~~~(operandA s a ||| operandB s b) }
  | .memory => memoryStage s s.exmem.aluResult
  | .writeback => writebackStage s d

/-- `ADD regA regB destReg` (R200). -/
def execAdd (a b d : RegIdx) (s : State) : Host.Outcome State Fault Refusal :=
  perform (encode (.add a b d)) (addStage a b d) s

/-- `NOR regA regB destReg` (R201). -/
def execNor (a b d : RegIdx) (s : State) : Host.Outcome State Fault Refusal :=
  perform (encode (.nor a b d)) (norStage a b d) s

end Sys2Proof.Machine
end

