-- ==== Sys2Proof/Machine/Branch.lean ====
section
/-! DEFINITION. The branch `BEQ` (spec/43_branch.md). -/

namespace Sys2Proof.Machine

/-- What a taken branch does in the memory stage: `pc` takes the target and the three younger
instructions are discarded (R170, R240). -/
def redirect (s : State) (target : Word) : State :=
  { s with pc := target, ifid := IfId.bubble, idex := IdEx.bubble, exmem := ExMem.bubble }

/-- The four lines of R240: flag and target in the execute stage, the redirect in the memory stage if
the flag is set. The target is not checked here (R241). -/
def beqStage (a b : RegIdx) (k : Off16) (st : Stage) (s : State) : State :=
  match st with
  | .decode => decodeStage s a b k.sext
  | .execute => executeStage s
      { ExMem.idle s.idex.instr with
        equalityFlag := equalityFlag (operandA s a) (operandB s b), branchTarget := branchTarget s }
  | .memory =>
    if s.exmem.equalityFlag then redirect (memoryStage s 0) s.exmem.branchTarget
    else memoryStage s 0
  | .writeback => retire s

/-- `BEQ regA regB offset` (R240). -/
def execBeq (a b : RegIdx) (k : Off16) (s : State) : Host.Outcome State Fault Refusal :=
  perform (encode (.beq a b k)) (beqStage a b k) s

end Sys2Proof.Machine
end

