-- ==== Sys2Proof/Machine/LoadStore.lean ====
section
/-! DEFINITION. The load and store instructions `LW` and `SW` (spec/42_load_store.md). -/

namespace Sys2Proof.Machine

/-- The four lines of R220: the address is checked and read in the memory stage, where
`DataAddressFault` and `UninitDataRead` are raised. A destination of index 0 still reads and checks. -/
def lwStage (a b : RegIdx) (k : Off16) (st : Stage) (s : State) : State :=
  match st with
  | .decode => decodeStage s a b k.sext
  | .execute => executeStage s { ExMem.idle s.idex.instr with aluResult := effectiveAddress s a }
  | .memory =>
    match dmemRead s s.exmem.aluResult with
    | .ok v => memoryStage s v
    | .error f => raiseFault s f
  | .writeback => writebackStage s b

/-- The four lines of R222: address and forwarded data in the execute stage, the store (or
`DataAddressFault`) in the memory stage, nothing written back. -/
def swStage (a b : RegIdx) (k : Off16) (st : Stage) (s : State) : State :=
  match st with
  | .decode => decodeStage s a b k.sext
  | .execute => executeStage s
      { ExMem.idle s.idex.instr with aluResult := effectiveAddress s a, storeData := operandB s b }
  | .memory =>
    match dmemWrite s s.exmem.aluResult s.exmem.storeData with
    | .ok t => memoryStage t 0
    | .error f => raiseFault s f
  | .writeback => retire s

/-- `LW regA regB offset` (R220). -/
def execLw (a b : RegIdx) (k : Off16) (s : State) : Host.Outcome State Fault Refusal :=
  perform (encode (.lw a b k)) (lwStage a b k) s

/-- `SW regA regB offset` (R222). -/
def execSw (a b : RegIdx) (k : Off16) (s : State) : Host.Outcome State Fault Refusal :=
  perform (encode (.sw a b k)) (swStage a b k) s

end Sys2Proof.Machine
end

