-- ==== Sys2Proof/Machine/System.lean ====
section
/-! DEFINITION. `HALT`, `NOOP` and the unimplemented jump `JALR` (spec/44_halt_noop_jalr.md). -/

namespace Sys2Proof.Machine

/-- Decode of a word whose register fields no operand names: both ports are read all the same (R34,
R150). -/
def decodeWord (s : State) : State :=
  decodeStage s (regA s.ifid.instr) (regB s.ifid.instr) (offset s.ifid.instr)

/-- The lines of R262: `JALR` flows on with no computation and raises `UnimplementedJalr(word)` in the
memory stage. It never reaches writeback (R175); the line for that stage only retires. -/
def jalrStage (a b : RegIdx) (st : Stage) (s : State) : State :=
  match st with
  | .decode => decodeStage s a b (offset s.ifid.instr)
  | .execute => executeStage s (ExMem.idle s.idex.instr)
  | .memory => raiseFault s (.unimplementedJalr s.exmem.instr)
  | .writeback => retire s

/-- The lines of R260: found in MEMWB at the start of a cycle, `HALT` makes `status` `Halted` and
changes nothing else (R131). It never reaches WBEND. -/
def haltStage (st : Stage) (s : State) : State :=
  match st with
  | .decode => decodeWord s
  | .execute => executeStage s (ExMem.idle s.idex.instr)
  | .memory => memoryStage s 0
  | .writeback => { s with status := .halted }

/-- The lines of R261: `NOOP` passes through and does nothing. -/
def noopStage (st : Stage) (s : State) : State :=
  match st with
  | .decode => decodeWord s
  | .execute => executeStage s (ExMem.idle s.idex.instr)
  | .memory => memoryStage s 0
  | .writeback => retire s

/-- `JALR regA regB` (R262). -/
def execJalr (a b : RegIdx) (s : State) : Host.Outcome State Fault Refusal :=
  perform (encode (.jalr a b)) (jalrStage a b) s

/-- `HALT` (R260). -/
def execHalt (s : State) : Host.Outcome State Fault Refusal := perform (encode .halt) haltStage s

/-- `NOOP` (R261). -/
def execNoop (s : State) : Host.Outcome State Fault Refusal := perform (encode .noop) noopStage s

end Sys2Proof.Machine
end

