-- ==== Sys2Proof/Machine/Dispatch.lean ====
section
/-! DEFINITION. The dispatch of an instruction to its meaning, one arm per constructor. -/

namespace Sys2Proof.Machine

def exec (i : Instr) (s : State) : Host.Outcome State Fault Refusal :=
  match i with
  | .add a b d => Sys2Proof.Machine.execAdd a b d s
  | .nor a b d => Sys2Proof.Machine.execNor a b d s
  | .lw a b k => Sys2Proof.Machine.execLw a b k s
  | .sw a b k => Sys2Proof.Machine.execSw a b k s
  | .beq a b k => Sys2Proof.Machine.execBeq a b k s
  | .jalr a b => Sys2Proof.Machine.execJalr a b s
  | .halt => Sys2Proof.Machine.execHalt s
  | .noop => Sys2Proof.Machine.execNoop s

end Sys2Proof.Machine
end

