-- ==== Sys2Proof/Machine/Cycle.lean ====
section
/-! DEFINITION. One clock cycle (spec/40_pipeline.md R131 to R175): the instruction of each pipeline
register does its stage of `exec` on one snapshot, then the results are committed as a whole. -/

namespace Sys2Proof.Machine

/-- Go on with the next state of an outcome, if it has one. -/
def andThen (o : Host.Outcome State Fault Refusal)
    (k : State → Host.Outcome State Fault Refusal) : Host.Outcome State Fault Refusal :=
  match o with
  | .next t => k t
  | .fault f => .fault f
  | .refused r => .refused r

/-- `branch_resolver`'s flush signal (R170). -/
def flush (s : State) : Bool :=
  decide (op s.exmem.instr = encoding.opBeq) && s.exmem.equalityFlag

/-- `hazard_detector(e, f)` (R145): `e` loads a register that `f` reads. Index 0 is not excluded
(R146). -/
def hazard (e f : Word) : Bool :=
  decide (op e = encoding.opLw) &&
    ((readsA (decode f) && regA f == regB e) || (readsB (decode f) && regB f == regB e))

/-- The stall signal of a cycle (R131, R145). -/
def stall (s : State) : Bool := hazard s.idex.instr s.ifid.instr

/-- The instruction word the pipeline register before a stage holds. -/
def stageWord (s : State) : Stage → Word
  | .decode => s.ifid.instr
  | .execute => s.idex.instr
  | .memory => s.exmem.instr
  | .writeback => s.memwb.instr

/-- The instruction in a stage does that stage's work of its meaning, on the snapshot `s`. -/
def runStage (s : State) (st : Stage) : Host.Outcome State Fault Refusal :=
  exec (decode (stageWord s st)) { s with stage := some st }

/-- The fetch unit (R140): no read in a cycle with a flush or a stall, else the word at `pc`. -/
def fetch (s : State) : Except Fault IfId :=
  if flush s || stall s then .ok s.ifid
  else
    match imemRead s s.pc with
    | .error f => .error f
    | .ok w => .ok { instr := w, pcPlus1 := s.pc + 1 }

/-- The selection of R136 for `pc`, IFID, IDEX and EXMEM, the flush first (C2, D12): `br` is the memory
stage's result (a taken branch's redirect), `ex` and `de` are the execute and decode stages' results and
`f` is the word fetched. -/
def advance (s br ex de : State) (f : IfId) (t : State) : State :=
  if flush s then { t with pc := br.pc, ifid := br.ifid, idex := br.idex, exmem := br.exmem }
  else if stall s then { t with pc := s.pc, ifid := s.ifid, idex := IdEx.bubble, exmem := ex.exmem }
  else { t with pc := s.pc + 1, ifid := f, idex := de.idex, exmem := ex.exmem }

/-- The commit of R131: what the stages computed from `s`, all at once, and `cycles` one more. -/
def commit (s wb mm ex de : State) (f : IfId) : State :=
  advance s mm ex de f
    { s with reg := wb.reg, wbend := wb.wbend, memwb := mm.memwb, dmem := mm.dmem,
             dwritten := mm.dwritten, cycles := s.cycles + 1 }

/-- `cycle(s)` (R131), for a running CORE. The events are taken in the order of R132: a `HALT` in MEMWB,
a fault of the memory stage, a fault of the fetch. -/
def cycle (s : State) : Host.Outcome State Fault Refusal :=
  andThen (runStage s .writeback) fun wb =>
    if wb.status ≠ .running then .next { s with status := wb.status }
    else
      andThen (runStage s .memory) fun mm =>
        if mm.status ≠ .running then .next { s with status := mm.status }
        else
          match fetch s with
          | .error f => .next (raiseFault s f)
          | .ok i =>
            andThen (runStage s .execute) fun ex =>
              andThen (runStage s .decode) fun de =>
                .next (commit s wb mm ex de i)

/-- A rising clock edge with `rst = 0` (R130): a cycle if `status` is `Running`, else nothing changes
(R49). -/
def runEdge (s : State) : Host.Outcome State Fault Refusal :=
  if s.status = .running then cycle s else .next s

/-- A rising clock edge (R130): with `rst = 1` the reset of R310, whatever `status` was. -/
def clockEdge (rst : Bool) (s : State) : Host.Outcome State Fault Refusal :=
  if rst then .next (restart s) else runEdge s

/-- Rising clock edges one after another, each with its `rst` (R130). -/
def clockEdges : List Bool → State → Host.Outcome State Fault Refusal
  | [], s => .next s
  | rst :: es, s => andThen (clockEdge rst s) (clockEdges es)

/-- `k` rising clock edges with `rst = 0` (R130). -/
def edges (k : Nat) (s : State) : Host.Outcome State Fault Refusal :=
  clockEdges (List.replicate k false) s

/-- What one step does: one clock edge with `rst = 0` and as many more as the model's own field `burst`
says, which it leaves 0 (assumption 16). -/
def runBurst (s : State) : Host.Outcome State Fault Refusal :=
  andThen (edges (s.burst + 1) s) fun t => .next { t with burst := 0 }

/-- The edges after the first that carry an instruction from IFID through writeback (R311: the first
register write happens in cycle 5). -/
def drainEdges : Nat := 4

/-- The word `w` put where the next edge fetches (R74, R140), in `imem` at `pc`, with all that one step
takes to run it and nothing else: `NOOP`s behind it, a pipeline of bubbles, and a step of five edges
(assumption 8). -/
def loadFetchWord (s : State) (w : Word) : State :=
  { s with imem := s.imem.place s.pc.toNat (w :: List.replicate drainEdges noopWord),
           ifid := IfId.bubble, idex := IdEx.bubble, exmem := ExMem.bubble, memwb := MemWb.bubble,
           wbend := WbEnd.bubble, burst := drainEdges }

end Sys2Proof.Machine
end

