-- ==== Sys2Proof/Machine/Step.lean ====
section
/-! DEFINITION. The step of the machine: one clock edge with `rst = 0` (spec/40_pipeline.md R130, R131),
and, only where the model's own field `burst` asks for them, further such edges (assumption 16). -/

namespace Sys2Proof.Machine

/-- One step is one clock edge of the CORE with `rst = 0` where `burst` is 0, as it is at reset, at every
launch and after every step. -/
def step (s : State) : Host.Outcome State Fault Refusal := runBurst s

/-- `s` with the instruction of `nbits` bits `w` where the next step fetches, `imem` at `pc`, set up so
that the next step fetches and runs exactly it (assumption 8). -/
def State.withFetchWord (s : State) (nbits w : Nat) : State := loadFetchWord s (tableWord nbits w)

end Sys2Proof.Machine
end

