-- ==== Sys2Proof/Machine/Blocks.lean ====
section
/-! DEFINITION. The ten blocks of the CORE with their ports, written opcode by opcode as
spec/40_pipeline.md R130 to R176 gives them, and the cycle they make. It is the second description the spec
gives of the same machine; `step` follows the first (the rules of the instructions), and
`Obligations.StepIsTheBlockCycle` says that the two agree on every state. -/

namespace Sys2Proof.Machine

/-- Whether `op(w)` is one of the listed opcode numbers. -/
def opIn (w : Word) (ops : List (BitVec 3)) : Bool := ops.contains (op w)

/-- `wdest(w)` (R160), on the fields of the word. -/
def wdestWord (w : Word) : Option RegIdx :=
  if opIn w [encoding.opAdd, encoding.opNor] then some (destReg w)
  else if opIn w [encoding.opLw] then some (regB w)
  else none

/-- Outputs of `branch_resolver` (R170). -/
structure BranchPorts where
  /-- A taken branch is in EXMEM. -/
  flush : Bool
  /-- Where it goes. -/
  flushTarget : Word
  deriving DecidableEq, Repr

/-- `branch_resolver` (R170). -/
def branchResolver (e : ExMem) : BranchPorts :=
  { flush := opIn e.instr [encoding.opBeq] && e.equalityFlag, flushTarget := e.branchTarget }

/-- `hazard_detector` (R145). -/
def hazardDetector (e f : Word) : Bool :=
  if opIn e [encoding.opLw] then
    let r := regB e
    let usesA := opIn f [encoding.opAdd, encoding.opNor, encoding.opLw, encoding.opSw, encoding.opBeq]
    let usesB := opIn f [encoding.opAdd, encoding.opNor, encoding.opSw, encoding.opBeq]
    (usesA && regA f == r) || (usesB && regB f == r)
  else false

/-- A read port of `register_file` (R155). -/
def rfRead (reg : Vector Word 8) (raddr : RegIdx) : Word :=
  if raddr = 0 then 0 else reg[raddr.toNat]'raddr.isLt

/-- The write port of `register_file` at the edge (R155). -/
def rfWrite (reg : Vector Word 8) (we : Bool) (waddr : RegIdx) (wdata : Word) : Vector Word 8 :=
  if we ∧ waddr ≠ 0 then reg.set waddr.toNat wdata waddr.isLt else reg

/-- Outputs of the decode stage around `instruction_decoder` (R150, R151). -/
structure DecodePorts where
  /-- `regA(IFID.instr)`. -/
  rfRaddrA : RegIdx
  /-- `regB(IFID.instr)`. -/
  rfRaddrB : RegIdx
  /-- The next IDEX. -/
  idexNext : IdEx
  deriving DecidableEq, Repr

/-- `decode_stage` (R150): the read ports of the register file are `reg`. -/
def decodeBlock (i : IfId) (reg : Vector Word 8) (stall flush : Bool) : DecodePorts :=
  let d := decodeFields i.instr
  { rfRaddrA := d.regA, rfRaddrB := d.regB
    idexNext :=
      if flush || stall then IdEx.bubble
      else { instr := i.instr, pcPlus1 := i.pcPlus1, readRegA := rfRead reg d.regA,
             readRegB := rfRead reg d.regB, offset := d.offset } }

/-- `fwd(i, v)` of the forwarding mux, on words (R160). -/
def fwdWord (e : ExMem) (m : MemWb) (b : WbEnd) (i : RegIdx) (v : Word) : Word :=
  if i = 0 then v
  else if opIn e.instr [encoding.opAdd, encoding.opNor] ∧ destReg e.instr = i then e.aluResult
  else if wdestWord m.instr = some i then m.writeData
  else if wdestWord b.instr = some i then b.writeData
  else v

/-- `forwarding_mux` (R160, R161): both operands of every opcode. -/
def forwardingMux (d : IdEx) (e : ExMem) (m : MemWb) (b : WbEnd) : Word × Word :=
  (fwdWord e m b (regA d.instr) d.readRegA, fwdWord e m b (regB d.instr) d.readRegB)

/-- `execute_alu` (R165). -/
def executeAlu (d : IdEx) (opA opB : Word) (flush : Bool) : ExMem :=
  if flush then ExMem.bubble
  else
    let r := ExMem.idle d.instr
    if opIn d.instr [encoding.opAdd] then { r with aluResult := opA + opB }
    else if opIn d.instr [encoding.opNor] then { r with aluResult := ~~~(opA ||| opB) }
    else if opIn d.instr [encoding.opLw] then { r with aluResult := opA + d.offset }
    else if opIn d.instr [encoding.opSw] then { r with aluResult := opA + d.offset, storeData := opB }
    else if opIn d.instr [encoding.opBeq] then
      { r with equalityFlag := opA == opB, branchTarget := d.pcPlus1 + d.offset }
    else r

/-- Outputs of `memory_load_store` (R171). -/
structure MemoryPorts where
  /-- The data address, the ALU result. -/
  dmemAddr : Word
  /-- Read enable. -/
  dmemRe : Bool
  /-- Write enable. -/
  dmemWe : Bool
  /-- Write data. -/
  dmemWdata : Word
  /-- The next MEMWB, or the fault raised. -/
  memwbNext : Except Fault MemWb

/-- `memory_load_store` (R171). -/
def memoryLoadStore (s : State) : MemoryPorts :=
  let e := s.exmem
  { dmemAddr := e.aluResult
    dmemRe := opIn e.instr [encoding.opLw]
    dmemWe := opIn e.instr [encoding.opSw]
    dmemWdata := e.storeData
    memwbNext :=
      if opIn e.instr [encoding.opLw] then
        match dmemRead s e.aluResult with
        | .ok v => .ok { instr := e.instr, writeData := v }
        | .error f => .error f
      else if opIn e.instr [encoding.opSw] then
        match dataAddr s e.aluResult with
        | .ok _ => .ok { instr := e.instr, writeData := 0 }
        | .error f => .error f
      else if opIn e.instr [encoding.opAdd, encoding.opNor] then
        .ok { instr := e.instr, writeData := e.aluResult }
      else if opIn e.instr [encoding.opJalr] then .error (.unimplementedJalr e.instr)
      else .ok { instr := e.instr, writeData := 0 } }

/-- Outputs of `fetch_unit` (R140). -/
structure FetchPorts where
  /-- `imem_addr`, equal to `pc`. -/
  imemAddr : Word
  /-- `imem_re`, equal to `not flush and not stall`. -/
  imemRe : Bool
  /-- `pc_next` and `ifid_next`, or the fault raised. -/
  pcIfidNext : Except Fault (Word × IfId)

/-- `fetch_unit` (R140): the flush wins over the stall (R136). -/
def fetchUnit (s : State) (stall flush : Bool) (flushTarget : Word) : FetchPorts :=
  { imemAddr := s.pc
    imemRe := !flush && !stall
    pcIfidNext :=
      if flush then .ok (flushTarget, IfId.bubble)
      else if stall then .ok (s.pc, s.ifid)
      else
        match imemRead s s.pc with
        | .ok w => .ok (s.pc + 1, { instr := w, pcPlus1 := s.pc + 1 })
        | .error f => .error f }

/-- Outputs of `writeback_stage` (R175). -/
structure WritebackPorts where
  /-- `rf_we`. -/
  rfWe : Bool
  /-- `rf_waddr`; `none` where no register is named. -/
  rfWaddr : Option RegIdx
  /-- `rf_wdata`. -/
  rfWdata : Word
  /-- The next WBEND. -/
  wbendNext : WbEnd
  deriving DecidableEq, Repr

/-- `writeback_stage` (R175). -/
def writebackBlock (m : MemWb) : WritebackPorts :=
  let d := wdestWord m.instr
  { rfWe := decide (d ≠ none) && decide (d ≠ some 0), rfWaddr := d, rfWdata := m.writeData
    wbendNext := { instr := m.instr, writeData := m.writeData } }

/-- `halt_seen` of `pipeline_registers` (R135). -/
def haltSeen (s : State) : Bool := opIn s.memwb.instr [encoding.opHalt]

/-- The outputs the CORE shows (R130, R135). -/
structure Outputs where
  /-- `status`. -/
  status : Status
  /-- `cycles`. -/
  cycles : Word
  /-- `fault_code`, when faulted. -/
  faultCode : Option (BitVec 3)
  /-- `fault_info`, when faulted. -/
  faultInfo : Option Word
  deriving DecidableEq, Repr

/-- The outputs in a state (R130). -/
def outputs (s : State) : Outputs :=
  { status := s.status, cycles := s.cycles
    faultCode := match s.status with
      | .faulted f => some f.code
      | .running => none
      | .halted => none
    faultInfo := match s.status with
      | .faulted f => some f.info
      | .running => none
      | .halted => none }

/-- The data-memory write port at the edge (R77, R171). -/
def dmemEdge (s : State) (m : MemoryPorts) : Memory × List Nat :=
  if m.dmemWe then
    (s.dmem.write m.dmemAddr.toNat m.dmemWdata, setMark s.dwritten m.dmemAddr.toNat)
  else (s.dmem, s.dwritten)

/-- `cycle(s)` of R131, block by block, for a running CORE. -/
def blockCycle (s : State) : State :=
  if haltSeen s then { s with status := .halted }
  else
    let br := branchResolver s.exmem
    let st := hazardDetector s.idex.instr s.ifid.instr
    let mem := memoryLoadStore s
    let opAB := forwardingMux s.idex s.exmem s.memwb s.wbend
    let ex := executeAlu s.idex opAB.1 opAB.2 br.flush
    let de := decodeBlock s.ifid s.reg st br.flush
    let fe := fetchUnit s st br.flush br.flushTarget
    let wb := writebackBlock s.memwb
    match mem.memwbNext, fe.pcIfidNext with
    | .error f, _ => raiseFault s f
    | .ok _, .error f => raiseFault s f
    | .ok m, .ok (pcNext, ifidNext) =>
      { s with
        pc := pcNext, ifid := ifidNext, idex := de.idexNext, exmem := ex, memwb := m
        wbend := wb.wbendNext, reg := rfWrite s.reg wb.rfWe (wb.rfWaddr.getD 0) wb.rfWdata
        dmem := (dmemEdge s mem).1, dwritten := (dmemEdge s mem).2, cycles := s.cycles + 1 }

/-- The rising edge of R130 with `rst = 0`, by the blocks. -/
def blockStep (s : State) : State := if s.status = .running then blockCycle s else s

end Sys2Proof.Machine
end

