-- ==== Sys2Proof/Machine/DontCare.lean ====
section
/-! DEFINITION. The Don't-Care fields of the pipeline registers (spec/10_state.md R47): the table of which
field is meaningful for which opcode, as the state with every Don't-Care field zero. -/

namespace Sys2Proof.Machine

/-- A field kept if it is meaningful, else zero. -/
def keepIf (meaningful : Bool) (v : Word) : Word := if meaningful then v else 0

/-- Whether an instruction is a `BEQ`. -/
def isBranch : Instr → Bool
  | .beq _ _ _ => true
  | .add _ _ _ => false
  | .nor _ _ _ => false
  | .lw _ _ _ => false
  | .sw _ _ _ => false
  | .jalr _ _ => false
  | .halt => false
  | .noop => false

/-- Whether an instruction is an `SW`. -/
def isStore : Instr → Bool
  | .sw _ _ _ => true
  | .add _ _ _ => false
  | .nor _ _ _ => false
  | .lw _ _ _ => false
  | .beq _ _ _ => false
  | .jalr _ _ => false
  | .halt => false
  | .noop => false

/-- Whether an instruction uses the offset: `LW`, `SW`, `BEQ`. -/
def usesOffset : Instr → Bool
  | .lw _ _ _ => true
  | .sw _ _ _ => true
  | .beq _ _ _ => true
  | .add _ _ _ => false
  | .nor _ _ _ => false
  | .jalr _ _ => false
  | .halt => false
  | .noop => false

/-- Whether `EXMEM.aluResult` is meaningful: a result of `ADD` and `NOR`, an address of `LW` and
`SW`. -/
def usesAlu : Instr → Bool
  | .add _ _ _ => true
  | .nor _ _ _ => true
  | .lw _ _ _ => true
  | .sw _ _ _ => true
  | .beq _ _ _ => false
  | .jalr _ _ => false
  | .halt => false
  | .noop => false

/-- IDEX with its Don't-Care fields zero (R47). -/
def IdEx.meaning (r : IdEx) : IdEx :=
  let i := decode r.instr
  { instr := r.instr
    pcPlus1 := keepIf (isBranch i) r.pcPlus1
    readRegA := keepIf (readsA i) r.readRegA
    readRegB := keepIf (readsB i) r.readRegB
    offset := keepIf (usesOffset i) r.offset }

/-- EXMEM with its Don't-Care fields zero (R47). -/
def ExMem.meaning (r : ExMem) : ExMem :=
  let i := decode r.instr
  { instr := r.instr
    branchTarget := keepIf (isBranch i) r.branchTarget
    equalityFlag := isBranch i && r.equalityFlag
    aluResult := keepIf (usesAlu i) r.aluResult
    storeData := keepIf (isStore i) r.storeData }

/-- MEMWB with its Don't-Care field zero (R47). -/
def MemWb.meaning (r : MemWb) : MemWb :=
  { instr := r.instr, writeData := keepIf (wdest (decode r.instr)).isSome r.writeData }

/-- WBEND with its Don't-Care field zero (R47). -/
def WbEnd.meaning (r : WbEnd) : WbEnd :=
  { instr := r.instr, writeData := keepIf (wdest (decode r.instr)).isSome r.writeData }

/-- A state with every Don't-Care field zero (R47); every field of IFID is meaningful. -/
def eraseDontCare (s : State) : State :=
  { s with idex := s.idex.meaning, exmem := s.exmem.meaning, memwb := s.memwb.meaning,
           wbend := s.wbend.meaning }

end Sys2Proof.Machine
end

