-- ==== Sys2Proof/Machine/Launch.lean ====
section
/-! DEFINITION. The launch of a program (spec/70_reset_and_hazards.md R310, R313; spec/10_state.md R50):
the reset state for a given image. -/

namespace Sys2Proof.Machine

/-- The reset state of R50 for the image `image` and the parameters `memWords` and `uninit` (R6): the
image lies from address 0 in both memories (R71), everything else is as `State.reset`. -/
def launchState (memWords : Nat) (uninit : DataUninit) (image : List Word) : State :=
  { State.reset with
    launch := { memWords := memWords, dataUninit := uninit, imageLen := image.length }
    imem := Memory.ofImage 0 image
    dmem := Memory.ofImage 0 image }

end Sys2Proof.Machine
end

