-- ==== Sys2Proof/Machine/Loader.lean ====
section
/-! DEFINITION. The loading of the program image before the first cycle (spec/70_reset_and_hazards.md
R313, R314; D22). A file is the list of its lines, a line the list of its characters. -/

namespace Sys2Proof.Machine

/-- The load-time errors (R314), each fatal before any cycle. -/
inductive LoadError where
  /-- The argument count is other than exactly one. -/
  | usage
  /-- The file cannot be opened. -/
  | cannotOpen
  /-- A line does not parse as a hexadecimal word. -/
  | badLine
  /-- The image has more than `MEM_WORDS` words. -/
  | imageTooLong
  deriving DecidableEq, Repr

/-- The exit code of the process on a load-time error (R314). -/
def LoadError.exitCode : LoadError → Nat
  | .usage => 1
  | .cannotOpen => 1
  | .badLine => 1
  | .imageTooLong => 1

/-- White space at the ends of a line (R314). DESIGN CHOICE, unsafe (assumption 10): the characters of
`Char.isWhitespace`. -/
def trimLine (line : List Char) : List Char :=
  ((line.dropWhile Char.isWhitespace).reverse.dropWhile Char.isWhitespace).reverse

/-- The value of a hexadecimal digit, upper or lower case (R314). -/
def hexDigit (c : Char) : Option Nat :=
  if '0'.toNat ≤ c.toNat ∧ c.toNat ≤ '9'.toNat then some (c.toNat - '0'.toNat)
  else if 'a'.toNat ≤ c.toNat ∧ c.toNat ≤ 'f'.toNat then some (c.toNat - 'a'.toNat + 10)
  else if 'A'.toNat ≤ c.toNat ∧ c.toNat ≤ 'F'.toNat then some (c.toNat - 'A'.toNat + 10)
  else none

/-- The number some hexadecimal digits write, continuing `acc`. -/
def hexValue : Nat → List Char → Option Nat
  | acc, [] => some acc
  | acc, c :: cs =>
    match hexDigit c with
    | some d => hexValue (16 * acc + d) cs
    | none => none

/-- The optional prefix `0x` or `0X` taken off (R314). -/
def stripPrefix : List Char → List Char
  | '0' :: 'x' :: cs => cs
  | '0' :: 'X' :: cs => cs
  | cs => cs

/-- A line as a word: an optional prefix and 1 to 8 hexadecimal digits (R314). -/
def parseLine (line : List Char) : Option Word :=
  let digits := stripPrefix (trimLine line)
  if digits = [] ∨ 8 < digits.length then none
  else (hexValue 0 digits).map (BitVec.ofNat 32)

/-- The lines of a file without the empty lines after its last word (R314). A file that has only empty
lines has no last word, a case R314 and D22 leave open: DESIGN CHOICE, unsafe (assumption 10), all of them
are dropped and the file loads the empty image. -/
def dropTrailingBlank (lines : List (List Char)) : List (List Char) :=
  (lines.reverse.dropWhile fun l => trimLine l == []).reverse

/-- The words of the lines, in file order. -/
def parseLines : List (List Char) → Option (List Word)
  | [] => some []
  | l :: ls =>
    match parseLine l, parseLines ls with
    | some w, some ws => some (w :: ws)
    | _, _ => none

/-- The image of a program file, or the load-time error (R314): `args` is the count of extra arguments,
`file` the file's lines, `none` where it cannot be opened. -/
def loadImage (memWords args : Nat) (file : Option (List (List Char))) : Except LoadError (List Word) :=
  if args ≠ 1 then .error .usage
  else
    match file with
    | none => .error .cannotOpen
    | some lines =>
      match parseLines (dropTrailingBlank lines) with
      | none => .error .badLine
      | some ws => if memWords < ws.length then .error .imageTooLong else .ok ws

/-- What the host does before the first cycle (R313): load the image, then one reset edge. -/
def boot (memWords : Nat) (uninit : DataUninit) (args : Nat) (file : Option (List (List Char))) :
    Except LoadError State :=
  match loadImage memWords args file with
  | .error e => .error e
  | .ok image => .ok (launchState memWords uninit image)

end Sys2Proof.Machine
end

