-- ==== Sys2Proof/Machine/InOrder.lean ====
section
/-! DEFINITION. The reference of sequential equivalence (spec/70_reset_and_hazards.md R323) and the counts
of a run (R330): instructions executed one at a time, in order, by the same meanings. -/

namespace Sys2Proof.Machine

/-- One instruction alone (R323): fetched from the image at `pc`, then its whole meaning. Nothing runs
after a `HALT` or a fault. -/
def inOrderStep (s : State) : Host.Outcome State Fault Refusal :=
  if s.status = .running then
    match imemRead s s.pc with
    | .error f => .next (raiseFault s f)
    | .ok w => exec (decode w) { s with stage := none }
  else .next s

/-- `k` steps of a machine, stopping at an outcome that is no next state. -/
def iterate (f : State → Host.Outcome State Fault Refusal) :
    Nat → State → Host.Outcome State Fault Refusal
  | 0, s => .next s
  | k + 1, s => andThen (f s) (iterate f k)

/-- `k` steps, which from a launch are `k` clock edges of the CORE (`burst` is 0). -/
def run (k : Nat) (s : State) : Host.Outcome State Fault Refusal := iterate step k s

/-- `k` instructions one at a time (R323). -/
def runInOrder (k : Nat) (s : State) : Host.Outcome State Fault Refusal := iterate inOrderStep k s

/-- Whether the edge after this snapshot executes a cycle that commits, so that `cycles` counts it
(R48, R291). -/
def executes (s : State) : Bool :=
  match runEdge s with
  | .next t => decide (s.status = .running) && decide (t.status = .running)
  | .fault _ => false
  | .refused _ => false

/-- How many of the first `k` executed cycles have a snapshot with the property `p`. -/
def countCycles (p : State → Bool) : Nat → State → Nat
  | 0, _ => 0
  | k + 1, s =>
    (if executes s && p s then 1 else 0) +
      match runEdge s with
      | .next t => countCycles p k t
      | .fault _ => 0
      | .refused _ => 0

/-- A cycle in which a stall applies without a flush: the `S` of R330. -/
def stallCycle (s : State) : Bool := stall s && !flush s

/-- A stall without a flush ahead of which no `HALT` is in EXMEM. A stall behind a `HALT` delays no item
that comes before the `HALT`, so R330's count of items leaves it out (assumption 12). -/
def stallBeforeHalt (s : State) : Bool :=
  stallCycle s && decide (op s.exmem.instr ≠ encoding.opHalt)

end Sys2Proof.Machine
end

