-- ==== Sys2Proof/WellFormed.lean ====
section
/-! DEFINITION. What is checked of an instruction and of a launch before the machine runs. -/

namespace Sys2Proof

/-- Every `Instr` term is well formed: R107 and R110 admit every value of the 3-bit register fields and
of the 16-bit offset, and the operand types hold exactly those values. -/
def Instr.wellFormed : Instr → Bool
  | .add _ _ _ => true
  | .nor _ _ _ => true
  | .lw _ _ _ => true
  | .sw _ _ _ => true
  | .beq _ _ _ => true
  | .jalr _ _ => true
  | .halt => true
  | .noop => true

/-- Check of a launch: `IMAGE_LEN <= MEM_WORDS` (R6; R314 makes a longer image a load-time error). -/
def Launch.imageFits (l : Launch) : Bool := decide (l.imageLen ≤ l.memWords)

/-- Check of a launch: the bound `MEM_WORDS + 32767` on `pc` fits in 32 signed bits
(R35, R36, D6). -/
def Launch.pcFits (l : Launch) : Bool := decide (l.memWords + Config.maxBranch < 2 ^ 31)

/-- A launch is well formed when both checks pass. -/
def Launch.wellFormed (l : Launch) : Bool := l.imageFits && l.pcFits

end Sys2Proof
end

