-- ==== Sys2Proof/Safety.lean ====
section
/-! DEFINITION. What counts as a safe run: no fault recorded, under the launch premises of
spec/70_reset_and_hazards.md R312 and R315. -/

namespace Sys2Proof.Machine

/-- No fault is recorded (R315). -/
def noFault (s : State) : Bool :=
  match s.status with
  | .running => true
  | .halted => true
  | .faulted _ => false

/-- The run of `k` cycles from `s` ends with no fault recorded. -/
def safeRun (k : Nat) (s : State) : Bool :=
  match run k s with
  | .next t => noFault t
  | .fault _ => false
  | .refused _ => false

/-- `Reset` (R315): `s` is the reset state for `image`. -/
def isLaunch (image : List Word) (s : State) : Prop :=
  s = launchState s.launch.memWords s.launch.dataUninit image

/-- The states of the in-order execution from `s` (R323). -/
def reachedInOrder (s t : State) : Prop := ∃ k, runInOrder k s = .next t

/-- The instruction the in-order execution is at in `t`. -/
def currentInstr (t : State) : Instr := decode (t.imem.read t.pc.toNat)

/-- `NoJalrReached` (R312 d, R315): the execution meets no `JALR`. -/
def noJalrReached (s : State) : Prop :=
  ∀ t, reachedInOrder s t → t.status = .running → ∀ a b, currentInstr t ≠ .jalr a b

/-- `HaltPlacement` (R312 c, R315): a `HALT` that is reached stands no higher than
`MEM_WORDS - 4`. -/
def haltPlacement (s : State) : Prop :=
  ∀ t, reachedInOrder s t → t.status = .running → currentInstr t = .halt →
    t.pc.toNat + 4 ≤ s.launch.memWords

/-- `DataInImage` (R312 a, R315): no load that is reached reads a word that is outside the image and was
never stored, when `DATA_UNINIT = fault`. -/
def dataInImage (s : State) : Prop :=
  s.launch.dataUninit = .fault → ∀ t, reachedInOrder s t → ∀ a, t.status ≠ .faulted (.uninitDataRead a)

/-- The invariant of the machine that every step keeps: `reg[0] = 0` (R32, R51), both memories and the
store marks in canonical form, every listed address a valid one below `MEM_WORDS` (R70, R77). -/
structure Inv (s : State) : Prop where
  /-- R32, R51. -/
  reg0 : s.reg[0] = 0
  /-- Canonical instruction memory. -/
  imemWf : s.imem.wf
  /-- Canonical data memory. -/
  dmemWf : s.dmem.wf
  /-- Canonical store marks. -/
  marks : marksWf s.dwritten
  /-- Every stored word is at a valid address (R75, R77). -/
  markRange : ∀ a ∈ s.dwritten, a < s.launch.memWords
  /-- Data is listed only in the image or where a store put it (R50, R77). -/
  dmemFrom : ∀ c ∈ s.dmem, c.1 < s.launch.imageLen ∨ c.1 ∈ s.dwritten

/-- The ranges of the addresses in flight (R35, R36, R241): `pc` and a branch target stay in
`[-32767, MEM_WORDS + 32767]`, a fetched `pcPlus1` in `[0, MEM_WORDS]`, above 0 where a `BEQ` uses it, and
the offset is a signed 16-bit number. It is an invariant of a machine whose `MEM_WORDS` is in its bound
(assumption 13). -/
structure AddressRanges (s : State) : Prop where
  /-- The bound on `MEM_WORDS`. -/
  fits : s.launch.pcFits = true
  /-- R35. -/
  pcLow : -32767 ≤ s.pc.signed
  /-- R35. -/
  pcHigh : s.pc.signed ≤ (s.launch.memWords : Int) + 32767
  /-- R40. -/
  ifidLow : 0 ≤ s.ifid.pcPlus1.signed
  /-- R40. -/
  ifidHigh : s.ifid.pcPlus1.signed ≤ (s.launch.memWords : Int)
  /-- A fetched `BEQ` stands at an address from 0 up (R40, R74). -/
  ifidBranch : op s.ifid.instr = encoding.opBeq → 1 ≤ s.ifid.pcPlus1.signed
  /-- R41. -/
  idexLow : 0 ≤ s.idex.pcPlus1.signed
  /-- R41. -/
  idexHigh : s.idex.pcPlus1.signed ≤ (s.launch.memWords : Int)
  /-- A decoded `BEQ` stands at an address from 0 up (R41, R74). -/
  idexBranch : op s.idex.instr = encoding.opBeq → 1 ≤ s.idex.pcPlus1.signed
  /-- R41, R106. -/
  offsetLow : -32768 ≤ s.idex.offset.signed
  /-- R41, R106. -/
  offsetHigh : s.idex.offset.signed ≤ 32767
  /-- R42, R241. -/
  targetLow : -32767 ≤ s.exmem.branchTarget.signed
  /-- R42, R241. -/
  targetHigh : s.exmem.branchTarget.signed ≤ (s.launch.memWords : Int) + 32767

end Sys2Proof.Machine
end

