-- ==== Sys2Proof/Certificates/Slice0/Obligations.lean ====
section
/-! DEFINITION. The statements about the CORE for the provers, in the order of the rules of spec/. -/

open Sys2Proof Sys2Proof.Machine

/-! ### Encoding (spec/30_encoding.md)

The bit positions and opcode numbers are general knowledge and not in the source (spec/30_encoding.md,
D1, D2; assumption 3), so none of these statements counts as stated by a rule. -/

/-- The layout of assumption 3: words written out bit by bit from the formats of R102 decode to
their instructions. -/
def Obligations.WrittenWordsDecode : Prop :=
  decode 0b0000000_000_010_011_0000000000000_001#32 = .add 2 3 1 ∧
  decode 0b0000000_001_001_001_0000000000000_001#32 = .nor 1 1 1 ∧
  decode 0b0000000_010_000_001_1111111111111111#32 = .lw 0 1 0xFFFF ∧
  decode 0b0000000_011_000_011_0000000000001010#32 = .sw 0 3 10 ∧
  decode 0b0000000_100_000_000_1111111111111100#32 = .beq 0 0 0xFFFC ∧
  decode 0b0000000_101_001_010_0000000000000000#32 = .jalr 1 2 ∧
  decode 0b0000000_110_000_000_0000000000000000#32 = .halt ∧
  decode 0b0000000_111_000_000_0000000000000000#32 = .noop

/-- The layout of assumption 3: each field extractor of R101 reads exactly its bits. -/
def Obligations.FieldExtractorsReadTheirBits : Prop :=
  ∀ w : Word,
    (op w).toNat = w.toNat / 2 ^ 22 % 8 ∧ (regA w).toNat = w.toNat / 2 ^ 19 % 8 ∧
    (regB w).toNat = w.toNat / 2 ^ 16 % 8 ∧ (destReg w).toNat = w.toNat % 8 ∧
    (off16 w).toNat = w.toNat % 65536

/-- The layout of assumption 3: the word of each format of R103, with `k` in `[-32768, 32767]`. -/
def Obligations.EncodeWritesTheFormats : Prop :=
  ∀ (a b d : RegIdx) (k : Int), -32768 ≤ k → k ≤ 32767 →
    (encode (.add a b d)).toNat = 0 <<< 22 ||| a.toNat <<< 19 ||| b.toNat <<< 16 ||| d.toNat ∧
    (encode (.nor a b d)).toNat = 1 <<< 22 ||| a.toNat <<< 19 ||| b.toNat <<< 16 ||| d.toNat ∧
    (encode (.lw a b (BitVec.ofInt 16 k))).toNat =
      2 <<< 22 ||| a.toNat <<< 19 ||| b.toNat <<< 16 ||| (k % 65536).toNat ∧
    (encode (.sw a b (BitVec.ofInt 16 k))).toNat =
      3 <<< 22 ||| a.toNat <<< 19 ||| b.toNat <<< 16 ||| (k % 65536).toNat ∧
    (encode (.beq a b (BitVec.ofInt 16 k))).toNat =
      4 <<< 22 ||| a.toNat <<< 19 ||| b.toNat <<< 16 ||| (k % 65536).toNat ∧
    (encode (.jalr a b)).toNat = 5 <<< 22 ||| a.toNat <<< 19 ||| b.toNat <<< 16 ∧
    (encode .halt).toNat = 6 <<< 22 ∧ (encode .noop).toNat = 7 <<< 22

/-- The layout of assumption 3: decoding an encoded well-formed instruction gives it back, for every
instruction and every operand value. -/
def Obligations.DecodeAfterEncode : Prop :=
  ∀ i : Instr, i.wellFormed = true → decode (encode i) = i

/-- The layout of assumption 3, and R109: encoding what a word decodes to clears exactly the word's
unused bits, and a word decodes as the same word with them clear. Rests on the spec's own decision
D5 (92_eei_decisions.md, assumption 4). -/
def Obligations.UnusedBitsAreIgnored : Prop :=
  ∀ w : Word, encode (decode w) = w &&& usedBits (decode w) ∧
    decode (w &&& usedBits (decode w)) = decode w

/-- R8, R106: the immediate of a word is its low 16 bits less 65536 when bit 15 is set, else the low
16 bits unchanged, never scaled. -/
def Obligations.OffsetIsSignExtended : Prop :=
  ∀ w : Word, (offset w).signed =
    if w.getLsbD 15 then ((w.toNat % 65536 : Nat) : Int) - 65536 else ((w.toNat % 65536 : Nat) : Int)

/-! ### Reset and launch (spec/10_state.md R50, spec/70_reset_and_hazards.md R310) -/

/-- R50: the value of every state element after reset, for every image and every parameter. Rests on
the spec's own decisions D9, D10, D15, D16, D17 (92_eei_decisions.md, assumption 4). -/
def Obligations.LaunchHasTheResetValues : Prop :=
  ∀ (m : Nat) (u : DataUninit) (ws : List Word) (s : State), s = launchState m u ws →
    s.pc = 0 ∧ (∀ i : Fin 8, s.reg[i] = 0) ∧
    (∀ a, a < ws.length → s.imem.read a = ws.getD a 0 ∧ s.dmem.read a = ws.getD a 0) ∧
    (∀ a, ws.length ≤ a → s.imem.read a = 0 ∧ s.dmem.read a = 0) ∧
    (∀ a, a ∉ s.dwritten) ∧
    s.ifid = { instr := 0x01C00000, pcPlus1 := 0 } ∧
    s.idex = { instr := 0x01C00000, pcPlus1 := 0, readRegA := 0, readRegB := 0, offset := 0 } ∧
    s.exmem = { instr := 0x01C00000, branchTarget := 0, equalityFlag := false, aluResult := 0,
                storeData := 0 } ∧
    s.memwb = { instr := 0x01C00000, writeData := 0 } ∧
    s.wbend = { instr := 0x01C00000, writeData := 0 } ∧
    s.cycles = 0 ∧ s.status = .running ∧
    s.launch = { memWords := m, dataUninit := u, imageLen := ws.length }

/-- R6, R50: the model's `State.reset` is the launch of the empty image with the default parameters
(the empty image is the model's choice, assumption 7). Rests on the spec's own decisions D6, D9,
D10, D15, D16, D17 (92_eei_decisions.md, assumption 4). -/
def Obligations.ResetIsTheEmptyLaunch : Prop := State.reset = launchState 65536 .fault []

/-- R310: a rising edge with `rst = 1` puts every element in its reset value for the image, whatever
`status` was. Rests on the spec's own decisions D16, D21 (92_eei_decisions.md, assumption 4). -/
def Obligations.ResetEdgeRestoresTheLaunch : Prop :=
  ∀ (s : State) (ws : List Word), s.imem = Memory.ofImage 0 ws → s.launch.imageLen = ws.length →
    clockEdge true s = .next (launchState s.launch.memWords s.launch.dataUninit ws)

/-- The reset state and every launch satisfy the invariant `Inv`, and the address ranges where
`MEM_WORDS` is in its bound (the canonical forms and the bound are the model's choice, assumptions 1
and 13; `reg[0] = 0` and the ranges are inferences the spec marks [derived] in R51 and R36). -/
def Obligations.LaunchSatisfiesTheInvariant : Prop :=
  (Inv State.reset ∧ ∀ (m : Nat) (u : DataUninit) (ws : List Word), Inv (launchState m u ws)) ∧
  AddressRanges State.reset ∧
  ∀ (m : Nat) (u : DataUninit) (ws : List Word), (launchState m u ws).launch.pcFits = true →
    AddressRanges (launchState m u ws)

/-- Every step from any state that satisfies `Inv` (`reg[0] = 0`, canonical memories, stores only at
valid addresses) gives a state that satisfies it (the canonical forms are the model's choice,
assumption 1; `reg[0] = 0` is the inference the spec marks [derived] in R51). -/
def Obligations.StepKeepsTheInvariant : Prop :=
  ∀ s t : State, Inv s → step s = .next t → Inv t

/-- R35, R36, R241: every step from any state whose addresses in flight are in their ranges (`pc`, the
`pcPlus1` of IFID and IDEX, the offset, the branch target) gives a state where they are (the ranges
are inferences the spec marks [derived] in R36, the bound on `MEM_WORDS` is assumption 13). Rests on
the spec's own decision D23 (92_eei_decisions.md, assumption 4). -/
def Obligations.StepKeepsTheAddressRanges : Prop :=
  ∀ s t : State, AddressRanges s → step s = .next t → AddressRanges t

/-- R51: `reg[0] = 0` in every state reached by clock edges, with `rst` 0 or 1, from a launch (an
inference the spec marks [derived]). -/
def Obligations.RegisterZeroIsZeroWhenReached : Prop :=
  ∀ (m : Nat) (u : DataUninit) (ws : List Word) (es : List Bool) (t : State),
    clockEdges es (launchState m u ws) = .next t → t.reg[0] = 0

/-- R87: in every state reached by clock edges from a launch, a fetch at `a` answers `IMAGE[a]`, or
0 beyond the image, whatever was stored (an inference the spec marks [derived]). -/
def Obligations.FetchReadsTheImage : Prop :=
  ∀ (m : Nat) (u : DataUninit) (ws : List Word) (es : List Bool) (t : State),
    clockEdges es (launchState m u ws) = .next t →
    ∀ a : Word, 0 ≤ a.signed → a.signed < (m : Int) → imemRead t a = .ok (ws.getD a.toNat 0)

/-! ### The cycle (spec/40_pipeline.md) -/

/-- R110, R281: a step answers a next state from every state: nothing is refused, and a fault is a
state (the model's choice of outcome, assumption 6). Rests on the spec's own decision D17
(92_eei_decisions.md, assumption 4). -/
def Obligations.EveryStepAnswersNext : Prop := ∀ s : State, ∃ t, step s = .next t

/-- R131, R136: a step of a running CORE is `exec` of the instruction decoded from each pipeline
register, each in its own stage on the one snapshot, and the fetch of the word at `pc`; what the
step adds is the order of events, the stall and flush selection, and `cycles`. The `stage` field
that names the stage is the model's own (assumption 2), and so is `burst`, 0 wherever a step is one
clock edge (assumption 16; StepIsClockEdges says what a step is elsewhere). Rests on the spec's own
decision D12 (92_eei_decisions.md, assumption 4). -/
def Obligations.StepRunsTheDecodedInstructions : Prop :=
  ∀ s wb mm ex de : State, s.burst = 0 → s.status = .running →
    exec (decode s.memwb.instr) { s with stage := some .writeback } = .next wb →
    exec (decode s.exmem.instr) { s with stage := some .memory } = .next mm →
    exec (decode s.idex.instr) { s with stage := some .execute } = .next ex →
    exec (decode s.ifid.instr) { s with stage := some .decode } = .next de →
    (wb.status ≠ .running → step s = .next { s with status := wb.status }) ∧
    (wb.status = .running → mm.status ≠ .running → step s = .next { s with status := mm.status }) ∧
    (wb.status = .running → mm.status = .running →
      (flush s = true → step s = .next
        { s with pc := mm.pc, ifid := mm.ifid, idex := mm.idex, exmem := mm.exmem,
                 memwb := mm.memwb, dmem := mm.dmem, dwritten := mm.dwritten, reg := wb.reg,
                 wbend := wb.wbend, cycles := s.cycles + 1 }) ∧
      (flush s = false → stall s = true → step s = .next
        { s with idex := IdEx.bubble, exmem := ex.exmem,
                 memwb := mm.memwb, dmem := mm.dmem, dwritten := mm.dwritten, reg := wb.reg,
                 wbend := wb.wbend, cycles := s.cycles + 1 }) ∧
      (flush s = false → stall s = false → inRange s s.pc = true → step s = .next
        { s with pc := s.pc + 1, ifid := { instr := s.imem.read s.pc.toNat, pcPlus1 := s.pc + 1 },
                 idex := de.idex, exmem := ex.exmem,
                 memwb := mm.memwb, dmem := mm.dmem, dwritten := mm.dwritten, reg := wb.reg,
                 wbend := wb.wbend, cycles := s.cycles + 1 }) ∧
      (flush s = false → stall s = false → inRange s s.pc = false →
        step s = .next { s with status := .faulted (.fetchAddress s.pc) }))

/-- R130: where the model's own field `burst` is 0 a step is one clock edge, and with one more in
`burst` it takes one more edge before it; after every step `burst` is 0 (assumption 16). -/
def Obligations.StepIsClockEdges : Prop :=
  (∀ s t : State, step s = .next t → t.burst = 0) ∧
  ∀ s u : State, clockEdge false s = .next u →
    (s.burst = 0 → step s = .next u) ∧
    ∀ n, s.burst = n + 1 → u.burst = n + 1 ∧ step s = step { u with burst := n }

/-- The word that `withFetchWord` places is the one the next clock edge fetches into IFID, where it
decodes to the instruction of the table word; and the very next step fetches and runs the placed
instruction: it does to registers, data memory, store marks and `status` what `exec` of it alone
does, and fetches on from where it goes (assumptions 8, 9, 16). -/
def Obligations.PlacedWordIsFetchedAndRun : Prop :=
  ∀ s : State, s.imem.wf → s.status = .running → s.launch.pcFits = true → 0 ≤ s.pc.signed →
    (∀ nbits w, nbits ≤ 32 → s.pc.signed < (s.launch.memWords : Int) →
      ∃ t, clockEdge false (s.withFetchWord nbits w) = .next t ∧ t.status = .running ∧
        t.ifid.pcPlus1 = s.pc + 1 ∧ decodeTableWord nbits w = some (decode t.ifid.instr)) ∧
    ∀ i u, s.pc.signed + 5 ≤ (s.launch.memWords : Int) →
      exec i { s with stage := none } = .next u → (u.status = .running → inRange s u.pc = true) →
      decodeTableWord 32 (encode i).toNat = some i ∧
      ∃ t, step (s.withFetchWord 32 (encode i).toNat) = .next t ∧ t.reg = u.reg ∧
        t.dmem = u.dmem ∧ t.dwritten = u.dwritten ∧ t.status = u.status ∧ t.launch = u.launch ∧
        (u.status = .running →
          t.cycles = s.cycles + 5 ∧
          ((∃ a b k, i = .beq a b k ∧ x s a = x s b) →
            t.pc = u.pc + 1 ∧ t.ifid.pcPlus1 = u.pc + 1) ∧
          ((¬ ∃ a b k, i = .beq a b k ∧ x s a = x s b) →
            t.pc = u.pc + 4 ∧ t.ifid.pcPlus1 = u.pc + 4))

/-- R311, R323: from a drained pipeline, the instruction at `pc` followed by `NOOP`s has done, five
edges later, to registers, data memory, store marks and `status` exactly what `exec` of it alone
does; and where the CORE runs on, the fetch goes on where `exec` goes: a taken `BEQ` has the word at
its target in IFID after the fifth edge, and every other instruction the word five edges ahead of
its own (R311 and R323 are inferences the spec marks [derived]; "alone" is assumption 9). -/
def Obligations.DrainedPipelineRunsTheInstruction : Prop :=
  ∀ (i : Instr) (s u : State), s.status = .running → s.launch.pcFits = true →
    s.ifid = IfId.bubble → s.idex = IdEx.bubble → s.exmem = ExMem.bubble → s.memwb = MemWb.bubble →
    s.wbend = WbEnd.bubble → 0 ≤ s.pc.signed → s.pc.signed + 5 ≤ (s.launch.memWords : Int) →
    s.imem.read s.pc.toNat = encode i →
    (∀ k, 1 ≤ k → k ≤ 4 → decode (s.imem.read (s.pc.toNat + k)) = .noop) →
    exec i { s with stage := none } = .next u → (u.status = .running → inRange s u.pc = true) →
    ∃ t, edges 5 s = .next t ∧ t.reg = u.reg ∧ t.dmem = u.dmem ∧ t.dwritten = u.dwritten ∧
      t.status = u.status ∧
      (u.status = .running →
        ((∃ a b k, i = .beq a b k ∧ x s a = x s b) →
          t.pc = u.pc + 1 ∧
          t.ifid = { instr := s.imem.read u.pc.toNat, pcPlus1 := u.pc + 1 }) ∧
        ((¬ ∃ a b k, i = .beq a b k ∧ x s a = x s b) →
          u.pc = s.pc + 1 ∧ t.pc = u.pc + 4 ∧
          t.ifid = { instr := s.imem.read (s.pc.toNat + 4), pcPlus1 := u.pc + 4 }))

/-- R130 to R176: a clock edge is the cycle of the ten blocks, opcode by opcode and port by port, on
every state, and so is a step where the model's own field `burst` is 0 (assumption 16). Rests on the
spec's own decisions D21 (R130), D18 (R132), D12 (R136), D13 (R146), D8 (R140), D4 and D14 (R165) and
D11 (R171) (92_eei_decisions.md, assumption 4), and on the model's choices that a fault is a next
state (assumption 6) and what a `JALR` in MEMWB does (assumption 14). -/
def Obligations.StepIsTheBlockCycle : Prop :=
  ∀ s : State, clockEdge false s = .next (blockStep s) ∧ (s.burst = 0 → step s = .next (blockStep s))

/-- R132: a `HALT` in MEMWB comes first, then a fault of the memory stage, then a fault of the
fetch; no other stage faults. Rests on the spec's own decision D18 (92_eei_decisions.md, assumption
4). -/
def Obligations.EventsAreTakenOldestFirst : Prop :=
  ∀ s : State, s.status = .running →
    (decode s.memwb.instr = .halt → clockEdge false s = .next { s with status := .halted }) ∧
    (decode s.memwb.instr ≠ .halt →
      (∀ f, (memoryLoadStore s).memwbNext = .error f →
        clockEdge false s = .next { s with status := .faulted f }) ∧
      (∀ m, (memoryLoadStore s).memwbNext = .ok m →
        (∀ f, (fetchUnit s (stall s) (flush s) s.exmem.branchTarget).pcIfidNext = .error f →
          clockEdge false s = .next { s with status := .faulted f }) ∧
        (∀ p, (fetchUnit s (stall s) (flush s) s.exmem.branchTarget).pcIfidNext = .ok p →
          ∃ t, clockEdge false s = .next t ∧ t.status = .running)))

/-- R136: the next `pc`, IFID, IDEX and EXMEM under a flush, a stall without a flush, and neither;
MEMWB and WBEND always take the results of their stages. Rests on the spec's own decision D12
(92_eei_decisions.md, assumption 4). -/
def Obligations.StallAndFlushSelection : Prop :=
  ∀ s t : State, s.status = .running → clockEdge false s = .next t → t.status = .running →
    (flush s = true →
      t.pc = s.exmem.branchTarget ∧ t.ifid = IfId.bubble ∧ t.idex = IdEx.bubble ∧
      t.exmem = ExMem.bubble) ∧
    (flush s = false → stall s = true →
      t.pc = s.pc ∧ t.ifid = s.ifid ∧ t.idex = IdEx.bubble ∧
      t.exmem = executeAlu s.idex (forwardingMux s.idex s.exmem s.memwb s.wbend).1
        (forwardingMux s.idex s.exmem s.memwb s.wbend).2 false) ∧
    (flush s = false → stall s = false →
      t.pc = s.pc + 1 ∧ t.ifid = { instr := s.imem.read s.pc.toNat, pcPlus1 := s.pc + 1 } ∧
      t.idex = (decodeBlock s.ifid s.reg false false).idexNext ∧
      t.exmem = executeAlu s.idex (forwardingMux s.idex s.exmem s.memwb s.wbend).1
        (forwardingMux s.idex s.exmem s.memwb s.wbend).2 false) ∧
    (memoryLoadStore s).memwbNext = .ok t.memwb ∧
    t.wbend = { instr := s.memwb.instr, writeData := s.memwb.writeData }

/-- R145: exactly a load in IDEX and a reader of its destination in IFID are a hazard, register 0
included; the CORE then stalls for exactly one cycle: IDEX takes the bubble, `pc` and IFID hold
(unless a flush discards them). -/
def Obligations.LoadUseHazardRule : Prop :=
  (∀ e f : Word,
    ((∀ a r k, decode e ≠ .lw a r k) → hazard e f = false) ∧
    ∀ a r k, decode e = .lw a r k →
      (∀ b c d, decode f = .add b c d → hazard e f = (b == r || c == r)) ∧
      (∀ b c d, decode f = .nor b c d → hazard e f = (b == r || c == r)) ∧
      (∀ b c j, decode f = .lw b c j → hazard e f = (b == r)) ∧
      (∀ b c j, decode f = .sw b c j → hazard e f = (b == r || c == r)) ∧
      (∀ b c j, decode f = .beq b c j → hazard e f = (b == r || c == r)) ∧
      (∀ b c, decode f = .jalr b c → hazard e f = false) ∧
      (decode f = .halt → hazard e f = false) ∧ (decode f = .noop → hazard e f = false)) ∧
  ∀ s t : State, s.status = .running → clockEdge false s = .next t → t.status = .running →
    hazard s.idex.instr s.ifid.instr = true → flush s = false →
    t.idex = IdEx.bubble ∧ t.ifid = s.ifid ∧ t.pc = s.pc ∧
      hazard t.idex.instr t.ifid.instr = false

/-- R147: only a load in IDEX stalls, never for `HALT`, `NOOP` or `JALR` in IFID; EXMEM and later do
not matter; and a stall lasts exactly one cycle, after which IDEX holds the bubble (an inference the
spec marks [derived]). -/
def Obligations.AStallLastsOneCycle : Prop :=
  ∀ s : State,
    (stall s = true → (∃ a r k, decode s.idex.instr = .lw a r k) ∧ decode s.ifid.instr ≠ .halt ∧
      decode s.ifid.instr ≠ .noop ∧ ∀ a b, decode s.ifid.instr ≠ .jalr a b) ∧
    (∀ e m b, stall { s with exmem := e, memwb := m, wbend := b } = stall s) ∧
    ∀ t, s.status = .running → stall s = true → clockEdge false s = .next t → t.status = .running →
      t.idex = IdEx.bubble ∧ stall t = false

/-- The register `i` is the one the instruction `j` writes (R107, R160). -/
def Sys2Proof.Machine.writesTo (j : Instr) (i : RegIdx) : Prop :=
  (∃ a b, j = .add a b i) ∨ (∃ a b, j = .nor a b i) ∨ ∃ a k, j = .lw a i k

/-- R160: the forwarded value of a register: register 0 never, then EXMEM for `ADD` and `NOR` only,
then MEMWB, then WBEND, then the value decode read; and both operands are forwarded values. -/
def Obligations.ForwardingPrecedence : Prop :=
  ∀ (s : State) (i : RegIdx) (v : Word),
    (i = 0 → fwd s i v = v) ∧
    (i ≠ 0 →
      ((∃ a b, decode s.exmem.instr = .add a b i ∨ decode s.exmem.instr = .nor a b i) →
        fwd s i v = s.exmem.aluResult) ∧
      ((∀ a b, decode s.exmem.instr ≠ .add a b i ∧ decode s.exmem.instr ≠ .nor a b i) →
        (writesTo (decode s.memwb.instr) i → fwd s i v = s.memwb.writeData) ∧
        (¬ writesTo (decode s.memwb.instr) i →
          (writesTo (decode s.wbend.instr) i → fwd s i v = s.wbend.writeData) ∧
          (¬ writesTo (decode s.wbend.instr) i → fwd s i v = v)))) ∧
    operandA s i = fwd s i s.idex.readRegA ∧ operandB s i = fwd s i s.idex.readRegB

/-- R162: after any committed cycle, an operand that the instruction in IDEX reads is never waited
for from a load in EXMEM, and its forwarded value is the one the register has once the older
instructions in EXMEM and MEMWB are written back (an inference the spec marks [derived]). -/
def Obligations.ForwardedOperandsAreUpToDate : Prop :=
  ∀ s t : State, s.status = .running → clockEdge false s = .next t → t.status = .running →
    ∀ i : RegIdx,
      ((readsA (decode t.idex.instr) = true ∧ i = regA t.idex.instr) ∨
        (readsB (decode t.idex.instr) = true ∧ i = regB t.idex.instr)) →
      (i ≠ 0 → ∀ a k, decode t.exmem.instr ≠ .lw a i k) ∧
      ∀ v, ((readsA (decode t.idex.instr) = true ∧ i = regA t.idex.instr ∧ v = t.idex.readRegA) ∨
          (readsB (decode t.idex.instr) = true ∧ i = regB t.idex.instr ∧ v = t.idex.readRegB)) →
        fwd t i v =
          if i = 0 then 0
          else if aluDest (decode t.exmem.instr) = some i then t.exmem.aluResult
          else if wdest (decode t.memwb.instr) = some i then t.memwb.writeData
          else x t i

/-- R34: in a cycle without a stall or flush decode reads both registers of the word in IFID,
whatever the opcode, with their values before the edge; and nothing else reads the register file:
with other registers an edge gives the same state but for IDEX and the registers. -/
def Obligations.DecodeReadsBeforeTheEdge : Prop :=
  ∀ s t : State, clockEdge false s = .next t →
    (s.status = .running → t.status = .running → flush s = false → stall s = false →
      t.idex = { instr := s.ifid.instr, pcPlus1 := s.ifid.pcPlus1,
                 readRegA := x s (regA s.ifid.instr), readRegB := x s (regB s.ifid.instr),
                 offset := offset s.ifid.instr }) ∧
    ∀ r : Vector Word 8, ∃ t', clockEdge false { s with reg := r } = .next t' ∧
      t' = { t with idex := t'.idex, reg := t'.reg }

/-- R33: only the writeback stage writes a register, at most one a cycle: `ADD` and `NOR` their
`destReg`, `LW` its `regB`, register 0 never. -/
def Obligations.OnlyWritebackWritesRegisters : Prop :=
  ∀ s t : State, clockEdge false s = .next t →
    (s.status = .running → t.status = .running →
      (∀ a b d, decode s.memwb.instr = .add a b d ∨ decode s.memwb.instr = .nor a b d →
        ∀ i, x t i = if i = d ∧ i ≠ 0 then s.memwb.writeData else x s i) ∧
      (∀ a d k, decode s.memwb.instr = .lw a d k →
        ∀ i, x t i = if i = d ∧ i ≠ 0 then s.memwb.writeData else x s i) ∧
      (wdest (decode s.memwb.instr) = none → t.reg = s.reg)) ∧
    (s.status ≠ .running ∨ t.status ≠ .running → t.reg = s.reg)

/-- R77, and the inferences the spec marks [derived] in R71 and R84: a committed cycle changes data
memory only by the `SW` in EXMEM, at its address and nowhere else; a cycle that does not commit
changes nothing of it. -/
def Obligations.OnlyAStoreChangesDataMemory : Prop :=
  ∀ s t : State, s.dmem.wf → clockEdge false s = .next t →
    (s.status = .running → t.status = .running →
      (∀ a b k, decode s.exmem.instr = .sw a b k →
        (∀ ad, t.dmem.read ad =
          if ad = s.exmem.aluResult.toNat then s.exmem.storeData else s.dmem.read ad) ∧
        ∀ ad, ad ∈ t.dwritten ↔ ad = s.exmem.aluResult.toNat ∨ ad ∈ s.dwritten) ∧
      ((∀ a b k, decode s.exmem.instr ≠ .sw a b k) →
        t.dmem = s.dmem ∧ t.dwritten = s.dwritten)) ∧
    (s.status ≠ .running ∨ t.status ≠ .running → t.dmem = s.dmem ∧ t.dwritten = s.dwritten) ∧
    t.imem = s.imem ∧ t.launch = s.launch

/-- R84: a load that reaches the memory stage in the cycle after a store to the same address reads
the stored data, with no fault of its own (an inference the spec marks [derived]). -/
def Obligations.AStoreIsSeenByTheNextLoad : Prop :=
  ∀ (s t u : State) (a b c d : RegIdx) (j k : Off16), s.dmem.wf → s.status = .running →
    decode s.exmem.instr = .sw a b j → clockEdge false s = .next t → t.status = .running →
    decode t.exmem.instr = .lw c d k → t.exmem.aluResult = s.exmem.aluResult →
    clockEdge false t = .next u →
    (∃ p, u.status = .faulted (.fetchAddress p)) ∨
      (u.status = .running ∧ u.memwb.writeData = s.exmem.storeData)

/-! ### Memory access (spec/20_memory.md) -/

/-- R74: a fetch answers the word in range and faults outside, and a clock edge raises it only in
a cycle with neither a flush nor a stall. Rests on the spec's own decisions D8, D9
(92_eei_decisions.md, assumption 4). -/
def Obligations.FetchFaultsOnlyWhenUsed : Prop :=
  ∀ (s : State) (a : Word),
    (0 ≤ a.signed ∧ a.signed < (s.launch.memWords : Int) →
      imemRead s a = .ok (s.imem.read a.toNat)) ∧
    (a.signed < 0 ∨ (s.launch.memWords : Int) ≤ a.signed → imemRead s a = .error (.fetchAddress a)) ∧
    ∀ t, s.status = .running → clockEdge false s = .next t → t.status = .faulted (.fetchAddress a) →
      a = s.pc ∧ flush s = false ∧ stall s = false ∧
      (s.pc.signed < 0 ∨ (s.launch.memWords : Int) ≤ s.pc.signed)

/-- R75, R76, R77: the range check, the read with its two faults in their order, and the write with
its mark. Rests on the spec's own decisions D7, D10 (92_eei_decisions.md, assumption 4). -/
def Obligations.DataAccessRules : Prop :=
  ∀ (s : State) (v d : Word),
    (v.signed < 0 ∨ (s.launch.memWords : Int) ≤ v.signed →
      dataAddr s v = .error (.dataAddress v) ∧ dmemRead s v = .error (.dataAddress v) ∧
      dmemWrite s v d = .error (.dataAddress v)) ∧
    (0 ≤ v.signed ∧ v.signed < (s.launch.memWords : Int) →
      dataAddr s v = .ok v.toNat ∧
      (s.launch.imageLen ≤ v.toNat ∧ v.toNat ∉ s.dwritten ∧ s.launch.dataUninit = .fault →
        dmemRead s v = .error (.uninitDataRead v)) ∧
      (v.toNat < s.launch.imageLen ∨ v.toNat ∈ s.dwritten ∨ s.launch.dataUninit = .zero →
        dmemRead s v = .ok (s.dmem.read v.toNat)) ∧
      ∃ t, dmemWrite s v d = .ok t ∧
        t = { s with dmem := t.dmem, dwritten := t.dwritten } ∧
        (s.dmem.wf → ∀ ad, t.dmem.read ad = if ad = v.toNat then d else s.dmem.read ad) ∧
        ∀ ad, ad ∈ t.dwritten ↔ ad = v.toNat ∨ ad ∈ s.dwritten)

/-! ### The instructions, stage by stage (spec/41_alu.md to spec/44_halt_noop_jalr.md)

The lines "decode:", "execute:", "memory:" and "writeback:" of each rule. That `exec` is asked for one of
them by the field `stage` is the model's choice (assumption 2). -/

/-- R200: the four lines of `ADD`; every other element of the state is unchanged in each. Rests on
the spec's own decision D4 (92_eei_decisions.md, assumption 4). -/
def Obligations.AddStageByStage : Prop :=
  ∀ (a b d : RegIdx) (s : State),
    (s.stage = some .decode → exec (.add a b d) s = .next
      { s with idex := { instr := s.ifid.instr, pcPlus1 := s.ifid.pcPlus1, readRegA := x s a,
                         readRegB := x s b, offset := offset s.ifid.instr } }) ∧
    (s.stage = some .execute → exec (.add a b d) s = .next
      { s with exmem := { instr := s.idex.instr, branchTarget := 0, equalityFlag := false,
                          aluResult := operandA s a + operandB s b, storeData := 0 } }) ∧
    (s.stage = some .memory → exec (.add a b d) s = .next
      { s with memwb := { instr := s.exmem.instr, writeData := s.exmem.aluResult } }) ∧
    (s.stage = some .writeback → exec (.add a b d) s = .next
      { s with reg := if d = 0 then s.reg else s.reg.set d.toNat s.memwb.writeData d.isLt,
               wbend := { instr := s.memwb.instr, writeData := s.memwb.writeData } })

/-- R201: the four lines of `NOR`; every other element of the state is unchanged in each. -/
def Obligations.NorStageByStage : Prop :=
  ∀ (a b d : RegIdx) (s : State),
    (s.stage = some .decode → exec (.nor a b d) s = .next
      { s with idex := { instr := s.ifid.instr, pcPlus1 := s.ifid.pcPlus1, readRegA := x s a,
                         readRegB := x s b, offset := offset s.ifid.instr } }) ∧
    (s.stage = some .execute → exec (.nor a b d) s = .next
      { s with exmem := { instr := s.idex.instr, branchTarget := 0, equalityFlag := false,
                          aluResult := ~~~(operandA s a ||| operandB s b), storeData := 0 } }) ∧
    (s.stage = some .memory → exec (.nor a b d) s = .next
      { s with memwb := { instr := s.exmem.instr, writeData := s.exmem.aluResult } }) ∧
    (s.stage = some .writeback → exec (.nor a b d) s = .next
      { s with reg := if d = 0 then s.reg else s.reg.set d.toNat s.memwb.writeData d.isLt,
               wbend := { instr := s.memwb.instr, writeData := s.memwb.writeData } })

/-- R220: the four lines of `LW`, with its two faults in the memory stage; every other element of
the state is unchanged in each. -/
def Obligations.LoadStageByStage : Prop :=
  ∀ (a b : RegIdx) (k : Off16) (s : State),
    (s.stage = some .decode → exec (.lw a b k) s = .next
      { s with idex := { instr := s.ifid.instr, pcPlus1 := s.ifid.pcPlus1, readRegA := x s a,
                         readRegB := x s b, offset := k.signExtend 32 } }) ∧
    (s.stage = some .execute → exec (.lw a b k) s = .next
      { s with exmem := { instr := s.idex.instr, branchTarget := 0, equalityFlag := false,
                          aluResult := operandA s a + s.idex.offset, storeData := 0 } }) ∧
    (s.stage = some .memory → inRange s s.exmem.aluResult = true →
      readable s s.exmem.aluResult.toNat = true → exec (.lw a b k) s = .next
      { s with memwb := { instr := s.exmem.instr,
                          writeData := s.dmem.read s.exmem.aluResult.toNat } }) ∧
    (s.stage = some .memory → inRange s s.exmem.aluResult = true →
      readable s s.exmem.aluResult.toNat = false → exec (.lw a b k) s = .next
      { s with status := .faulted (.uninitDataRead s.exmem.aluResult) }) ∧
    (s.stage = some .memory → inRange s s.exmem.aluResult = false → exec (.lw a b k) s = .next
      { s with status := .faulted (.dataAddress s.exmem.aluResult) }) ∧
    (s.stage = some .writeback → exec (.lw a b k) s = .next
      { s with reg := if b = 0 then s.reg else s.reg.set b.toNat s.memwb.writeData b.isLt,
               wbend := { instr := s.memwb.instr, writeData := s.memwb.writeData } })

/-- R222: the lines of `SW`, with its fault in the memory stage; the stored word is the one at
EXMEM's address, and every other element of the state is unchanged in each. -/
def Obligations.StoreStageByStage : Prop :=
  ∀ (a b : RegIdx) (k : Off16) (s : State),
    (s.stage = some .decode → exec (.sw a b k) s = .next
      { s with idex := { instr := s.ifid.instr, pcPlus1 := s.ifid.pcPlus1, readRegA := x s a,
                         readRegB := x s b, offset := k.signExtend 32 } }) ∧
    (s.stage = some .execute → exec (.sw a b k) s = .next
      { s with exmem := { instr := s.idex.instr, branchTarget := 0, equalityFlag := false,
                          aluResult := operandA s a + s.idex.offset,
                          storeData := operandB s b } }) ∧
    (s.stage = some .memory → inRange s s.exmem.aluResult = true → exec (.sw a b k) s = .next
      { s with dmem := s.dmem.write s.exmem.aluResult.toNat s.exmem.storeData,
               dwritten := setMark s.dwritten s.exmem.aluResult.toNat,
               memwb := { instr := s.exmem.instr, writeData := 0 } }) ∧
    (s.stage = some .memory → inRange s s.exmem.aluResult = false → exec (.sw a b k) s = .next
      { s with status := .faulted (.dataAddress s.exmem.aluResult) }) ∧
    (s.stage = some .writeback → exec (.sw a b k) s = .next
      { s with wbend := { instr := s.memwb.instr, writeData := s.memwb.writeData } })

/-- R240: the lines of `BEQ`, taken and not taken; every other element of the state is unchanged in
each. -/
def Obligations.BranchStageByStage : Prop :=
  ∀ (a b : RegIdx) (k : Off16) (s : State),
    (s.stage = some .decode → exec (.beq a b k) s = .next
      { s with idex := { instr := s.ifid.instr, pcPlus1 := s.ifid.pcPlus1, readRegA := x s a,
                         readRegB := x s b, offset := k.signExtend 32 } }) ∧
    (s.stage = some .execute → exec (.beq a b k) s = .next
      { s with exmem := { instr := s.idex.instr, branchTarget := s.idex.pcPlus1 + s.idex.offset,
                          equalityFlag := decide (operandA s a = operandB s b),
                          aluResult := 0, storeData := 0 } }) ∧
    (s.stage = some .memory → s.exmem.equalityFlag = true → exec (.beq a b k) s = .next
      { s with pc := s.exmem.branchTarget, ifid := IfId.bubble, idex := IdEx.bubble,
               exmem := ExMem.bubble, memwb := { instr := s.exmem.instr, writeData := 0 } }) ∧
    (s.stage = some .memory → s.exmem.equalityFlag = false → exec (.beq a b k) s = .next
      { s with memwb := { instr := s.exmem.instr, writeData := 0 } }) ∧
    (s.stage = some .writeback → exec (.beq a b k) s = .next
      { s with wbend := { instr := s.memwb.instr, writeData := s.memwb.writeData } })

/-- R260: the lines of `HALT`: it passes three stages with no computation and, found in MEMWB, makes
`status` `Halted` and changes nothing else. -/
def Obligations.HaltStageByStage : Prop :=
  ∀ s : State,
    (s.stage = some .decode → exec .halt s = .next
      { s with idex := { instr := s.ifid.instr, pcPlus1 := s.ifid.pcPlus1,
                         readRegA := x s (regA s.ifid.instr), readRegB := x s (regB s.ifid.instr),
                         offset := offset s.ifid.instr } }) ∧
    (s.stage = some .execute → exec .halt s = .next
      { s with exmem := { instr := s.idex.instr, branchTarget := 0, equalityFlag := false,
                          aluResult := 0, storeData := 0 } }) ∧
    (s.stage = some .memory → exec .halt s = .next
      { s with memwb := { instr := s.exmem.instr, writeData := 0 } }) ∧
    (s.stage = some .writeback → exec .halt s = .next { s with status := .halted })

/-- R261: the lines of `NOOP`: it passes every stage with no computation and writes no register and
no memory. -/
def Obligations.NoopStageByStage : Prop :=
  ∀ s : State,
    (s.stage = some .decode → exec .noop s = .next
      { s with idex := { instr := s.ifid.instr, pcPlus1 := s.ifid.pcPlus1,
                         readRegA := x s (regA s.ifid.instr), readRegB := x s (regB s.ifid.instr),
                         offset := offset s.ifid.instr } }) ∧
    (s.stage = some .execute → exec .noop s = .next
      { s with exmem := { instr := s.idex.instr, branchTarget := 0, equalityFlag := false,
                          aluResult := 0, storeData := 0 } }) ∧
    (s.stage = some .memory → exec .noop s = .next
      { s with memwb := { instr := s.exmem.instr, writeData := 0 } }) ∧
    (s.stage = some .writeback → exec .noop s = .next
      { s with wbend := { instr := s.memwb.instr, writeData := s.memwb.writeData } })

/-- R262: the lines of `JALR`: it passes decode and execute with no computation and in the memory
stage takes the fault `UnimplementedJalr` with its word, committing nothing else. Rests on the
spec's own decision D11 (92_eei_decisions.md, assumption 4). -/
def Obligations.JalrStageByStage : Prop :=
  ∀ (a b : RegIdx) (s : State),
    (s.stage = some .decode → exec (.jalr a b) s = .next
      { s with idex := { instr := s.ifid.instr, pcPlus1 := s.ifid.pcPlus1, readRegA := x s a,
                         readRegB := x s b, offset := offset s.ifid.instr } }) ∧
    (s.stage = some .execute → exec (.jalr a b) s = .next
      { s with exmem := { instr := s.idex.instr, branchTarget := 0, equalityFlag := false,
                          aluResult := 0, storeData := 0 } }) ∧
    (s.stage = some .memory → exec (.jalr a b) s = .next
      { s with status := .faulted (.unimplementedJalr s.exmem.instr) })

/-! ### The whole instruction, alone and in order (R242, R323)

With `stage = none` `exec` does the whole instruction, which is the model's choice (assumptions 2 and 9). The
effect is the one of the rule of the instruction. -/

/-- R200, R201: `ADD` and `NOR` alone write the sum modulo 2^32 and the bitwise NOR to `destReg`,
nothing to register 0, and go on to the next address; everything else is unchanged. Rests on the
spec's own decision D4 (92_eei_decisions.md, assumption 4). -/
def Obligations.AluInstructionsAlone : Prop :=
  ∀ (a b d : RegIdx) (s : State), s.stage = none → s.status = .running →
    exec (.add a b d) s = .next
      { s with pc := s.pc + 1,
               reg := if d = 0 then s.reg else s.reg.set d.toNat (x s a + x s b) d.isLt } ∧
    exec (.nor a b d) s = .next
      { s with pc := s.pc + 1,
               reg := if d = 0 then s.reg else s.reg.set d.toNat (~~~(x s a ||| x s b)) d.isLt }

/-- R220, R221, R285: `LW` alone at `reg[regA]` plus the sign-extended offset: the word read goes to
`regB`, or one of its two faults is taken, the range check first; everything else is unchanged.
Rests on the spec's own decision D18 (92_eei_decisions.md, assumption 4). -/
def Obligations.LoadAlone : Prop :=
  ∀ (a b : RegIdx) (k : Off16) (s : State) (ad : Word), s.stage = none → s.status = .running →
    ad = x s a + k.signExtend 32 →
    (inRange s ad = true → readable s ad.toNat = true → exec (.lw a b k) s = .next
      { s with pc := s.pc + 1,
               reg := if b = 0 then s.reg else s.reg.set b.toNat (s.dmem.read ad.toNat) b.isLt }) ∧
    (inRange s ad = true → readable s ad.toNat = false → exec (.lw a b k) s = .next
      { s with status := .faulted (.uninitDataRead ad) }) ∧
    (inRange s ad = false → exec (.lw a b k) s = .next
      { s with status := .faulted (.dataAddress ad) })

/-- R221, R222: `SW` alone stores `reg[regB]` at `reg[regA]` plus the sign-extended offset, marks
the word, and every other word of data memory reads as before; or it faults. Everything else is
unchanged. -/
def Obligations.StoreAlone : Prop :=
  ∀ (a b : RegIdx) (k : Off16) (s : State) (ad : Word), s.stage = none → s.status = .running →
    s.dmem.wf → ad = x s a + k.signExtend 32 →
    (inRange s ad = true → ∃ t, exec (.sw a b k) s = .next t ∧
      t = { s with pc := s.pc + 1, dmem := t.dmem, dwritten := t.dwritten } ∧
      t.dmem.read ad.toNat = x s b ∧
      (∀ c, c ≠ ad.toNat → t.dmem.read c = s.dmem.read c) ∧
      ∀ c, c ∈ t.dwritten ↔ c = ad.toNat ∨ c ∈ s.dwritten) ∧
    (inRange s ad = false → exec (.sw a b k) s = .next
      { s with status := .faulted (.dataAddress ad) })

/-- R240: `BEQ` alone goes to its own address plus 1 plus the signed offset when the registers are
equal, else to the next address; everything else is unchanged. -/
def Obligations.BranchAlone : Prop :=
  ∀ (a b : RegIdx) (k : Off16) (s : State), s.stage = none → s.status = .running →
    (x s a = x s b → exec (.beq a b k) s = .next { s with pc := s.pc + 1 + k.signExtend 32 }) ∧
    (x s a ≠ x s b → exec (.beq a b k) s = .next { s with pc := s.pc + 1 })

/-- R260, R261, R262: `HALT` alone only makes `status` `Halted`, `NOOP` only goes on to the next
address, and `JALR` takes its fault with its word. Rests on the spec's own decision D11
(92_eei_decisions.md, assumption 4). -/
def Obligations.SystemInstructionsAlone : Prop :=
  ∀ (a b : RegIdx) (s : State), s.stage = none → s.status = .running →
    exec .halt s = .next { s with status := .halted } ∧
    exec .noop s = .next { s with pc := s.pc + 1 } ∧
    exec (.jalr a b) s = .next
      { s with status := .faulted (.unimplementedJalr (encode (.jalr a b))) }

/-- R35, R241: with the branch at a valid address `p`, the 32-bit target is the integer `p + 1 +
signed(off16)`, in `[p - 32767, p + 32768]`. Rests on the spec's own decision D23
(92_eei_decisions.md, assumption 4). -/
def Obligations.BranchTargetIsTheInteger : Prop :=
  ∀ (s : State) (p : Int) (k : Off16), s.launch.pcFits = true → 0 ≤ p →
    p < (s.launch.memWords : Int) → s.idex.pcPlus1.signed = p + 1 →
    s.idex.offset = k.signExtend 32 →
    (branchTarget s).signed = p + 1 + k.toInt ∧ p - 32767 ≤ (branchTarget s).signed ∧
    (branchTarget s).signed ≤ p + 32768

/-! ### Faults, halting, counters (spec/60_exceptions.md) -/

/-- R280: which condition raises which fault, with its code and recorded information, and no other
condition faults. Rests on the spec's own decisions D7, D8, D10, D11 (92_eei_decisions.md,
assumption 4). -/
def Obligations.FaultsAreRaisedAsTabled : Prop :=
  (∀ v : Word,
    (Fault.fetchAddress v).code = 1 ∧ (Fault.dataAddress v).code = 2 ∧
    (Fault.uninitDataRead v).code = 3 ∧ (Fault.unimplementedJalr v).code = 4 ∧
    (Fault.fetchAddress v).info = v ∧ (Fault.dataAddress v).info = v ∧
    (Fault.uninitDataRead v).info = v ∧ (Fault.unimplementedJalr v).info = v) ∧
  ∀ s t : State, s.status = .running → clockEdge false s = .next t → decode s.memwb.instr ≠ .halt →
    (∀ w, t.status = .faulted (.unimplementedJalr w) ↔
      (∃ a b, decode s.exmem.instr = .jalr a b) ∧ w = s.exmem.instr) ∧
    (∀ v, t.status = .faulted (.dataAddress v) ↔
      (∃ a b k, decode s.exmem.instr = .lw a b k ∨ decode s.exmem.instr = .sw a b k) ∧
      v = s.exmem.aluResult ∧ (v.signed < 0 ∨ (s.launch.memWords : Int) ≤ v.signed)) ∧
    (∀ v, t.status = .faulted (.uninitDataRead v) ↔
      (∃ a b k, decode s.exmem.instr = .lw a b k) ∧ v = s.exmem.aluResult ∧
      0 ≤ v.signed ∧ v.signed < (s.launch.memWords : Int) ∧ s.launch.dataUninit = .fault ∧
      s.launch.imageLen ≤ v.toNat ∧ v.toNat ∉ s.dwritten) ∧
    (∀ p, t.status = .faulted (.fetchAddress p) ↔
      (∃ m, (memoryLoadStore s).memwbNext = .ok m) ∧ flush s = false ∧ stall s = false ∧
      p = s.pc ∧ (p.signed < 0 ∨ (s.launch.memWords : Int) ≤ p.signed))

/-- R281: a fault commits nothing but `status`, it is final, and only reset leaves it. Rests on the
spec's own decision D17 (92_eei_decisions.md, assumption 4). -/
def Obligations.AFaultCommitsNothing : Prop :=
  ∀ (s t : State) (f : Fault), s.status = .running → clockEdge false s = .next t → t.status = .faulted f →
    t = { s with status := .faulted f } ∧ clockEdge false t = .next t ∧
    clockEdge true t = .next (restart t) ∧ (restart t).status = .running

/-- R295: `Halted` is entered exactly when a `HALT` is in MEMWB at the start of a cycle, every
element keeps its value, and nothing but reset wakes the CORE. -/
def Obligations.HaltedIsEnteredByHaltAndFinal : Prop :=
  ∀ s t : State, clockEdge false s = .next t →
    (s.status = .running → decode s.memwb.instr = .halt → t = { s with status := .halted }) ∧
    (s.status = .running → t.status = .halted →
      decode s.memwb.instr = .halt ∧ t = { s with status := .halted }) ∧
    (s.status = .halted → t = s ∧ clockEdge true s = .next (restart s) ∧
      (restart s).status = .running)

/-- R48, R291: `cycles` grows by 1, modulo 2^32, in every cycle that commits, and in no other edge.
Rests on the spec's own decision D15 (92_eei_decisions.md, assumption 4). -/
def Obligations.CyclesCountCommittedCycles : Prop :=
  ∀ s t : State, clockEdge false s = .next t →
    (s.status = .running ∧ t.status = .running → t.cycles = s.cycles + 1) ∧
    (s.status ≠ .running ∨ t.status ≠ .running → t.cycles = s.cycles)

/-- R38, R291: no instruction reads or writes `cycles`. Rests on the spec's own decision D19
(92_eei_decisions.md, assumption 4). -/
def Obligations.NoInstructionUsesCycles : Prop :=
  ∀ (i : Instr) (s t : State) (c : Word), exec i s = .next t →
    t.cycles = s.cycles ∧ exec i { s with cycles := c } = .next { t with cycles := c }

/-- The model's own field `stage` is neither read nor changed by a step (assumption 2). -/
def Obligations.StepIgnoresTheStageField : Prop :=
  ∀ (s t : State) (st : Option Stage), step s = .next t →
    t.stage = s.stage ∧ step { s with stage := st } = .next { t with stage := st }

/-- R176: the value written back in a cycle is forwarded from WBEND for one further cycle, unless a
younger instruction ahead in the order of R160 supplies the register; and nothing but the forwarding
into the execute stage reads WBEND: with another WBEND a clock edge gives the same state but for EXMEM,
or, where no cycle commits, but for WBEND itself. -/
def Obligations.WbendIsReadOnlyByForwarding : Prop :=
  ∀ (s t : State) (b : WbEnd), clockEdge false s = .next t →
    (s.status = .running → t.status = .running →
      t.wbend = { instr := s.memwb.instr, writeData := s.memwb.writeData } ∧
      ∀ (i : RegIdx) (v : Word), i ≠ 0 → writesTo (decode s.memwb.instr) i →
        (∀ a c, decode t.exmem.instr ≠ .add a c i ∧ decode t.exmem.instr ≠ .nor a c i) →
        ¬ writesTo (decode t.memwb.instr) i → fwd t i v = s.memwb.writeData) ∧
    ∃ t', clockEdge false { s with wbend := b } = .next t' ∧
      (s.status = .running ∧ t.status = .running → t' = { t with exmem := t'.exmem }) ∧
      (s.status ≠ .running ∨ t.status ≠ .running → t' = { t with wbend := b })

/-- R47 (an inference the spec marks [derived]): a Don't-Care field never matters: a state and the
same state with its Don't-Care fields zero step to states that agree but for Don't-Care fields.
Rests on the spec's own decision D14 (92_eei_decisions.md, assumption 4). -/
def Obligations.DontCareFieldsNeverMatter : Prop :=
  ∀ s t : State, step s = .next t →
    ∃ t', step (eraseDontCare s) = .next t' ∧ eraseDontCare t' = eraseDontCare t

/-! ### Whole runs (spec/10_state.md R36, spec/70_reset_and_hazards.md) -/

/-- R35, R36 (inferences the spec marks [derived]): in every run of a well-formed launch `pc` stays
in `[-32767, MEM_WORDS + 32767]`, and fetching past it never wraps. Rests on the spec's own decision
D23 (92_eei_decisions.md, assumption 4). -/
def Obligations.PcStaysInItsRange : Prop :=
  ∀ (m : Nat) (u : DataUninit) (ws : List Word) (n : Nat) (t : State),
    (launchState m u ws).launch.wellFormed = true → run n (launchState m u ws) = .next t →
    -32767 ≤ t.pc.signed ∧ t.pc.signed ≤ (m : Int) + 32767 ∧
    ∀ t', step t = .next t' → t'.pc = t.pc + 1 → t'.pc.signed = t.pc.signed + 1

/-- R323 (an inference the spec marks [derived]): sequential equivalence. When a launch halts, the
final registers and data memory are those of executing the program one instruction at a time, in
order, up to its first `HALT`. -/
def Obligations.SequentialEquivalence : Prop :=
  ∀ (m : Nat) (u : DataUninit) (ws : List Word) (n : Nat) (t : State),
    (launchState m u ws).launch.wellFormed = true → run n (launchState m u ws) = .next t →
    t.status = .halted →
    ∃ k v, runInOrder k (launchState m u ws) = .next v ∧ v.status = .halted ∧
      v.reg = t.reg ∧ v.dmem = t.dmem ∧ v.dwritten = t.dwritten

/-- R330 (an inference the spec marks [derived]), with `S` read as the stalls ahead of the `HALT`
(assumption 12): at `Halted`, `cycles = 4 + D + S + 3T`, where `D` instructions complete before the
`HALT` in order. -/
def Obligations.CyclesOfAHaltingRun : Prop :=
  ∀ (m : Nat) (u : DataUninit) (ws : List Word) (n d : Nat) (s t v h : State),
    s = launchState m u ws → s.launch.wellFormed = true → run n s = .next t → t.status = .halted →
    runInOrder d s = .next v → v.status = .running → inOrderStep v = .next h → h.status = .halted →
    t.cycles = BitVec.ofNat 32 (4 + d + countCycles stallBeforeHalt n s + 3 * countCycles flush n s)

/-- R330 (an inference the spec marks [derived]) to the letter, with `S` counting every stall
without a flush: it fails of a program whose `HALT` is followed by a load and a reader of its
destination (assumption 12). -/
def Obligations.CycleFormulaCountingEveryStall : Prop :=
  ∀ (m : Nat) (u : DataUninit) (ws : List Word) (n d : Nat) (s t v h : State),
    s = launchState m u ws → s.launch.wellFormed = true → run n s = .next t → t.status = .halted →
    runInOrder d s = .next v → v.status = .running → inOrderStep v = .next h → h.status = .halted →
    t.cycles = BitVec.ofNat 32 (4 + d + countCycles stallCycle n s + 3 * countCycles flush n s)

/-! ### The loader (spec/70_reset_and_hazards.md R314) -/

/-- A line of white space only, what R314 calls an empty line after trimming (the characters are the
model's choice, assumption 10). -/
def Sys2Proof.Machine.blankLine (l : List Char) : Prop := ∀ c ∈ l, c.isWhitespace = true

/-- R314: the load-time errors in their order, each with exit code 1, and the image in file order, for
a file written as a body that ends in a line that is not blank, followed by blank lines: every line
of the body has to parse, an empty one in the middle of it included, and the words of the body are
the image (that a file with no word at all loads the empty image is the model's choice,
assumption 10). Rests on the spec's own decision D22 (92_eei_decisions.md, assumption 4). -/
def Obligations.LoadErrorsAndImage : Prop :=
  (∀ e : LoadError, e.exitCode = 1) ∧ (∀ l, blankLine l → parseLine l = none) ∧
  ∀ m args : Nat,
    (args ≠ 1 → ∀ file, loadImage m args file = .error .usage) ∧
    loadImage m 1 none = .error .cannotOpen ∧
    ∀ body blanks : List (List Char), (∀ l ∈ blanks, blankLine l) →
      (body = [] ∨ ∃ front last, body = front ++ [last] ∧ ¬ blankLine last) →
      ((∃ l ∈ body, parseLine l = none) →
        loadImage m 1 (some (body ++ blanks)) = .error .badLine) ∧
      ∀ ws, body.map parseLine = ws.map some →
        (m < ws.length → loadImage m 1 (some (body ++ blanks)) = .error .imageTooLong) ∧
        (ws.length ≤ m → loadImage m 1 (some (body ++ blanks)) = .ok ws)

/-- R314: the hexadecimal digits are exactly 0 to 9, a to f and A to F, with the values 0 to 15; and a
line parses exactly when it is white space, an optional `0x` or `0X`, 1 to 8 hexadecimal digits and
white space, and the word is the number the digits write, the first digit the most significant
(white space is the model's choice of characters, assumption 10). Rests on the spec's own decision
D22 (92_eei_decisions.md, assumption 4). -/
def Obligations.LineGrammar : Prop :=
  (∀ (c : Char) (v : Nat), hexDigit c = some v ↔
    (48 ≤ c.toNat ∧ c.toNat ≤ 57 ∧ v = c.toNat - 48) ∨
    (97 ≤ c.toNat ∧ c.toNat ≤ 102 ∧ v = c.toNat - 97 + 10) ∨
    (65 ≤ c.toNat ∧ c.toNat ≤ 70 ∧ v = c.toNat - 65 + 10)) ∧
  ∀ (line : List Char) (w : Word), parseLine line = some w ↔
    ∃ (pre p ds post : List Char) (vs : List Nat), line = pre ++ p ++ ds ++ post ∧
      blankLine pre ∧ blankLine post ∧ (p = [] ∨ p = ['0', 'x'] ∨ p = ['0', 'X']) ∧
      1 ≤ ds.length ∧ ds.length ≤ 8 ∧ ds.map hexDigit = vs.map some ∧
      w = BitVec.ofNat 32 (vs.foldl (fun n d => 16 * n + d) 0)
end

