-- ==== Sys2Proof/Laws/Decode.lean ====
section
/-! SUPPORT. The opcode number of an instruction, and the decoder as a function of `op(w)`. -/

namespace Sys2Proof

/-- The opcode number of an instruction (R104). -/
def opNumber : Instr → BitVec 3
  | .add _ _ _ => encoding.opAdd
  | .nor _ _ _ => encoding.opNor
  | .lw _ _ _ => encoding.opLw
  | .sw _ _ _ => encoding.opSw
  | .beq _ _ _ => encoding.opBeq
  | .jalr _ _ => encoding.opJalr
  | .halt => encoding.opHalt
  | .noop => encoding.opNoop

/-- Every 3-bit value is an opcode number (R104, R110). -/
theorem op_cases (o : BitVec 3) :
    o = encoding.opAdd ∨ o = encoding.opNor ∨ o = encoding.opLw ∨ o = encoding.opSw ∨
    o = encoding.opBeq ∨ o = encoding.opJalr ∨ o = encoding.opHalt ∨ o = encoding.opNoop := by
  revert o; decide

theorem decode_add {w : Word} (h : op w = encoding.opAdd) :
    decode w = .add (regA w) (regB w) (destReg w) := by unfold decode; rw [if_pos h]

theorem decode_nor {w : Word} (h : op w = encoding.opNor) :
    decode w = .nor (regA w) (regB w) (destReg w) := by
  unfold decode; rw [if_neg (by rw [h]; decide), if_pos h]

theorem decode_lw {w : Word} (h : op w = encoding.opLw) :
    decode w = .lw (regA w) (regB w) (off16 w) := by
  unfold decode; rw [if_neg (by rw [h]; decide), if_neg (by rw [h]; decide), if_pos h]

theorem decode_sw {w : Word} (h : op w = encoding.opSw) :
    decode w = .sw (regA w) (regB w) (off16 w) := by
  unfold decode
  rw [if_neg (by rw [h]; decide), if_neg (by rw [h]; decide), if_neg (by rw [h]; decide), if_pos h]

theorem decode_beq {w : Word} (h : op w = encoding.opBeq) :
    decode w = .beq (regA w) (regB w) (off16 w) := by
  unfold decode
  rw [if_neg (by rw [h]; decide), if_neg (by rw [h]; decide), if_neg (by rw [h]; decide),
    if_neg (by rw [h]; decide), if_pos h]

theorem decode_jalr {w : Word} (h : op w = encoding.opJalr) :
    decode w = .jalr (regA w) (regB w) := by
  unfold decode
  rw [if_neg (by rw [h]; decide), if_neg (by rw [h]; decide), if_neg (by rw [h]; decide),
    if_neg (by rw [h]; decide), if_neg (by rw [h]; decide), if_pos h]

theorem decode_halt {w : Word} (h : op w = encoding.opHalt) : decode w = .halt := by
  unfold decode
  rw [if_neg (by rw [h]; decide), if_neg (by rw [h]; decide), if_neg (by rw [h]; decide),
    if_neg (by rw [h]; decide), if_neg (by rw [h]; decide), if_neg (by rw [h]; decide), if_pos h]

theorem decode_noop {w : Word} (h : op w = encoding.opNoop) : decode w = .noop := by
  unfold decode
  rw [if_neg (by rw [h]; decide), if_neg (by rw [h]; decide), if_neg (by rw [h]; decide),
    if_neg (by rw [h]; decide), if_neg (by rw [h]; decide), if_neg (by rw [h]; decide),
    if_neg (by rw [h]; decide)]

/-- The opcode number of the instruction a word decodes to is `op(w)`. -/
theorem opNumber_decode (w : Word) : opNumber (decode w) = op w := by
  rcases op_cases (op w) with h | h | h | h | h | h | h | h
  · rw [decode_add h]; exact h.symm
  · rw [decode_nor h]; exact h.symm
  · rw [decode_lw h]; exact h.symm
  · rw [decode_sw h]; exact h.symm
  · rw [decode_beq h]; exact h.symm
  · rw [decode_jalr h]; exact h.symm
  · rw [decode_halt h]; exact h.symm
  · rw [decode_noop h]; exact h.symm

end Sys2Proof
end

