-- ==== Sys2Proof/Laws/Memory.lean ====
section
/-! SUPPORT. The laws of the word memories and of the store marks: every operation keeps the canonical
form, and a read after a write. -/

namespace Sys2Proof.Machine

theorem Memory.mem_listed {c : Cell} {a : Nat} {v : Word} {m : Memory}
    (h : c ∈ Memory.listed a v m) : c = (a, v) ∨ c ∈ m := by
  unfold Memory.listed at h
  split at h
  · exact .inr h
  · simpa using h

/-- Every cell after a write is the one written or was there before. -/
theorem Memory.mem_write {c : Cell} {m : Memory} {a : Nat} {v : Word}
    (h : c ∈ m.write a v) : c = (a, v) ∨ c ∈ m := by
  induction m with
  | nil => exact Memory.mem_listed h
  | cons d m ih =>
    obtain ⟨b, u⟩ := d
    unfold Memory.write at h
    split at h
    · exact Memory.mem_listed h
    · split at h
      · exact (Memory.mem_listed h).imp id (List.mem_cons_of_mem _)
      · rcases List.mem_cons.1 h with rfl | h
        · exact .inr (by simp)
        · exact (ih h).imp id (List.mem_cons_of_mem _)

theorem Memory.wf_nil : Memory.wf [] := ⟨List.Pairwise.nil, fun _ h => nomatch h⟩

/-- Listing a cell below all others keeps the form. -/
theorem Memory.wf_listed {a : Nat} {v : Word} {m : Memory} (hm : m.wf) (h : ∀ c ∈ m, a < c.1) :
    (Memory.listed a v m).wf := by
  unfold Memory.listed
  split
  · exact hm
  · rename_i hv
    refine ⟨List.pairwise_cons.2 ⟨fun c hc => h c hc, hm.1⟩, ?_⟩
    intro c hc
    rcases List.mem_cons.1 hc with rfl | hc
    · exact hv
    · exact hm.2 c hc

theorem Memory.wf_tail {c : Cell} {m : Memory} (h : Memory.wf (c :: m)) : Memory.wf m :=
  ⟨(List.pairwise_cons.1 h.1).2, fun d hd => h.2 d (List.mem_cons_of_mem _ hd)⟩

/-- A write keeps the canonical form. -/
theorem Memory.wf_write {m : Memory} (hm : m.wf) (a : Nat) (v : Word) : (m.write a v).wf := by
  induction m with
  | nil => exact Memory.wf_listed Memory.wf_nil (by simp)
  | cons d m ih =>
    obtain ⟨b, u⟩ := d
    have hlt := (List.pairwise_cons.1 hm.1).1
    unfold Memory.write
    split
    · rename_i hab
      refine Memory.wf_listed hm ?_
      intro c hc
      rcases List.mem_cons.1 hc with rfl | hc
      · exact hab
      · exact lt_trans hab (hlt c hc)
    · split
      · rename_i hab
        subst hab
        exact Memory.wf_listed (Memory.wf_tail hm) hlt
      · rename_i h1 h2
        have hwf := ih (Memory.wf_tail hm)
        refine ⟨List.pairwise_cons.2 ⟨?_, hwf.1⟩, ?_⟩
        · intro c hc
          rcases Memory.mem_write hc with rfl | hc
          · show b < a
            omega
          · exact hlt c hc
        · intro c hc
          rcases List.mem_cons.1 hc with rfl | hc
          · exact hm.2 _ (by simp)
          · exact hwf.2 c hc

/-- An address below every listed one reads as unlisted. -/
theorem Memory.read_below {m : Memory} {a : Nat} (h : ∀ c ∈ m, a < c.1) : m.read a = unlistedWord := by
  induction m with
  | nil => rfl
  | cons d m ih =>
    obtain ⟨b, u⟩ := d
    have hb : a < b := h (b, u) (by simp)
    rw [Memory.read, if_neg (by omega)]
    exact ih fun c hc => h c (List.mem_cons_of_mem _ hc)

theorem Memory.read_listed {a b : Nat} {v : Word} {m : Memory} (h : ∀ c ∈ m, a < c.1) :
    (Memory.listed a v m).read b = if b = a then v else m.read b := by
  unfold Memory.listed
  by_cases hv : v = unlistedWord
  · rw [if_pos hv]
    by_cases hb : b = a
    · subst hb; rw [if_pos rfl, Memory.read_below h, hv]
    · rw [if_neg hb]
  · rw [if_neg hv]; rfl

/-- A read after a write to a canonical memory. -/
theorem Memory.read_write {m : Memory} (hm : m.wf) (a b : Nat) (v : Word) :
    (m.write a v).read b = if b = a then v else m.read b := by
  induction m with
  | nil => exact Memory.read_listed (by simp)
  | cons d m ih =>
    obtain ⟨c, u⟩ := d
    have hlt := (List.pairwise_cons.1 hm.1).1
    unfold Memory.write
    split
    · rename_i hac
      refine Memory.read_listed fun e he => ?_
      rcases List.mem_cons.1 he with rfl | he
      · exact hac
      · exact lt_trans hac (hlt e he)
    · split
      · rename_i hac
        subst hac
        rw [Memory.read_listed hlt]
        by_cases hb : b = a
        · simp [hb]
        · simp [Memory.read, hb]
      · rename_i h1 h2
        rw [Memory.read, Memory.read, ih (Memory.wf_tail hm)]
        by_cases hbc : b = c
        · rw [if_pos hbc, if_pos hbc, if_neg (by omega)]
        · rw [if_neg hbc, if_neg hbc]

/-- Placing words one after another keeps the canonical form. -/
theorem Memory.wf_place {m : Memory} (hm : m.wf) (a : Nat) (ws : List Word) : (m.place a ws).wf := by
  induction ws generalizing m a with
  | nil => exact hm
  | cons w ws ih => exact ih (Memory.wf_write hm a w) (a + 1)

/-- A read after words are placed one after another: the word of its place, else as before. -/
theorem Memory.read_place {m : Memory} (hm : m.wf) (a b : Nat) (ws : List Word) :
    (m.place a ws).read b = if h : a ≤ b ∧ b < a + ws.length then ws[b - a]'(by omega) else m.read b := by
  induction ws generalizing m a with
  | nil => rw [dif_neg (by simp)]; rfl
  | cons w ws ih =>
    rw [Memory.place, ih (Memory.wf_write hm a w), Memory.read_write hm]
    rcases Nat.lt_trichotomy b a with h | rfl | h
    · rw [dif_neg (by omega), dif_neg (by omega), if_neg (by omega)]
    · simp
    · by_cases hb : b < a + 1 + ws.length
      · have e : b - a = b - (a + 1) + 1 := by omega
        rw [dif_pos ⟨h, hb⟩, dif_pos ⟨by omega, by simp only [List.length_cons]; omega⟩]
        simp [e]
      · rw [dif_neg (by omega), dif_neg (by simp only [List.length_cons]; omega), if_neg (by omega)]

theorem Memory.mem_ofImage {ws : List Word} {a : Nat} {c : Cell} (h : c ∈ Memory.ofImage a ws) :
    a ≤ c.1 ∧ c.1 < a + ws.length := by
  induction ws generalizing a with
  | nil => simp [Memory.ofImage] at h
  | cons w ws ih =>
    rcases Memory.mem_listed h with rfl | h
    · simp
    · have := ih h
      simp only [List.length_cons]
      omega

/-- A loaded image is in canonical form. -/
theorem Memory.wf_ofImage (ws : List Word) (a : Nat) : (Memory.ofImage a ws).wf := by
  induction ws generalizing a with
  | nil => exact Memory.wf_nil
  | cons w ws ih =>
    refine Memory.wf_listed (ih _) fun c hc => ?_
    have := (Memory.mem_ofImage hc).1
    omega

/-- The image the restart keeps is in canonical form. -/
theorem Memory.wf_filter {m : Memory} (hm : m.wf) (p : Cell → Bool) : Memory.wf (m.filter p) :=
  ⟨hm.1.filter p, fun c hc => hm.2 c (List.mem_filter.1 hc).1⟩

theorem mem_setMark {m : List Nat} {a b : Nat} : b ∈ setMark m a ↔ b = a ∨ b ∈ m := by
  induction m with
  | nil => simp [setMark]
  | cons c m ih =>
    unfold setMark
    split
    · simp
    · split
      · rename_i h; subst h; simp
      · simp only [List.mem_cons, ih]; tauto

/-- Setting a mark keeps the form of `dwritten`. -/
theorem marksWf_setMark {m : List Nat} (hm : marksWf m) (a : Nat) : marksWf (setMark m a) := by
  induction m with
  | nil => simp [setMark]
  | cons c m ih =>
    have hlt := (List.pairwise_cons.1 hm).1
    unfold setMark
    split
    · rename_i h
      refine List.pairwise_cons.2 ⟨fun b hb => ?_, hm⟩
      rcases List.mem_cons.1 hb with rfl | hb
      · exact h
      · exact lt_trans h (hlt b hb)
    · split
      · exact hm
      · refine List.pairwise_cons.2 ⟨fun b hb => ?_, ih (List.pairwise_cons.1 hm).2⟩
        rcases mem_setMark.1 hb with rfl | hb
        · omega
        · exact hlt b hb

end Sys2Proof.Machine
end

