-- ==== Sys2Proof/Laws/State.lean ====
section
/-! SUPPORT. The small lemmas of the state: one per field per update, so that no later proof unfolds a
record update. -/

namespace Sys2Proof.Machine

/-! ### `raiseFault` -/

@[simp] theorem raiseFault_launch (s : State) (f : Fault) :
    (raiseFault s f).launch = s.launch := rfl
@[simp] theorem raiseFault_pc (s : State) (f : Fault) : (raiseFault s f).pc = s.pc := rfl
@[simp] theorem raiseFault_reg (s : State) (f : Fault) : (raiseFault s f).reg = s.reg := rfl
@[simp] theorem raiseFault_imem (s : State) (f : Fault) : (raiseFault s f).imem = s.imem := rfl
@[simp] theorem raiseFault_dmem (s : State) (f : Fault) : (raiseFault s f).dmem = s.dmem := rfl
@[simp] theorem raiseFault_dwritten (s : State) (f : Fault) :
    (raiseFault s f).dwritten = s.dwritten := rfl
@[simp] theorem raiseFault_ifid (s : State) (f : Fault) : (raiseFault s f).ifid = s.ifid := rfl
@[simp] theorem raiseFault_idex (s : State) (f : Fault) : (raiseFault s f).idex = s.idex := rfl
@[simp] theorem raiseFault_exmem (s : State) (f : Fault) : (raiseFault s f).exmem = s.exmem := rfl
@[simp] theorem raiseFault_memwb (s : State) (f : Fault) : (raiseFault s f).memwb = s.memwb := rfl
@[simp] theorem raiseFault_wbend (s : State) (f : Fault) : (raiseFault s f).wbend = s.wbend := rfl
@[simp] theorem raiseFault_cycles (s : State) (f : Fault) :
    (raiseFault s f).cycles = s.cycles := rfl
@[simp] theorem raiseFault_status (s : State) (f : Fault) :
    (raiseFault s f).status = .faulted f := rfl
@[simp] theorem raiseFault_stage (s : State) (f : Fault) : (raiseFault s f).stage = s.stage := rfl
@[simp] theorem raiseFault_burst (s : State) (f : Fault) : (raiseFault s f).burst = s.burst := rfl

/-! ### `decodeStage` -/

@[simp] theorem decodeStage_launch (s : State) (a b : RegIdx) (k : Word) :
    (decodeStage s a b k).launch = s.launch := rfl
@[simp] theorem decodeStage_pc (s : State) (a b : RegIdx) (k : Word) :
    (decodeStage s a b k).pc = s.pc := rfl
@[simp] theorem decodeStage_reg (s : State) (a b : RegIdx) (k : Word) :
    (decodeStage s a b k).reg = s.reg := rfl
@[simp] theorem decodeStage_imem (s : State) (a b : RegIdx) (k : Word) :
    (decodeStage s a b k).imem = s.imem := rfl
@[simp] theorem decodeStage_dmem (s : State) (a b : RegIdx) (k : Word) :
    (decodeStage s a b k).dmem = s.dmem := rfl
@[simp] theorem decodeStage_dwritten (s : State) (a b : RegIdx) (k : Word) :
    (decodeStage s a b k).dwritten = s.dwritten := rfl
@[simp] theorem decodeStage_ifid (s : State) (a b : RegIdx) (k : Word) :
    (decodeStage s a b k).ifid = s.ifid := rfl
@[simp] theorem decodeStage_idex (s : State) (a b : RegIdx) (k : Word) :
    (decodeStage s a b k).idex = { instr := s.ifid.instr, pcPlus1 := s.ifid.pcPlus1, readRegA := x s a, readRegB := x s b, offset := k } := rfl
@[simp] theorem decodeStage_exmem (s : State) (a b : RegIdx) (k : Word) :
    (decodeStage s a b k).exmem = s.exmem := rfl
@[simp] theorem decodeStage_memwb (s : State) (a b : RegIdx) (k : Word) :
    (decodeStage s a b k).memwb = s.memwb := rfl
@[simp] theorem decodeStage_wbend (s : State) (a b : RegIdx) (k : Word) :
    (decodeStage s a b k).wbend = s.wbend := rfl
@[simp] theorem decodeStage_cycles (s : State) (a b : RegIdx) (k : Word) :
    (decodeStage s a b k).cycles = s.cycles := rfl
@[simp] theorem decodeStage_status (s : State) (a b : RegIdx) (k : Word) :
    (decodeStage s a b k).status = s.status := rfl
@[simp] theorem decodeStage_stage (s : State) (a b : RegIdx) (k : Word) :
    (decodeStage s a b k).stage = s.stage := rfl
@[simp] theorem decodeStage_burst (s : State) (a b : RegIdx) (k : Word) :
    (decodeStage s a b k).burst = s.burst := rfl

/-! ### `executeStage` -/

@[simp] theorem executeStage_launch (s : State) (r : ExMem) :
    (executeStage s r).launch = s.launch := rfl
@[simp] theorem executeStage_pc (s : State) (r : ExMem) : (executeStage s r).pc = s.pc := rfl
@[simp] theorem executeStage_reg (s : State) (r : ExMem) : (executeStage s r).reg = s.reg := rfl
@[simp] theorem executeStage_imem (s : State) (r : ExMem) : (executeStage s r).imem = s.imem := rfl
@[simp] theorem executeStage_dmem (s : State) (r : ExMem) : (executeStage s r).dmem = s.dmem := rfl
@[simp] theorem executeStage_dwritten (s : State) (r : ExMem) :
    (executeStage s r).dwritten = s.dwritten := rfl
@[simp] theorem executeStage_ifid (s : State) (r : ExMem) : (executeStage s r).ifid = s.ifid := rfl
@[simp] theorem executeStage_idex (s : State) (r : ExMem) : (executeStage s r).idex = s.idex := rfl
@[simp] theorem executeStage_exmem (s : State) (r : ExMem) : (executeStage s r).exmem = r := rfl
@[simp] theorem executeStage_memwb (s : State) (r : ExMem) :
    (executeStage s r).memwb = s.memwb := rfl
@[simp] theorem executeStage_wbend (s : State) (r : ExMem) :
    (executeStage s r).wbend = s.wbend := rfl
@[simp] theorem executeStage_cycles (s : State) (r : ExMem) :
    (executeStage s r).cycles = s.cycles := rfl
@[simp] theorem executeStage_status (s : State) (r : ExMem) :
    (executeStage s r).status = s.status := rfl
@[simp] theorem executeStage_stage (s : State) (r : ExMem) :
    (executeStage s r).stage = s.stage := rfl
@[simp] theorem executeStage_burst (s : State) (r : ExMem) :
    (executeStage s r).burst = s.burst := rfl

/-! ### `memoryStage` -/

@[simp] theorem memoryStage_launch (s : State) (v : Word) :
    (memoryStage s v).launch = s.launch := rfl
@[simp] theorem memoryStage_pc (s : State) (v : Word) : (memoryStage s v).pc = s.pc := rfl
@[simp] theorem memoryStage_reg (s : State) (v : Word) : (memoryStage s v).reg = s.reg := rfl
@[simp] theorem memoryStage_imem (s : State) (v : Word) : (memoryStage s v).imem = s.imem := rfl
@[simp] theorem memoryStage_dmem (s : State) (v : Word) : (memoryStage s v).dmem = s.dmem := rfl
@[simp] theorem memoryStage_dwritten (s : State) (v : Word) :
    (memoryStage s v).dwritten = s.dwritten := rfl
@[simp] theorem memoryStage_ifid (s : State) (v : Word) : (memoryStage s v).ifid = s.ifid := rfl
@[simp] theorem memoryStage_idex (s : State) (v : Word) : (memoryStage s v).idex = s.idex := rfl
@[simp] theorem memoryStage_exmem (s : State) (v : Word) : (memoryStage s v).exmem = s.exmem := rfl
@[simp] theorem memoryStage_memwb (s : State) (v : Word) :
    (memoryStage s v).memwb = { instr := s.exmem.instr, writeData := v } := rfl
@[simp] theorem memoryStage_wbend (s : State) (v : Word) : (memoryStage s v).wbend = s.wbend := rfl
@[simp] theorem memoryStage_cycles (s : State) (v : Word) :
    (memoryStage s v).cycles = s.cycles := rfl
@[simp] theorem memoryStage_status (s : State) (v : Word) :
    (memoryStage s v).status = s.status := rfl
@[simp] theorem memoryStage_stage (s : State) (v : Word) : (memoryStage s v).stage = s.stage := rfl
@[simp] theorem memoryStage_burst (s : State) (v : Word) : (memoryStage s v).burst = s.burst := rfl

/-! ### `retire` -/

@[simp] theorem retire_launch (s : State) : (retire s).launch = s.launch := rfl
@[simp] theorem retire_pc (s : State) : (retire s).pc = s.pc := rfl
@[simp] theorem retire_reg (s : State) : (retire s).reg = s.reg := rfl
@[simp] theorem retire_imem (s : State) : (retire s).imem = s.imem := rfl
@[simp] theorem retire_dmem (s : State) : (retire s).dmem = s.dmem := rfl
@[simp] theorem retire_dwritten (s : State) : (retire s).dwritten = s.dwritten := rfl
@[simp] theorem retire_ifid (s : State) : (retire s).ifid = s.ifid := rfl
@[simp] theorem retire_idex (s : State) : (retire s).idex = s.idex := rfl
@[simp] theorem retire_exmem (s : State) : (retire s).exmem = s.exmem := rfl
@[simp] theorem retire_memwb (s : State) : (retire s).memwb = s.memwb := rfl
@[simp] theorem retire_wbend (s : State) :
    (retire s).wbend = { instr := s.memwb.instr, writeData := s.memwb.writeData } := rfl
@[simp] theorem retire_cycles (s : State) : (retire s).cycles = s.cycles := rfl
@[simp] theorem retire_status (s : State) : (retire s).status = s.status := rfl
@[simp] theorem retire_stage (s : State) : (retire s).stage = s.stage := rfl
@[simp] theorem retire_burst (s : State) : (retire s).burst = s.burst := rfl

/-! ### `redirect` -/

@[simp] theorem redirect_launch (s : State) (p : Word) : (redirect s p).launch = s.launch := rfl
@[simp] theorem redirect_pc (s : State) (p : Word) : (redirect s p).pc = p := rfl
@[simp] theorem redirect_reg (s : State) (p : Word) : (redirect s p).reg = s.reg := rfl
@[simp] theorem redirect_imem (s : State) (p : Word) : (redirect s p).imem = s.imem := rfl
@[simp] theorem redirect_dmem (s : State) (p : Word) : (redirect s p).dmem = s.dmem := rfl
@[simp] theorem redirect_dwritten (s : State) (p : Word) :
    (redirect s p).dwritten = s.dwritten := rfl
@[simp] theorem redirect_ifid (s : State) (p : Word) : (redirect s p).ifid = IfId.bubble := rfl
@[simp] theorem redirect_idex (s : State) (p : Word) : (redirect s p).idex = IdEx.bubble := rfl
@[simp] theorem redirect_exmem (s : State) (p : Word) : (redirect s p).exmem = ExMem.bubble := rfl
@[simp] theorem redirect_memwb (s : State) (p : Word) : (redirect s p).memwb = s.memwb := rfl
@[simp] theorem redirect_wbend (s : State) (p : Word) : (redirect s p).wbend = s.wbend := rfl
@[simp] theorem redirect_cycles (s : State) (p : Word) : (redirect s p).cycles = s.cycles := rfl
@[simp] theorem redirect_status (s : State) (p : Word) : (redirect s p).status = s.status := rfl
@[simp] theorem redirect_stage (s : State) (p : Word) : (redirect s p).stage = s.stage := rfl
@[simp] theorem redirect_burst (s : State) (p : Word) : (redirect s p).burst = s.burst := rfl

/-! ### `alone` -/

@[simp] theorem alone_launch (s : State) (w : Word) : (alone s w).launch = s.launch := rfl
@[simp] theorem alone_pc (s : State) (w : Word) : (alone s w).pc = s.pc + 1 := rfl
@[simp] theorem alone_reg (s : State) (w : Word) : (alone s w).reg = s.reg := rfl
@[simp] theorem alone_imem (s : State) (w : Word) : (alone s w).imem = s.imem := rfl
@[simp] theorem alone_dmem (s : State) (w : Word) : (alone s w).dmem = s.dmem := rfl
@[simp] theorem alone_dwritten (s : State) (w : Word) : (alone s w).dwritten = s.dwritten := rfl
@[simp] theorem alone_ifid (s : State) (w : Word) :
    (alone s w).ifid = { instr := w, pcPlus1 := s.pc + 1 } := rfl
@[simp] theorem alone_idex (s : State) (w : Word) : (alone s w).idex = IdEx.bubble := rfl
@[simp] theorem alone_exmem (s : State) (w : Word) : (alone s w).exmem = ExMem.bubble := rfl
@[simp] theorem alone_memwb (s : State) (w : Word) : (alone s w).memwb = MemWb.bubble := rfl
@[simp] theorem alone_wbend (s : State) (w : Word) : (alone s w).wbend = WbEnd.bubble := rfl
@[simp] theorem alone_cycles (s : State) (w : Word) : (alone s w).cycles = s.cycles := rfl
@[simp] theorem alone_status (s : State) (w : Word) : (alone s w).status = s.status := rfl
@[simp] theorem alone_stage (s : State) (w : Word) : (alone s w).stage = s.stage := rfl
@[simp] theorem alone_burst (s : State) (w : Word) : (alone s w).burst = s.burst := rfl

/-! ### `loadFetchWord` -/

@[simp] theorem loadFetchWord_launch (s : State) (w : Word) :
    (loadFetchWord s w).launch = s.launch := rfl
@[simp] theorem loadFetchWord_pc (s : State) (w : Word) : (loadFetchWord s w).pc = s.pc := rfl
@[simp] theorem loadFetchWord_reg (s : State) (w : Word) : (loadFetchWord s w).reg = s.reg := rfl
@[simp] theorem loadFetchWord_imem (s : State) (w : Word) :
    (loadFetchWord s w).imem = s.imem.place s.pc.toNat (w :: List.replicate drainEdges noopWord) := rfl
@[simp] theorem loadFetchWord_dmem (s : State) (w : Word) : (loadFetchWord s w).dmem = s.dmem := rfl
@[simp] theorem loadFetchWord_dwritten (s : State) (w : Word) :
    (loadFetchWord s w).dwritten = s.dwritten := rfl
@[simp] theorem loadFetchWord_ifid (s : State) (w : Word) : (loadFetchWord s w).ifid = IfId.bubble := rfl
@[simp] theorem loadFetchWord_idex (s : State) (w : Word) : (loadFetchWord s w).idex = IdEx.bubble := rfl
@[simp] theorem loadFetchWord_exmem (s : State) (w : Word) :
    (loadFetchWord s w).exmem = ExMem.bubble := rfl
@[simp] theorem loadFetchWord_memwb (s : State) (w : Word) :
    (loadFetchWord s w).memwb = MemWb.bubble := rfl
@[simp] theorem loadFetchWord_wbend (s : State) (w : Word) :
    (loadFetchWord s w).wbend = WbEnd.bubble := rfl
@[simp] theorem loadFetchWord_cycles (s : State) (w : Word) :
    (loadFetchWord s w).cycles = s.cycles := rfl
@[simp] theorem loadFetchWord_status (s : State) (w : Word) :
    (loadFetchWord s w).status = s.status := rfl
@[simp] theorem loadFetchWord_stage (s : State) (w : Word) :
    (loadFetchWord s w).stage = s.stage := rfl
@[simp] theorem loadFetchWord_burst (s : State) (w : Word) :
    (loadFetchWord s w).burst = drainEdges := rfl

/-! ### `writeReg` and `writebackStage` -/

@[simp] theorem writeReg_launch (s : State) (i : RegIdx) (v : Word) : (writeReg s i v).launch = s.launch := by
  unfold writeReg; split <;> rfl
@[simp] theorem writeReg_pc (s : State) (i : RegIdx) (v : Word) : (writeReg s i v).pc = s.pc := by
  unfold writeReg; split <;> rfl
@[simp] theorem writeReg_imem (s : State) (i : RegIdx) (v : Word) : (writeReg s i v).imem = s.imem := by
  unfold writeReg; split <;> rfl
@[simp] theorem writeReg_dmem (s : State) (i : RegIdx) (v : Word) : (writeReg s i v).dmem = s.dmem := by
  unfold writeReg; split <;> rfl
@[simp] theorem writeReg_dwritten (s : State) (i : RegIdx) (v : Word) : (writeReg s i v).dwritten = s.dwritten := by
  unfold writeReg; split <;> rfl
@[simp] theorem writeReg_ifid (s : State) (i : RegIdx) (v : Word) : (writeReg s i v).ifid = s.ifid := by
  unfold writeReg; split <;> rfl
@[simp] theorem writeReg_idex (s : State) (i : RegIdx) (v : Word) : (writeReg s i v).idex = s.idex := by
  unfold writeReg; split <;> rfl
@[simp] theorem writeReg_exmem (s : State) (i : RegIdx) (v : Word) : (writeReg s i v).exmem = s.exmem := by
  unfold writeReg; split <;> rfl
@[simp] theorem writeReg_memwb (s : State) (i : RegIdx) (v : Word) : (writeReg s i v).memwb = s.memwb := by
  unfold writeReg; split <;> rfl
@[simp] theorem writeReg_wbend (s : State) (i : RegIdx) (v : Word) : (writeReg s i v).wbend = s.wbend := by
  unfold writeReg; split <;> rfl
@[simp] theorem writeReg_cycles (s : State) (i : RegIdx) (v : Word) : (writeReg s i v).cycles = s.cycles := by
  unfold writeReg; split <;> rfl
@[simp] theorem writeReg_status (s : State) (i : RegIdx) (v : Word) : (writeReg s i v).status = s.status := by
  unfold writeReg; split <;> rfl
@[simp] theorem writeReg_stage (s : State) (i : RegIdx) (v : Word) : (writeReg s i v).stage = s.stage := by
  unfold writeReg; split <;> rfl
@[simp] theorem writeReg_burst (s : State) (i : RegIdx) (v : Word) : (writeReg s i v).burst = s.burst := by
  unfold writeReg; split <;> rfl

/-- The registers after a write through the write port (R155). -/
theorem writeReg_reg (s : State) (i : RegIdx) (v : Word) :
    (writeReg s i v).reg = if i = 0 then s.reg else s.reg.set i.toNat v i.isLt := by
  unfold writeReg; split <;> rfl

@[simp] theorem writebackStage_launch (s : State) (d : RegIdx) : (writebackStage s d).launch = s.launch := by
  simp [writebackStage]
@[simp] theorem writebackStage_pc (s : State) (d : RegIdx) : (writebackStage s d).pc = s.pc := by
  simp [writebackStage]
@[simp] theorem writebackStage_reg (s : State) (d : RegIdx) :
    (writebackStage s d).reg = (writeReg s d s.memwb.writeData).reg := rfl
@[simp] theorem writebackStage_imem (s : State) (d : RegIdx) : (writebackStage s d).imem = s.imem := by
  simp [writebackStage]
@[simp] theorem writebackStage_dmem (s : State) (d : RegIdx) : (writebackStage s d).dmem = s.dmem := by
  simp [writebackStage]
@[simp] theorem writebackStage_dwritten (s : State) (d : RegIdx) : (writebackStage s d).dwritten = s.dwritten := by
  simp [writebackStage]
@[simp] theorem writebackStage_ifid (s : State) (d : RegIdx) : (writebackStage s d).ifid = s.ifid := by
  simp [writebackStage]
@[simp] theorem writebackStage_idex (s : State) (d : RegIdx) : (writebackStage s d).idex = s.idex := by
  simp [writebackStage]
@[simp] theorem writebackStage_exmem (s : State) (d : RegIdx) : (writebackStage s d).exmem = s.exmem := by
  simp [writebackStage]
@[simp] theorem writebackStage_memwb (s : State) (d : RegIdx) : (writebackStage s d).memwb = s.memwb := by
  simp [writebackStage]
@[simp] theorem writebackStage_wbend (s : State) (d : RegIdx) :
    (writebackStage s d).wbend = { instr := s.memwb.instr, writeData := s.memwb.writeData } := by
  simp [writebackStage]
@[simp] theorem writebackStage_cycles (s : State) (d : RegIdx) : (writebackStage s d).cycles = s.cycles := by
  simp [writebackStage]
@[simp] theorem writebackStage_status (s : State) (d : RegIdx) : (writebackStage s d).status = s.status := by
  simp [writebackStage]
@[simp] theorem writebackStage_stage (s : State) (d : RegIdx) : (writebackStage s d).stage = s.stage := by
  simp [writebackStage]
@[simp] theorem writebackStage_burst (s : State) (d : RegIdx) : (writebackStage s d).burst = s.burst := by
  simp [writebackStage]

/-! ### `restart` and `launchState` -/

@[simp] theorem restart_launch (s : State) : (restart s).launch = s.launch := rfl
@[simp] theorem restart_pc (s : State) : (restart s).pc = 0 := rfl
@[simp] theorem restart_reg (s : State) : (restart s).reg = Vector.replicate 8 0 := rfl
@[simp] theorem restart_imem (s : State) : (restart s).imem = imageCells s := rfl
@[simp] theorem restart_dmem (s : State) : (restart s).dmem = imageCells s := rfl
@[simp] theorem restart_dwritten (s : State) : (restart s).dwritten = [] := rfl
@[simp] theorem restart_ifid (s : State) : (restart s).ifid = IfId.bubble := rfl
@[simp] theorem restart_idex (s : State) : (restart s).idex = IdEx.bubble := rfl
@[simp] theorem restart_exmem (s : State) : (restart s).exmem = ExMem.bubble := rfl
@[simp] theorem restart_memwb (s : State) : (restart s).memwb = MemWb.bubble := rfl
@[simp] theorem restart_wbend (s : State) : (restart s).wbend = WbEnd.bubble := rfl
@[simp] theorem restart_cycles (s : State) : (restart s).cycles = 0 := rfl
@[simp] theorem restart_status (s : State) : (restart s).status = .running := rfl
@[simp] theorem restart_stage (s : State) : (restart s).stage = none := rfl
@[simp] theorem restart_burst (s : State) : (restart s).burst = 0 := rfl

@[simp] theorem launchState_launch (m : Nat) (u : DataUninit) (ws : List Word) :
    (launchState m u ws).launch = { memWords := m, dataUninit := u, imageLen := ws.length } := rfl
@[simp] theorem launchState_pc (m : Nat) (u : DataUninit) (ws : List Word) :
    (launchState m u ws).pc = 0 := rfl
@[simp] theorem launchState_reg (m : Nat) (u : DataUninit) (ws : List Word) :
    (launchState m u ws).reg = Vector.replicate 8 0 := rfl
@[simp] theorem launchState_imem (m : Nat) (u : DataUninit) (ws : List Word) :
    (launchState m u ws).imem = Memory.ofImage 0 ws := rfl
@[simp] theorem launchState_dmem (m : Nat) (u : DataUninit) (ws : List Word) :
    (launchState m u ws).dmem = Memory.ofImage 0 ws := rfl
@[simp] theorem launchState_dwritten (m : Nat) (u : DataUninit) (ws : List Word) :
    (launchState m u ws).dwritten = [] := rfl
@[simp] theorem launchState_ifid (m : Nat) (u : DataUninit) (ws : List Word) :
    (launchState m u ws).ifid = IfId.bubble := rfl
@[simp] theorem launchState_idex (m : Nat) (u : DataUninit) (ws : List Word) :
    (launchState m u ws).idex = IdEx.bubble := rfl
@[simp] theorem launchState_exmem (m : Nat) (u : DataUninit) (ws : List Word) :
    (launchState m u ws).exmem = ExMem.bubble := rfl
@[simp] theorem launchState_memwb (m : Nat) (u : DataUninit) (ws : List Word) :
    (launchState m u ws).memwb = MemWb.bubble := rfl
@[simp] theorem launchState_wbend (m : Nat) (u : DataUninit) (ws : List Word) :
    (launchState m u ws).wbend = WbEnd.bubble := rfl
@[simp] theorem launchState_cycles (m : Nat) (u : DataUninit) (ws : List Word) :
    (launchState m u ws).cycles = 0 := rfl
@[simp] theorem launchState_status (m : Nat) (u : DataUninit) (ws : List Word) :
    (launchState m u ws).status = .running := rfl
@[simp] theorem launchState_stage (m : Nat) (u : DataUninit) (ws : List Word) :
    (launchState m u ws).stage = none := rfl
@[simp] theorem launchState_burst (m : Nat) (u : DataUninit) (ws : List Word) :
    (launchState m u ws).burst = 0 := rfl

/-! ### Reading registers -/

@[simp] theorem x_zero (s : State) : x s 0 = 0 := rfl

/-- Two states with the same registers read the same. -/
theorem x_congr {s t : State} (h : s.reg = t.reg) (i : RegIdx) : x s i = x t i := by
  simp [x, h]

/-- A register read after a write through the write port (R32, R155). -/
theorem x_writeReg (s : State) (i j : RegIdx) (v : Word) :
    x (writeReg s i v) j = if j = 0 then 0 else if j = i then v else x s j := by
  by_cases hj : j = 0
  · subst hj; rfl
  · rw [if_neg hj]
    by_cases hi : i = 0
    · have hji : j ≠ i := fun h => hj (h.trans hi)
      rw [if_neg hji, writeReg, if_pos hi]
    · unfold x writeReg
      rw [if_neg hj, if_neg hj, if_neg hi]
      simp only [Vector.getElem_set, BitVec.toNat_inj, eq_comm]

end Sys2Proof.Machine
end

