-- ==== Sys2Proof/Laws/Ops.lean ====
section
/-! SUPPORT. For each shared operation one lemma that says once everything it can do. -/

namespace Sys2Proof.Machine

/-- A fetch reads the word at an address in range, or faults with that address. -/
theorem imemRead_cases (s : State) (a : Word) :
    (inRange s a = true ∧ imemRead s a = .ok (s.imem.read a.toNat)) ∨
    (inRange s a = false ∧ imemRead s a = .error (.fetchAddress a)) := by
  unfold imemRead
  by_cases h : inRange s a <;> simp [h]

/-- The data address check answers the address in range, or faults with it. -/
theorem dataAddr_cases (s : State) (v : Word) :
    (inRange s v = true ∧ dataAddr s v = .ok v.toNat) ∨
    (inRange s v = false ∧ dataAddr s v = .error (.dataAddress v)) := by
  unfold dataAddr
  by_cases h : inRange s v <;> simp [h]

/-- A data read answers the word, or one of the two faults, the range check first. -/
theorem dmemRead_cases (s : State) (v : Word) :
    (inRange s v = true ∧ readable s v.toNat = true ∧ dmemRead s v = .ok (s.dmem.read v.toNat)) ∨
    (inRange s v = true ∧ readable s v.toNat = false ∧ dmemRead s v = .error (.uninitDataRead v)) ∨
    (inRange s v = false ∧ dmemRead s v = .error (.dataAddress v)) := by
  unfold dmemRead
  rcases dataAddr_cases s v with ⟨h, e⟩ | ⟨h, e⟩
  · by_cases hr : readable s v.toNat <;> simp [h, e, hr]
  · simp [h, e]

/-- A data write stores and marks, or faults. -/
theorem dmemWrite_cases (s : State) (v d : Word) :
    (inRange s v = true ∧ dmemWrite s v d =
      .ok { s with dmem := s.dmem.write v.toNat d, dwritten := setMark s.dwritten v.toNat }) ∨
    (inRange s v = false ∧ dmemWrite s v d = .error (.dataAddress v)) := by
  unfold dmemWrite
  rcases dataAddr_cases s v with ⟨h, e⟩ | ⟨h, e⟩ <;> simp [h, e]

/-- The fetch unit keeps IFID in a cycle with a flush or a stall, else reads `imem` or faults. -/
theorem fetch_cases (s : State) :
    ((flush s || stall s) = true ∧ fetch s = .ok s.ifid) ∨
    ((flush s || stall s) = false ∧ inRange s s.pc = true ∧
      fetch s = .ok { instr := s.imem.read s.pc.toNat, pcPlus1 := s.pc + 1 }) ∨
    ((flush s || stall s) = false ∧ inRange s s.pc = false ∧
      fetch s = .error (.fetchAddress s.pc)) := by
  unfold fetch
  by_cases h : (flush s || stall s) = true
  · simp [h]
  · have h' : (flush s || stall s) = false := by simpa using h
    rcases imemRead_cases s s.pc with ⟨hr, e⟩ | ⟨hr, e⟩ <;> simp [h', hr, e]

/-- The stage work of an instruction: what its meaning does in one stage. -/
def stageWork : Instr → Stage → State → State
  | .add a b d => addStage a b d
  | .nor a b d => norStage a b d
  | .lw a b k => lwStage a b k
  | .sw a b k => swStage a b k
  | .beq a b k => beqStage a b k
  | .jalr a b => jalrStage a b
  | .halt => haltStage
  | .noop => noopStage

/-- Every meaning is `perform` of its stage work. -/
theorem exec_eq_perform (i : Instr) (s : State) : exec i s = perform (encode i) (stageWork i) s := by
  cases i <;> rfl

/-- `exec` asked for one stage does that stage's work. -/
theorem exec_some (i : Instr) (s : State) (st : Stage) :
    exec i { s with stage := some st } = .next (stageWork i st { s with stage := some st }) := by
  rw [exec_eq_perform]; rfl

/-- `exec` asked for the whole instruction does its stages in order. -/
theorem exec_none {s : State} (h : s.stage = none) (i : Instr) :
    exec i s = .next (inOrder (encode i) (stageWork i) s) := by
  rw [exec_eq_perform, perform, h]

/-- `andThen` answers next only through a next state. -/
theorem andThen_next {o : Host.Outcome State Fault Refusal}
    {k : State → Host.Outcome State Fault Refusal} {t : State} (h : andThen o k = .next t) :
    ∃ u, o = .next u ∧ k u = .next t := by
  cases o with
  | next u => exact ⟨u, rfl, h⟩
  | fault f => cases h
  | refused r => cases h

/-- The work of the instruction in a stage, on the snapshot. -/
theorem runStage_eq (s : State) (st : Stage) :
    runStage s st =
      .next (stageWork (decode (stageWord s st)) st { s with stage := some st }) := exec_some _ _ _

/-- The state a stage of a cycle answers. -/
def stageOf (s : State) (st : Stage) : State :=
  stageWork (decode (stageWord s st)) st { s with stage := some st }

/-- Everything one clock edge can do: nothing when not running; halt; a memory-stage fault; a fetch fault;
or the commit of all stages. -/
theorem edge_cases {s t : State} (h : clockEdge false s = .next t) :
    (s.status ≠ .running ∧ t = s) ∨
    (s.status = .running ∧ (stageOf s .writeback).status ≠ .running ∧
      t = { s with status := (stageOf s .writeback).status }) ∨
    (s.status = .running ∧ (stageOf s .writeback).status = .running ∧
      (stageOf s .memory).status ≠ .running ∧ t = { s with status := (stageOf s .memory).status }) ∨
    (s.status = .running ∧ (stageOf s .writeback).status = .running ∧
      (stageOf s .memory).status = .running ∧ ∃ f, fetch s = .error f ∧ t = raiseFault s f) ∨
    (s.status = .running ∧ (stageOf s .writeback).status = .running ∧
      (stageOf s .memory).status = .running ∧ ∃ i, fetch s = .ok i ∧
      t = commit s (stageOf s .writeback) (stageOf s .memory) (stageOf s .execute)
        (stageOf s .decode) i) := by
  change runEdge s = .next t at h
  unfold runEdge at h
  by_cases hs : s.status = .running
  · rw [if_pos hs] at h
    unfold cycle at h
    simp only [runStage_eq, andThen] at h
    by_cases hw : (stageOf s .writeback).status = .running
    · by_cases hm : (stageOf s .memory).status = .running
      · simp only [← stageOf.eq_1, hw, hm, ne_eq, not_true_eq_false, if_false] at h
        cases hf : fetch s with
        | error f =>
          rw [hf] at h
          exact .inr <| .inr <| .inr <| .inl ⟨hs, hw, hm, f, rfl, by cases h; rfl⟩
        | ok i =>
          rw [hf] at h
          exact .inr <| .inr <| .inr <| .inr ⟨hs, hw, hm, i, rfl, by cases h; rfl⟩
      · simp only [← stageOf.eq_1, hw, hm, ne_eq, not_true_eq_false, if_false,
          not_false_eq_true, if_true] at h
        exact .inr <| .inr <| .inl ⟨hs, hw, hm, by cases h; rfl⟩
    · simp only [← stageOf.eq_1, hw, ne_eq, not_false_eq_true, if_true] at h
      exact .inr <| .inl ⟨hs, hw, by cases h; rfl⟩
  · rw [if_neg hs] at h
    exact .inl ⟨hs, by cases h; rfl⟩

/-- A commit keeps the launch, instruction memory and the model's own fields. -/
theorem commit_keeps (s wb mm ex de : State) (f : IfId) :
    (commit s wb mm ex de f).launch = s.launch ∧ (commit s wb mm ex de f).imem = s.imem ∧
    (commit s wb mm ex de f).status = s.status ∧ (commit s wb mm ex de f).stage = s.stage ∧
    (commit s wb mm ex de f).burst = s.burst := by
  unfold commit advance
  split <;> [skip; split] <;> exact ⟨rfl, rfl, rfl, rfl, rfl⟩

/-- A clock edge keeps the launch, instruction memory and the model's own fields. -/
theorem edge_keeps {s t : State} (h : clockEdge false s = .next t) :
    t.launch = s.launch ∧ t.imem = s.imem ∧ t.stage = s.stage ∧ t.burst = s.burst := by
  obtain ⟨-, rfl⟩ | ⟨-, -, rfl⟩ | ⟨-, -, -, rfl⟩ | ⟨-, -, -, f, -, rfl⟩ | ⟨-, -, -, i, -, rfl⟩ :=
    edge_cases h
  · exact ⟨rfl, rfl, rfl, rfl⟩
  · exact ⟨rfl, rfl, rfl, rfl⟩
  · exact ⟨rfl, rfl, rfl, rfl⟩
  · exact ⟨rfl, rfl, rfl, rfl⟩
  · obtain ⟨hl, hi, -, hs, hb⟩ := commit_keeps s (stageOf s .writeback) (stageOf s .memory)
      (stageOf s .execute) (stageOf s .decode) i
    exact ⟨hl, hi, hs, hb⟩

/-- Everything a step can do: `burst + 1` clock edges, after which `burst` is 0. -/
theorem step_edges {s t : State} (h : step s = .next t) :
    ∃ u, edges (s.burst + 1) s = .next u ∧ t = { u with burst := 0 } := by
  obtain ⟨u, hu, ht⟩ := andThen_next h
  exact ⟨u, hu, by cases ht; rfl⟩

/-- Where `burst` is 0 a step that answers next is one clock edge. -/
theorem step_of_burst_zero {s t : State} (hb : s.burst = 0) (h : step s = .next t) :
    clockEdge false s = .next t := by
  obtain ⟨u, hu, rfl⟩ := step_edges h
  rw [hb] at hu
  obtain ⟨v, hv, hvu⟩ := andThen_next hu
  obtain rfl : v = u := by cases hvu; rfl
  have hvb : v.burst = 0 := (edge_keeps hv).2.2.2.trans hb
  rw [hv, ← hvb]

end Sys2Proof.Machine
end

