-- ==== Sys2Proof/Laws/PerInstr.lean ====
section
/-! SUPPORT. The family of lemmas made per instruction: the opcode field of an encoded instruction. -/

namespace Sys2Proof.Laws.OpcodeOfEncode

/-- The opcode field of an instruction's word is its opcode number (R103, R104). -/
def Statement (i : Instr) : Prop := op (encode i) = opNumber i

/-- The opcode field is not touched by the register fields (R103). -/
theorem op_encodeRegs (o : BitVec 3) (a b : RegIdx) : op (encodeRegs o a b) = o := by
  apply BitVec.eq_of_getLsbD_eq
  intro i hi
  have ha : a.getLsbD (22 + i - 19) = false := BitVec.getLsbD_of_ge _ _ (by omega)
  have hb : b.getLsbD (22 + i - 16) = false := BitVec.getLsbD_of_ge _ _ (by omega)
  have h1 : 22 + i < 32 := by omega
  have h2 : ¬ 22 + i < 22 := by omega
  have h3 : 22 + i - 22 = i := by omega
  have h6 : i < 32 := by omega
  simp only [op, encodeRegs, place, encoding, BitVec.getLsbD_extractLsb', BitVec.getLsbD_or,
    BitVec.getLsbD_shiftLeft, BitVec.getLsbD_setWidth, ha, hb, h1, h2, h3, h6, hi, decide_true,
    Bool.and_false, Bool.or_false, Bool.true_and, decide_false, Bool.not_false, Bool.and_true]

/-- A field in the low 16 bits does not touch the opcode field. -/
theorem op_low {n : Nat} (hn : n ≤ 16) (w : Word) (f : BitVec n) : op (w ||| place f 0) = op w := by
  ext i hi
  simp only [op, place, encoding, BitVec.getElem_extractLsb', BitVec.getLsbD_or,
    BitVec.getLsbD_shiftLeft, BitVec.getLsbD_setWidth]
  have : f.getLsbD (22 + i) = false := BitVec.getLsbD_of_ge _ _ (by omega)
  simp [this]

theorem add (a b d : RegIdx) : Statement (.add a b d) :=
  (op_low (by decide) _ d).trans (op_encodeRegs _ a b)

theorem nor (a b d : RegIdx) : Statement (.nor a b d) :=
  (op_low (by decide) _ d).trans (op_encodeRegs _ a b)

theorem lw (a b : RegIdx) (k : Off16) : Statement (.lw a b k) :=
  (op_low (by decide) _ k).trans (op_encodeRegs _ a b)

theorem sw (a b : RegIdx) (k : Off16) : Statement (.sw a b k) :=
  (op_low (by decide) _ k).trans (op_encodeRegs _ a b)

theorem beq (a b : RegIdx) (k : Off16) : Statement (.beq a b k) :=
  (op_low (by decide) _ k).trans (op_encodeRegs _ a b)

theorem jalr (a b : RegIdx) : Statement (.jalr a b) := op_encodeRegs _ a b

theorem halt : Statement .halt := by unfold Statement; decide

theorem noop : Statement .noop := by unfold Statement; decide

end Sys2Proof.Laws.OpcodeOfEncode
end

