-- ==== Sys2Proof/Tests/Slice0.lean ====
section
/-! SUPPORT. The model's own tests. Expected values come from spec/95_test_vectors.md and from the
encodings of spec/30_encoding.md, never from the model. A theorem `witness_<Statement>` shows a concrete
state and operands that meet all hypotheses of that statement, one for each clause. -/

namespace Sys2Proof.Tests

open Sys2Proof.Machine

/-! ### Helpers -/

/-- Eight words of image that no test reads, 64 words of memory. -/
def base : State := launchState 64 .fault [1, 2, 3, 4, 5, 6, 7, 8]

/-- `base` with `r1 = v` and `r2 = w`. -/
def regs (v w : Word) : State := { base with reg := #v[0, v, w, 0, 0, 0, 0, 0] }

/-- A field of the next state, if there is one. -/
def after {α : Type} (o : Host.Outcome State Fault Refusal) (f : State → α) : Option α :=
  match o with
  | .next t => some (f t)
  | .fault _ => none
  | .refused _ => none

/-- A state in which neither a stall nor a flush applies: `base` with `add 1 2 3` in IFID. -/
def sGo : State := { base with ifid := { instr := 0x000A0003, pcPlus1 := 1 }, pc := 1 }

/-- A load-use stall: `lw 0 1 0` in IDEX, `add 1 1 3` in IFID (R145). -/
def sStall : State :=
  { base with ifid := { instr := 0x00090003, pcPlus1 := 2 }, pc := 2,
              idex := { IdEx.bubble with instr := 0x00810000, pcPlus1 := 1 } }

/-- A taken `beq` in EXMEM with target 6, and `lw 0 1 0` and its reader behind it (R136, C2). -/
def sFlush : State :=
  { sStall with exmem := { ExMem.idle 0x01010003 with equalityFlag := true, branchTarget := 6 } }

/-- A `halt` in MEMWB and a `jalr` in EXMEM (vector T2). -/
def sHalt : State :=
  { base with memwb := { instr := 0x01800000, writeData := 0 }, exmem := ExMem.idle 0x014A0000 }

/-- A `jalr` in EXMEM and `pc` out of range. -/
def sJalr : State := { base with exmem := ExMem.idle 0x014A0000, pc := 64 }

/-- `pc` at `MEM_WORDS`. -/
def sPcOut : State := { base with pc := 64 }

/-- `lw 0 1 64` in EXMEM: out of range. -/
def sLwOut : State := { base with exmem := { ExMem.idle 0x00810040 with aluResult := 64 } }

/-- `lw 0 1 9` in EXMEM: in range, beyond the image, never stored. -/
def sLwUninit : State := { base with exmem := { ExMem.idle 0x00810009 with aluResult := 9 } }

/-- `sw 0 3 10` in EXMEM with data 7, and `lw 0 5 10` behind it in IDEX. -/
def sStore : State :=
  { base with exmem := { ExMem.idle 0x00C3000A with aluResult := 10, storeData := 7 },
              idex := { IdEx.bubble with instr := 0x0085000A, offset := 10 } }

/-- `add 1 1 3` in MEMWB with the value 34 (vector WB1). -/
def sWb : State := { base with memwb := { instr := 0x00090003, writeData := 34 } }

/-- `lw 3 1 5` in MEMWB with the value 0x99 (vector WB3). -/
def sWbLoad : State := { base with memwb := { instr := 0x00990005, writeData := 0x99 } }

/-! ### Decoding: one written word per constructor (R102, R104; vectors of section 2.1) -/

theorem test_decode_add : decode 0b0000000_000_010_011_0000000000000_001#32 = .add 2 3 1 := by decide
theorem test_decode_nor : decode 0b0000000_001_001_001_0000000000000_001#32 = .nor 1 1 1 := by decide
theorem test_decode_lw : decode 0b0000000_010_111_111_1000000000000000#32 = .lw 7 7 0x8000 := by decide
theorem test_decode_sw : decode 0b0000000_011_000_011_0000000000001010#32 = .sw 0 3 10 := by decide
theorem test_decode_beq : decode 0b0000000_100_000_001_1111111111111100#32 = .beq 0 1 0xFFFC := by decide
theorem test_decode_jalr : decode 0b0000000_101_001_010_0000000000000000#32 = .jalr 1 2 := by decide
theorem test_decode_halt : decode 0b0000000_110_000_000_0000000000000000#32 = .halt := by decide
theorem test_decode_noop : decode 0b0000000_111_000_000_0000000000000000#32 = .noop := by decide
theorem test_decode_all_ones_is_noop : decode 0xFFFFFFFF = .noop := by decide
theorem test_decode_high_bits_ignored : decode 0xFE000003 = .add 0 0 3 := by decide
theorem test_noopWord_is_encoded_noop : encode .noop = noopWord := by decide
theorem test_decode_table_word : decodeTableWord 32 0x0100FFFC = some (.beq 0 0 0xFFFC) := by decide

/-! ### Well-formedness: a term each check refuses -/

theorem test_image_too_long_refused :
    Launch.imageFits { memWords := 4, dataUninit := .fault, imageLen := 5 } = false := by decide
theorem test_pc_too_wide_refused :
    Launch.pcFits { memWords := 2147450881, dataUninit := .fault, imageLen := 0 } = false := by decide
theorem test_launch_wellFormed :
    Launch.wellFormed { memWords := 65536, dataUninit := .fault, imageLen := 65536 } = true := by decide

/-! ### Instructions (vectors of sections 2.2 to 2.6), the whole instruction alone -/

theorem test_add_signed_overflow :
    after (exec (.add 1 2 3) (regs 0x7FFFFFFF 1)) (fun t => x t 3) = some 0x80000000 := by decide
theorem test_add_to_zero_discards :
    after (exec (.add 1 2 0) (regs 5 7)) (fun t => t.reg.toList) = some [0, 5, 7, 0, 0, 0, 0, 0] := by
  decide
theorem test_nor :
    after (exec (.nor 1 2 3) (regs 0x0F0F0F0F 0x00FF00FF)) (fun t => x t 3) = some 0xF000F000 := by
  decide
theorem test_nor_same_register :
    after (exec (.nor 1 1 1) (regs 5 0)) (fun t => x t 1) = some 0xFFFFFFFA := by decide
theorem test_lw_negative_offset :
    after (exec (.lw 1 2 0xFFFD) (regs 10 0)) (fun t => x t 2) = some 8 := by decide
theorem test_lw_out_of_range :
    after (exec (.lw 0 1 0xFFFF) base) (fun t => t.status) =
      some (.faulted (.dataAddress 0xFFFFFFFF)) := by decide
theorem test_sw :
    after (exec (.sw 1 2 0xFFFD) (regs 10 0xDEADBEEF))
      (fun t => (t.dmem.read 7, t.dwritten, t.imem.read 7)) = some (0xDEADBEEF, [7], 8) := by decide
theorem test_sw_out_of_range :
    after (exec (.sw 0 1 0xFFFF) base) (fun t => (t.status, t.dmem.read 63)) =
      some (.faulted (.dataAddress 0xFFFFFFFF), 0) := by decide
theorem test_beq_taken :
    after (exec (.beq 1 2 7) { regs 5 5 with pc := 10 }) (fun t => t.pc) = some 18 := by decide
theorem test_beq_not_taken :
    after (exec (.beq 1 2 7) { regs 5 6 with pc := 10 }) (fun t => t.pc) = some 11 := by decide
theorem test_jalr_faults :
    after (exec (.jalr 1 2) base) (fun t => t.status) =
      some (.faulted (.unimplementedJalr 0x014A0000)) := by decide
theorem test_halt : after (exec .halt base) (fun t => t.status) = some .halted := by decide
theorem test_noop : after (exec .noop base) (fun t => (t.pc, t.reg)) = some (1, base.reg) := by decide

/-! ### One cycle (vectors of sections 2.5 to 2.11) -/

theorem test_fetch_after_reset :
    after (step (launchState 64 .fault [0x000A0003])) (fun t => (t.ifid.instr, t.pc, t.cycles)) =
      some (0x000A0003, 1, 1) := by decide
theorem test_placed_add_runs :
    after (step ((regs 5 7).withFetchWord 32 0x000A0003)) (fun t => (x t 3, t.burst)) =
      some (12, 0) := by decide
theorem test_placed_nor_runs_after_reset :
    after (step (State.reset.withFetchWord 32 0x00400003)) (fun t => x t 3) = some 0xFFFFFFFF := by
  decide
theorem test_placed_lw_runs :
    after (step (base.withFetchWord 32 0x00810007)) (fun t => x t 1) = some 8 := by decide
theorem test_placed_lw_uninit_after_reset :
    after (step (State.reset.withFetchWord 32 0x00810000)) (fun t => t.status) =
      some (.faulted (.uninitDataRead 0)) := by decide
theorem test_placed_sw_runs :
    after (step ((regs 5 7).withFetchWord 32 0x00C1000A)) (fun t => t.dmem.read 10) = some 5 := by
  decide
theorem test_placed_beq_runs_after_reset :
    after (step (State.reset.withFetchWord 32 0x01000009)) (fun t => t.ifid.pcPlus1) = some 11 := by
  decide
theorem test_placed_jalr_runs_after_reset :
    after (step (State.reset.withFetchWord 32 0x014A0000)) (fun t => t.status) =
      some (.faulted (.unimplementedJalr 0x014A0000)) := by decide
theorem test_placed_halt_runs_after_reset :
    after (step (State.reset.withFetchWord 32 0x01800000)) (fun t => t.status) = some .halted := by
  decide
theorem test_stall_holds_fetch :
    after (step sStall) (fun t => (t.pc, t.ifid, t.idex)) = some (2, sStall.ifid, IdEx.bubble) := by
  decide
theorem test_flush_wins_over_stall :
    after (step sFlush) (fun t => (t.pc, t.ifid, t.idex, t.exmem)) =
      some (6, IfId.bubble, IdEx.bubble, ExMem.bubble) := by decide
theorem test_halt_before_jalr :
    after (step sHalt) (fun t => (t.status, t.cycles)) = some (.halted, 0) := by decide
theorem test_memory_fault_before_fetch_fault :
    after (step sJalr) (fun t => t.status) = some (.faulted (.unimplementedJalr 0x014A0000)) := by
  decide
theorem test_fetch_fault :
    after (step sPcOut) (fun t => (t.status, t.pc)) = some (.faulted (.fetchAddress 64), 64) := by
  decide
theorem test_writeback : after (step sWb) (fun t => (x t 3, t.wbend)) =
    some (34, { instr := 0x00090003, writeData := 34 }) := by decide
theorem test_load_into_r0_still_stalls : hazard 0x00800000 0x00000001 = true := by decide
theorem test_load_destination_is_no_source : hazard 0x00810000 0x00910000 = false := by decide
theorem test_forward_exmem_first :
    fwd { base with exmem := { ExMem.idle 0x000A0003 with aluResult := 0x10 },
                    memwb := { instr := 0x00250003, writeData := 0x20 },
                    wbend := { instr := 0x00830000, writeData := 0x30 } } 3 0x40 = 0x10 := by decide
theorem test_store_never_forwards :
    fwd { base with exmem := { ExMem.idle 0x00C10003 with aluResult := 3 },
                    memwb := { instr := 0x00250003, writeData := 0x20 } } 3 0x40 = 0x20 := by decide

/-! ### The loader (R314) -/

theorem test_parse_prefix : parseLine [' ', '0', 'X', '8', '1', 'f', 'F', '\r'] = some 0x81FF := by
  decide
theorem test_parse_nine_digits : parseLine ['0', '0', '0', '0', '0', '0', '0', '0', '1'] = none := by
  decide
theorem test_image_with_trailing_blank :
    after (match boot 4 .fault 1 (some [['1'], ['2'], []]) with
      | .ok s => .next s
      | .error _ => .next State.reset) (fun s => s.imem) = some [(0, 1), (1, 2)] := by decide

/-! ### Witnesses: the hypotheses of the statements are met -/

theorem witness_EncodeWritesTheFormats :
    ((-32768 : Int) ≤ -32768 ∧ (-32768 : Int) ≤ 32767) ∧ (-32768 : Int) ≤ 32767 := by decide

theorem witness_DecodeAfterEncode : (Instr.lw 7 7 0x8000).wellFormed = true := by decide

theorem witness_LaunchHasTheResetValues :
    base = launchState 64 .fault [1, 2, 3, 4, 5, 6, 7, 8] ∧ 7 < [1, 2, 3, 4, 5, 6, 7, 8].length ∧
    [1, 2, 3, 4, 5, 6, 7, 8].length ≤ 8 := by decide

theorem witness_ResetEdgeRestoresTheLaunch :
    ({ sJalr with status := .halted }).imem = Memory.ofImage 0 [1, 2, 3, 4, 5, 6, 7, 8] ∧
    ({ sJalr with status := .halted }).launch.imageLen = [1, 2, 3, 4, 5, 6, 7, 8].length := by decide

theorem witness_StepKeepsTheInvariant : Inv sStore ∧ ∃ t, step sStore = .next t :=
  ⟨⟨by decide, by decide, by decide, by decide, by decide, by decide⟩, _, rfl⟩

theorem witness_LaunchSatisfiesTheInvariant : (launchState 64 .fault [7]).launch.pcFits = true := by
  decide

theorem witness_StepKeepsTheAddressRanges : AddressRanges sGo ∧ ∃ t, step sGo = .next t :=
  ⟨⟨by decide, by decide, by decide, by decide, by decide, by decide, by decide, by decide, by decide,
    by decide, by decide, by decide, by decide⟩, _, rfl⟩

theorem witness_RegisterZeroIsZeroWhenReached :
    ∃ t, clockEdges [false, true, false] (launchState 64 .fault [0x00090000]) = .next t := ⟨_, rfl⟩

theorem witness_FetchReadsTheImage :
    (∃ t, clockEdges [false, false] (launchState 64 .fault [7]) = .next t) ∧
    0 ≤ Word.signed 0 ∧ Word.signed 0 < (64 : Int) ∧ 0 ≤ Word.signed 63 ∧ Word.signed 63 < (64 : Int) :=
  ⟨⟨_, rfl⟩, by decide⟩

/-- The four stages of a cycle answer next states, the writeback and memory stage with `status` as
given. -/
def StagesAnswer (s : State) (w m : Status) : Prop :=
  ∃ wb mm ex de, exec (decode s.memwb.instr) { s with stage := some .writeback } = .next wb ∧
    exec (decode s.exmem.instr) { s with stage := some .memory } = .next mm ∧
    exec (decode s.idex.instr) { s with stage := some .execute } = .next ex ∧
    exec (decode s.ifid.instr) { s with stage := some .decode } = .next de ∧
    wb.status = w ∧ mm.status = m

theorem witness_StepRunsTheDecodedInstructions_halt :
    sHalt.burst = 0 ∧ sHalt.status = .running ∧ StagesAnswer sHalt .halted (.faulted (.unimplementedJalr 0x014A0000)) :=
  ⟨rfl, rfl, _, _, _, _, rfl, rfl, rfl, rfl, rfl, rfl⟩

theorem witness_StepRunsTheDecodedInstructions_fault :
    sJalr.burst = 0 ∧ sJalr.status = .running ∧ StagesAnswer sJalr .running (.faulted (.unimplementedJalr 0x014A0000)) :=
  ⟨rfl, rfl, _, _, _, _, rfl, rfl, rfl, rfl, rfl, rfl⟩

theorem witness_StepRunsTheDecodedInstructions_flush :
    sFlush.burst = 0 ∧ sFlush.status = .running ∧ flush sFlush = true ∧ StagesAnswer sFlush .running .running :=
  ⟨rfl, rfl, by decide, _, _, _, _, rfl, rfl, rfl, rfl, rfl, rfl⟩

theorem witness_StepRunsTheDecodedInstructions_stall :
    sStall.burst = 0 ∧ sStall.status = .running ∧ flush sStall = false ∧ stall sStall = true ∧
    StagesAnswer sStall .running .running :=
  ⟨rfl, rfl, by decide, by decide, _, _, _, _, rfl, rfl, rfl, rfl, rfl, rfl⟩

theorem witness_StepRunsTheDecodedInstructions_go :
    sGo.burst = 0 ∧ sGo.status = .running ∧ flush sGo = false ∧ stall sGo = false ∧ inRange sGo sGo.pc = true ∧
    StagesAnswer sGo .running .running :=
  ⟨rfl, rfl, by decide, by decide, by decide, _, _, _, _, rfl, rfl, rfl, rfl, rfl, rfl⟩

theorem witness_StepRunsTheDecodedInstructions_pcOut :
    sPcOut.burst = 0 ∧ sPcOut.status = .running ∧ flush sPcOut = false ∧ stall sPcOut = false ∧
    inRange sPcOut sPcOut.pc = false ∧ StagesAnswer sPcOut .running .running :=
  ⟨rfl, rfl, by decide, by decide, by decide, _, _, _, _, rfl, rfl, rfl, rfl, rfl, rfl⟩

theorem witness_StepIsClockEdges :
    (∃ t, step sGo = .next t) ∧ (sGo.burst = 0 ∧ ∃ u, clockEdge false sGo = .next u) ∧
    ({ sGo with burst := 3 }).burst = 2 + 1 ∧ ∃ u, clockEdge false { sGo with burst := 3 } = .next u :=
  ⟨⟨_, rfl⟩, ⟨rfl, _, rfl⟩, rfl, _, rfl⟩

theorem witness_PlacedWordIsFetchedAndRun :
    (regs 5 5).imem.wf ∧ (regs 5 5).status = .running ∧ (regs 5 5).launch.pcFits = true ∧
    0 ≤ (regs 5 5).pc.signed ∧ 32 ≤ 32 ∧ (regs 5 5).pc.signed + 5 ≤ ((regs 5 5).launch.memWords : Int) ∧
    (x (regs 5 5) 1 = x (regs 5 5) 2 ∧ ∃ u, exec (.beq 1 2 7) { regs 5 5 with stage := none } = .next u ∧
      u.status = .running ∧ inRange (regs 5 5) u.pc = true) ∧
    (¬ (∃ a b k, Instr.add 1 2 3 = .beq a b k ∧ x (regs 5 5) a = x (regs 5 5) b)) ∧
    ∃ u, exec (.add 1 2 3) { regs 5 5 with stage := none } = .next u ∧ u.status = .running ∧
      inRange (regs 5 5) u.pc = true :=
  ⟨by decide, rfl, by decide, by decide, by decide, by decide, ⟨by decide, _, rfl, rfl, by decide⟩,
    nofun, _, rfl, rfl, by decide⟩

/-- A drained pipeline at address 10, `add 1 2 3` there and `noop`s after it. -/
def sDrained : State :=
  { regs 5 7 with pc := 10, imem := [(10, 0x000A0003), (11, 0x01C00000), (12, 0x01C00000),
                                     (13, 0x01C00000), (14, 0x01C00000)] }

theorem witness_DrainedPipelineRunsTheInstruction :
    sDrained.status = .running ∧ sDrained.launch.pcFits = true ∧ sDrained.ifid = IfId.bubble ∧
    sDrained.idex = IdEx.bubble ∧ sDrained.exmem = ExMem.bubble ∧ sDrained.memwb = MemWb.bubble ∧
    sDrained.wbend = WbEnd.bubble ∧ 0 ≤ sDrained.pc.signed ∧
    sDrained.pc.signed + 5 ≤ (sDrained.launch.memWords : Int) ∧
    sDrained.imem.read sDrained.pc.toNat = encode (.add 1 2 3) ∧
    (∀ k, 1 ≤ k → k ≤ 4 → decode (sDrained.imem.read (sDrained.pc.toNat + k)) = .noop) ∧
    ∃ u, exec (.add 1 2 3) { sDrained with stage := none } = .next u ∧ u.status = .running ∧
      inRange sDrained u.pc = true := by
  refine ⟨rfl, by decide, rfl, rfl, rfl, rfl, rfl, by decide, by decide, by decide, ?_, _, rfl, rfl,
    by decide⟩
  intro k h1 h2
  interval_cases k <;> decide

/-- A drained pipeline at address 10, a taken `beq 0 0 5` there and `noop`s after it. -/
def sDrainedBranch : State :=
  { regs 5 7 with pc := 10, imem := [(10, 0x01000005), (11, 0x01C00000), (12, 0x01C00000),
                                     (13, 0x01C00000), (14, 0x01C00000)] }

theorem witness_DrainedPipelineRunsTheInstruction_branch :
    sDrainedBranch.imem.read sDrainedBranch.pc.toNat = encode (.beq 0 0 5) ∧
    x sDrainedBranch 0 = x sDrainedBranch 0 ∧
    ∃ u, exec (.beq 0 0 5) { sDrainedBranch with stage := none } = .next u ∧ u.status = .running ∧
      inRange sDrainedBranch u.pc = true := ⟨by decide, rfl, _, rfl, rfl, by decide⟩

theorem witness_EventsAreTakenOldestFirst :
    (sHalt.status = .running ∧ decode sHalt.memwb.instr = .halt) ∧
    (decode sJalr.memwb.instr ≠ .halt ∧ ∃ f, (memoryLoadStore sJalr).memwbNext = .error f) ∧
    (decode sPcOut.memwb.instr ≠ .halt ∧ (∃ m, (memoryLoadStore sPcOut).memwbNext = .ok m) ∧
      ∃ f, (fetchUnit sPcOut (stall sPcOut) (flush sPcOut) sPcOut.exmem.branchTarget).pcIfidNext =
        .error f) ∧
    (decode sFlush.memwb.instr ≠ .halt ∧ (∃ m, (memoryLoadStore sFlush).memwbNext = .ok m) ∧
      ∃ p, (fetchUnit sFlush (stall sFlush) (flush sFlush) sFlush.exmem.branchTarget).pcIfidNext =
        .ok p) :=
  ⟨by decide, ⟨by decide, _, rfl⟩, ⟨by decide, ⟨_, rfl⟩, _, rfl⟩, ⟨by decide, ⟨_, rfl⟩, _, rfl⟩⟩

theorem witness_StallAndFlushSelection :
    (flush sFlush = true ∧ sFlush.status = .running ∧
      ∃ t, clockEdge false sFlush = .next t ∧ t.status = .running) ∧
    (flush sStall = false ∧ stall sStall = true ∧ sStall.status = .running ∧
      ∃ t, clockEdge false sStall = .next t ∧ t.status = .running) ∧
    (flush sGo = false ∧ stall sGo = false ∧ sGo.status = .running ∧
      ∃ t, clockEdge false sGo = .next t ∧ t.status = .running) :=
  ⟨⟨by decide, rfl, _, rfl, rfl⟩, ⟨by decide, by decide, rfl, _, rfl, rfl⟩,
    ⟨by decide, by decide, rfl, _, rfl, rfl⟩⟩

theorem witness_LoadUseHazardRule :
    (∀ a r k, decode 0x00000001 ≠ .lw a r k) ∧ decode 0x00810000 = .lw 0 1 0 ∧
    decode 0x00080002 = .add 1 0 2 ∧ decode 0x00490001 = .nor 1 1 1 ∧ decode 0x008A0000 = .lw 1 2 0 ∧
    decode 0x00D10000 = .sw 2 1 0 ∧ decode 0x01010005 = .beq 0 1 5 ∧ decode 0x014A0000 = .jalr 1 2 ∧
    decode 0x01880000 = .halt ∧ decode 0x01C80000 = .noop ∧
    hazard sStall.idex.instr sStall.ifid.instr = true ∧ flush sStall = false ∧
    sStall.status = .running ∧ ∃ t, clockEdge false sStall = .next t ∧ t.status = .running := by
  refine ⟨fun a r k => ?_, by decide, by decide, by decide, by decide, by decide, by decide, by decide,
    by decide, by decide, by decide, by decide, rfl, _, rfl, rfl⟩
  rw [show decode 0x00000001 = .add 0 0 1 from by decide]
  exact nofun

theorem witness_AStallLastsOneCycle :
    stall sStall = true ∧ sStall.status = .running ∧
    ∃ t, clockEdge false sStall = .next t ∧ t.status = .running := ⟨by decide, rfl, _, rfl, rfl⟩

theorem witness_ForwardingPrecedence :
    (3 : RegIdx) ≠ 0 ∧ decode 0x000A0003 = .add 1 2 3 ∧ decode 0x00490003 = .nor 1 1 3 ∧
    writesTo (decode 0x00830009) 3 ∧ ¬ writesTo (decode 0x01000003) 3 := by
  refine ⟨by decide, by decide, by decide, .inr (.inr ⟨0, 9, by decide⟩), ?_⟩
  rw [show decode 0x01000003 = .beq 0 0 3 from by decide]
  rintro (⟨_, _, h⟩ | ⟨_, _, h⟩ | ⟨_, _, h⟩) <;> cases h

/-- `add 1 1 3` in IFID, `nor 1 1 1` in IDEX, no hazard. -/
def sForward : State :=
  { sGo with ifid := { instr := 0x00090003, pcPlus1 := 2 },
             idex := { IdEx.bubble with instr := 0x00490001, pcPlus1 := 1 } }

theorem witness_ForwardedOperandsAreUpToDate :
    sForward.status = .running ∧ ∃ t, clockEdge false sForward = .next t ∧ t.status = .running ∧
      readsA (decode t.idex.instr) = true ∧ (1 : RegIdx) = regA t.idex.instr ∧
      readsB (decode t.idex.instr) = true ∧ (1 : RegIdx) = regB t.idex.instr :=
  ⟨rfl, _, rfl, rfl, by decide, by decide, by decide, by decide⟩

theorem witness_DecodeReadsBeforeTheEdge :
    sGo.status = .running ∧ flush sGo = false ∧ stall sGo = false ∧
    ∃ t, clockEdge false sGo = .next t ∧ t.status = .running := ⟨rfl, by decide, by decide, _, rfl, rfl⟩

theorem witness_OnlyWritebackWritesRegisters :
    (sWb.status = .running ∧ decode sWb.memwb.instr = .add 1 1 3 ∧
      ∃ t, clockEdge false sWb = .next t ∧ t.status = .running) ∧
    (sWbLoad.status = .running ∧ decode sWbLoad.memwb.instr = .lw 3 1 5 ∧
      ∃ t, clockEdge false sWbLoad = .next t ∧ t.status = .running) ∧
    (wdest (decode sGo.memwb.instr) = none ∧ ∃ t, clockEdge false sGo = .next t ∧ t.status = .running) ∧
    ∃ t, clockEdge false sJalr = .next t ∧ t.status ≠ .running :=
  ⟨⟨rfl, by decide, _, rfl, rfl⟩, ⟨rfl, by decide, _, rfl, rfl⟩, ⟨by decide, _, rfl, rfl⟩,
    _, rfl, by decide⟩

theorem witness_OnlyAStoreChangesDataMemory :
    (sStore.dmem.wf ∧ sStore.status = .running ∧ decode sStore.exmem.instr = .sw 0 3 10 ∧
      ∃ t, clockEdge false sStore = .next t ∧ t.status = .running) ∧
    ((∀ a b k, decode sGo.exmem.instr ≠ .sw a b k) ∧ ∃ t, clockEdge false sGo = .next t ∧ t.status = .running) ∧
    ∃ t, clockEdge false sJalr = .next t ∧ t.status ≠ .running := by
  refine ⟨⟨by decide, rfl, by decide, _, rfl, rfl⟩, ⟨fun a b k => ?_, _, rfl, rfl⟩, _, rfl, by decide⟩
  rw [show decode sGo.exmem.instr = .noop from by decide]
  exact nofun

theorem witness_AStoreIsSeenByTheNextLoad :
    sStore.dmem.wf ∧ sStore.status = .running ∧ decode sStore.exmem.instr = .sw 0 3 10 ∧
    ∃ t, clockEdge false sStore = .next t ∧ t.status = .running ∧ decode t.exmem.instr = .lw 0 5 10 ∧
      t.exmem.aluResult = sStore.exmem.aluResult ∧ ∃ u, clockEdge false t = .next u :=
  ⟨by decide, rfl, by decide, _, rfl, rfl, by decide, by decide, _, rfl⟩

theorem witness_FetchFaultsOnlyWhenUsed :
    (0 ≤ Word.signed 63 ∧ Word.signed 63 < (base.launch.memWords : Int)) ∧ Word.signed 0xFFFFFFFF < 0 ∧
    (base.launch.memWords : Int) ≤ Word.signed 64 ∧ sPcOut.status = .running ∧
    ∃ t, clockEdge false sPcOut = .next t ∧ t.status = .faulted (.fetchAddress 64) :=
  ⟨by decide, by decide, by decide, rfl, _, rfl, rfl⟩

theorem witness_DataAccessRules :
    Word.signed 0xFFFFFFFF < 0 ∧ (base.launch.memWords : Int) ≤ Word.signed 64 ∧
    0 ≤ Word.signed 63 ∧ Word.signed 63 < (base.launch.memWords : Int) ∧
    base.launch.imageLen ≤ (63 : Word).toNat ∧ (63 : Word).toNat ∉ base.dwritten ∧
    base.launch.dataUninit = .fault ∧ (7 : Word).toNat < base.launch.imageLen ∧ base.dmem.wf := by
  decide

theorem witness_StageByStage :
    ∀ st : Stage, ({ sStore with stage := some st }).stage = some st ∧
      inRange { sStore with stage := some st } sStore.exmem.aluResult = true := by
  intro st; cases st <;> decide

theorem witness_LoadStageByStage :
    inRange sLwOut sLwOut.exmem.aluResult = false ∧
    (inRange sLwUninit sLwUninit.exmem.aluResult = true ∧
      readable sLwUninit sLwUninit.exmem.aluResult.toNat = false) ∧
    readable base 7 = true := by decide

theorem witness_BranchStageByStage :
    sFlush.exmem.equalityFlag = true ∧ sGo.exmem.equalityFlag = false := by decide

theorem witness_InstructionsAlone :
    base.stage = none ∧ base.status = .running ∧ base.dmem.wf ∧
    (inRange base (x base 0 + Off16.sext 7) = true ∧ readable base 7 = true) ∧
    (inRange base (x base 0 + Off16.sext 8) = true ∧ readable base 8 = false) ∧
    inRange base (x base 0 + Off16.sext 64) = false ∧
    x (regs 5 5) 1 = x (regs 5 5) 2 ∧ x (regs 5 6) 1 ≠ x (regs 5 6) 2 := by decide

/-- A branch at address 5: IDEX with `pcPlus1 = 6` and offset -4. -/
def sBranch : State :=
  { base with idex := { IdEx.bubble with instr := 0x0100FFFC, pcPlus1 := 6, offset := 0xFFFFFFFC } }

theorem witness_BranchTargetIsTheInteger :
    sBranch.launch.pcFits = true ∧ (0 : Int) ≤ 5 ∧ (5 : Int) < (sBranch.launch.memWords : Int) ∧
    sBranch.idex.pcPlus1.signed = 5 + 1 ∧
    sBranch.idex.offset = (0xFFFC : Off16).signExtend 32 := by decide

theorem witness_FaultsAreRaisedAsTabled :
    (sJalr.status = .running ∧ decode sJalr.memwb.instr ≠ .halt ∧
      ∃ t, clockEdge false sJalr = .next t ∧ t.status = .faulted (.unimplementedJalr 0x014A0000)) ∧
    (sLwOut.status = .running ∧ decode sLwOut.memwb.instr ≠ .halt ∧
      ∃ t, clockEdge false sLwOut = .next t ∧ t.status = .faulted (.dataAddress 64)) ∧
    (sLwUninit.status = .running ∧ decode sLwUninit.memwb.instr ≠ .halt ∧
      ∃ t, clockEdge false sLwUninit = .next t ∧ t.status = .faulted (.uninitDataRead 9)) ∧
    (sPcOut.status = .running ∧ decode sPcOut.memwb.instr ≠ .halt ∧
      ∃ t, clockEdge false sPcOut = .next t ∧ t.status = .faulted (.fetchAddress 64)) :=
  ⟨⟨rfl, by decide, _, rfl, rfl⟩, ⟨rfl, by decide, _, rfl, rfl⟩, ⟨rfl, by decide, _, rfl, rfl⟩,
    ⟨rfl, by decide, _, rfl, rfl⟩⟩

theorem witness_AFaultCommitsNothing :
    sLwOut.status = .running ∧ ∃ t, clockEdge false sLwOut = .next t ∧ t.status = .faulted (.dataAddress 64) :=
  ⟨rfl, _, rfl, rfl⟩

theorem witness_HaltedIsEnteredByHaltAndFinal :
    (sHalt.status = .running ∧ decode sHalt.memwb.instr = .halt ∧
      ∃ t, clockEdge false sHalt = .next t ∧ t.status = .halted) ∧
    ∃ t, clockEdge false { sHalt with status := .halted } = .next t :=
  ⟨⟨rfl, by decide, _, rfl, rfl⟩, _, rfl⟩

theorem witness_CyclesCountCommittedCycles :
    (∃ t, clockEdge false sGo = .next t ∧ sGo.status = .running ∧ t.status = .running) ∧
    ∃ t, clockEdge false sJalr = .next t ∧ t.status ≠ .running := ⟨⟨_, rfl, rfl, rfl⟩, _, rfl, by decide⟩

theorem witness_NoInstructionUsesCycles : ∃ t, exec (.add 1 2 3) (regs 5 7) = .next t := ⟨_, rfl⟩

theorem witness_StepIgnoresTheStageField : ∃ t, step sGo = .next t := ⟨_, rfl⟩

theorem witness_WbendIsReadOnlyByForwarding :
    (sWb.status = .running ∧ (3 : RegIdx) ≠ 0 ∧ writesTo (decode sWb.memwb.instr) 3 ∧
      ∃ t, clockEdge false sWb = .next t ∧ t.status = .running ∧ decode t.exmem.instr = .noop ∧
        decode t.memwb.instr = .noop) ∧
    ∃ t, clockEdge false sJalr = .next t ∧ t.status ≠ .running :=
  ⟨⟨rfl, by decide, .inl ⟨1, 1, by decide⟩, _, rfl, rfl, by decide, by decide⟩, _, rfl, by decide⟩

theorem witness_DontCareFieldsNeverMatter : ∃ t, step sStore = .next t := ⟨_, rfl⟩

/-- Program P11 of spec/95_test_vectors.md: `halt` alone. -/
def p11 : State := launchState 64 .fault [0x01800000]

theorem witness_PcStaysInItsRange :
    p11.launch.wellFormed = true ∧ ∃ t, run 1 p11 = .next t ∧
      ∃ t', step t = .next t' ∧ t'.pc = t.pc + 1 := ⟨by decide, _, rfl, _, rfl, by decide⟩

theorem witness_SequentialEquivalence :
    p11.launch.wellFormed = true ∧ ∃ t, run 5 p11 = .next t ∧ t.status = .halted :=
  ⟨by decide, _, rfl, rfl⟩

theorem witness_CyclesOfAHaltingRun :
    p11.launch.wellFormed = true ∧ (∃ t, run 5 p11 = .next t ∧ t.status = .halted) ∧
    ∃ v h, runInOrder 0 p11 = .next v ∧ v.status = .running ∧ inOrderStep v = .next h ∧
      h.status = .halted := ⟨by decide, ⟨_, rfl, rfl⟩, _, _, rfl, rfl, rfl, rfl⟩

theorem witness_LoadErrorsAndImage :
    (2 : Nat) ≠ 1 ∧ (∀ l ∈ [[' '], []], blankLine l) ∧ ¬ blankLine ['2'] ∧ ¬ blankLine ['1'] ∧
    (∃ l ∈ [['1'], [], ['2']], parseLine l = none) ∧
    [['1'], ['2']].map parseLine = [1, 2].map some ∧ 1 < [1, 2].length ∧ [1, 2].length ≤ 2 := by
  refine ⟨by decide, ?_, ?_, ?_, ⟨[], by decide, by decide⟩, by decide, by decide, by decide⟩ <;>
    simp [blankLine, Char.isWhitespace]

theorem witness_LineGrammar :
    hexDigit 'F' = some 15 ∧ hexDigit 'f' = some 15 ∧ hexDigit 'g' = none ∧ parseLine ['0', 'x', '1'] =
      some 1 := by decide

end Sys2Proof.Tests
end

section
/-! The proofs of the obligations of spec/00_scope.md: the immediate as an integer (R8, R106) and the
reset state as a launch (R6, R50). -/

namespace Sys2Proof

/-! ### The offset field and its sign extension (R8, R101, R106) -/

theorem off16_toNat (w : Word) : (off16 w).toNat = w.toNat % 65536 := by
  simp [off16, encoding]

/-- The sign of the offset field is bit 15 of the word. -/
theorem off16_msb (w : Word) : (off16 w).msb = w.getLsbD 15 := by
  simp [off16, encoding, BitVec.msb_eq_getLsbD_last]

/-- Sign extension keeps the signed reading (R8). -/
theorem Off16.signed_sext (f : Off16) : f.sext.signed = f.toInt :=
  BitVec.toInt_signExtend_of_le (by decide)

/-- The immediate of a word, read as an integer, is its offset field in two's complement (R106). -/
theorem offset_signed (w : Word) : (offset w).signed = (off16 w).toInt :=
  Off16.signed_sext (off16 w)

/-- Settles O6: the sign of the 16-bit field decides between its two readings. -/
theorem offsetIsSignExtended : Obligations.OffsetIsSignExtended := by
  intro w
  rw [offset_signed, BitVec.toInt_eq_msb_cond, off16_msb, off16_toNat]
  rfl

end Sys2Proof

namespace Sys2Proof.Machine

/-! ### The launch of the empty image (R6, R50) -/

/-- Launching the empty image leaves both memories empty, so only the parameters differ from reset. -/
theorem launchState_nil (m : Nat) (u : DataUninit) :
    launchState m u [] =
      { State.reset with launch := { memWords := m, dataUninit := u, imageLen := 0 } } := rfl

/-- Settles O8: the parameters of reset are the defaults of R6. -/
theorem resetIsTheEmptyLaunch : Obligations.ResetIsTheEmptyLaunch :=
  (launchState_nil Config.memWords Config.dataUninit).symm

end Sys2Proof.Machine
end

section
/-! What one stage of one instruction does, and what a committed edge takes from the four stages: the
layer between `edge_cases` and the proofs of spec/10_state.md. -/

namespace Sys2Proof.Machine

/-! ### The four stages of an instruction -/

/-- Decode of the instruction a word is reads both register fields of the word, whatever the opcode
(R34, R150). -/
theorem stageWork_decode (s : State) : stageWork (decode s.ifid.instr) .decode s = decodeWord s := by
  rcases op_cases (op s.ifid.instr) with h | h | h | h | h | h | h | h
  · rw [decode_add h]; rfl
  · rw [decode_nor h]; rfl
  · rw [decode_lw h]; rfl
  · rw [decode_sw h]; rfl
  · rw [decode_beq h]; rfl
  · rw [decode_jalr h]; rfl
  · rw [decode_halt h]; rfl
  · rw [decode_noop h]; rfl

/-- The execute stage changes EXMEM only (R165). -/
theorem stageWork_execute (i : Instr) (s : State) :
    stageWork i .execute s = executeStage s (stageWork i .execute s).exmem := by
  cases i <;> rfl

/-- A branch target leaves the execute stage only for a `BEQ` (R165). -/
theorem execute_branchTarget (i : Instr) (s : State) :
    (stageWork i .execute s).exmem.branchTarget = if isBranch i then branchTarget s else 0 := by
  cases i <;> rfl

/-- Everything the memory stage of an instruction can do: a fault, a store, a taken branch, or a value
handed to MEMWB. -/
theorem memory_cases (i : Instr) (s : State) :
    (∃ f, stageWork i .memory s = raiseFault s f) ∨
    (isStore i = true ∧ inRange s s.exmem.aluResult = true ∧ stageWork i .memory s =
      memoryStage { s with dmem := s.dmem.write s.exmem.aluResult.toNat s.exmem.storeData,
                           dwritten := setMark s.dwritten s.exmem.aluResult.toNat } 0) ∨
    (isBranch i = true ∧ s.exmem.equalityFlag = true ∧
      stageWork i .memory s = redirect (memoryStage s 0) s.exmem.branchTarget) ∨
    ∃ v, stageWork i .memory s = memoryStage s v := by
  cases i with
  | add a b d => exact .inr <| .inr <| .inr ⟨_, rfl⟩
  | nor a b d => exact .inr <| .inr <| .inr ⟨_, rfl⟩
  | lw a b k =>
    rcases dmemRead_cases s s.exmem.aluResult with ⟨-, -, e⟩ | ⟨-, -, e⟩ | ⟨-, e⟩
    · exact .inr <| .inr <| .inr ⟨_, by simp only [stageWork, lwStage, e]; rfl⟩
    · exact .inl ⟨_, by simp only [stageWork, lwStage, e]; rfl⟩
    · exact .inl ⟨_, by simp only [stageWork, lwStage, e]; rfl⟩
  | sw a b k =>
    rcases dmemWrite_cases s s.exmem.aluResult s.exmem.storeData with ⟨hr, e⟩ | ⟨-, e⟩
    · exact .inr <| .inl ⟨rfl, hr, by simp only [stageWork, swStage, e]⟩
    · exact .inl ⟨_, by simp only [stageWork, swStage, e]; rfl⟩
  | beq a b k =>
    by_cases hf : s.exmem.equalityFlag = true
    · exact .inr <| .inr <| .inl ⟨rfl, hf, if_pos hf⟩
    · exact .inr <| .inr <| .inr ⟨_, if_neg hf⟩
  | jalr a b => exact .inl ⟨_, rfl⟩
  | halt => exact .inr <| .inr <| .inr ⟨_, rfl⟩
  | noop => exact .inr <| .inr <| .inr ⟨_, rfl⟩

/-- What no instruction changes in the memory stage. -/
theorem memory_keeps (i : Instr) (s : State) :
    (stageWork i .memory s).launch = s.launch ∧ (stageWork i .memory s).reg = s.reg ∧
    (stageWork i .memory s).imem = s.imem ∧ (stageWork i .memory s).wbend = s.wbend ∧
    (stageWork i .memory s).cycles = s.cycles := by
  obtain ⟨f, e⟩ | ⟨-, -, e⟩ | ⟨-, -, e⟩ | ⟨v, e⟩ := memory_cases i s <;> rw [e] <;>
    exact ⟨rfl, rfl, rfl, rfl, rfl⟩

/-- The writeback stage of an instruction other than `HALT` writes the register it names, if any, and
retires (R175). -/
theorem stageWork_writeback {i : Instr} (h : i ≠ .halt) (s : State) :
    stageWork i .writeback s = retire ((wdest i).elim s (writeReg s · s.memwb.writeData)) := by
  cases i with
  | halt => exact absurd rfl h
  | _ => rfl

/-! ### The stages of an edge -/

/-- The state an edge takes its decode results from. -/
theorem stageOf_decode (s : State) :
    stageOf s .decode = decodeWord { s with stage := some .decode } :=
  stageWork_decode { s with stage := some .decode }

/-- The words that are a `BEQ` (R104). -/
theorem isBranch_decode (w : Word) : isBranch (decode w) = decide (op w = encoding.opBeq) := by
  rw [← opNumber_decode]
  cases decode w <;> rfl

/-- The branch resolver's signal in terms of the instruction in EXMEM (R170). -/
theorem flush_iff (s : State) :
    flush s = true ↔ isBranch (decode s.exmem.instr) = true ∧ s.exmem.equalityFlag = true := by
  rw [isBranch_decode, ← Bool.and_eq_true]; rfl

/-- What an edge with a flush takes from the memory stage (R136, R170). -/
theorem stageOf_memory_of_flush {s : State} (h : flush s = true) :
    stageOf s .memory =
      redirect (memoryStage { s with stage := some .memory } 0) s.exmem.branchTarget := by
  obtain ⟨hb, hf⟩ := (flush_iff s).1 h
  change stageWork (decode s.exmem.instr) .memory _ = _
  generalize decode s.exmem.instr = i at hb ⊢
  cases i with
  | beq a b k => exact if_pos hf
  | _ => cases hb

/-- The memory stage leaves data memory and its marks, or stores at an address in range (R77). -/
theorem stageOf_memory_dmem (s : State) :
    ((stageOf s .memory).dmem = s.dmem ∧ (stageOf s .memory).dwritten = s.dwritten) ∨
    ∃ v d, inRange s v = true ∧ (stageOf s .memory).dmem = s.dmem.write v.toNat d ∧
      (stageOf s .memory).dwritten = setMark s.dwritten v.toNat := by
  unfold stageOf
  rcases memory_cases (decode (stageWord s .memory)) { s with stage := some .memory } with
    ⟨f, e⟩ | ⟨-, hr, e⟩ | ⟨-, -, e⟩ | ⟨v, e⟩ <;> rw [e]
  · exact .inl ⟨rfl, rfl⟩
  · exact .inr ⟨_, _, hr, rfl, rfl⟩
  · exact .inl ⟨rfl, rfl⟩
  · exact .inl ⟨rfl, rfl⟩

/-- The registers after the writeback stage: the one register the instruction in MEMWB names, if any,
takes MEMWB's value (R33, R175). -/
theorem stageOf_writeback_reg (s : State) :
    (stageOf s .writeback).reg =
      ((wdest (decode s.memwb.instr)).elim s (writeReg s · s.memwb.writeData)).reg := by
  change (stageWork (decode s.memwb.instr) .writeback _).reg = _
  by_cases h : decode s.memwb.instr = .halt
  · rw [h]; rfl
  · rw [stageWork_writeback h, retire_reg]
    cases wdest (decode s.memwb.instr) with
    | none => rfl
    | some d => simp only [Option.elim, writeReg_reg]

/-! ### What a commit takes from the stages (R131, R136) -/

section Commit

variable (s wb mm ex de : State) (f : IfId)

@[simp] theorem commit_reg : (commit s wb mm ex de f).reg = wb.reg := by
  unfold commit advance; split <;> [rfl; split <;> rfl]
@[simp] theorem commit_wbend : (commit s wb mm ex de f).wbend = wb.wbend := by
  unfold commit advance; split <;> [rfl; split <;> rfl]
@[simp] theorem commit_memwb : (commit s wb mm ex de f).memwb = mm.memwb := by
  unfold commit advance; split <;> [rfl; split <;> rfl]
@[simp] theorem commit_dmem : (commit s wb mm ex de f).dmem = mm.dmem := by
  unfold commit advance; split <;> [rfl; split <;> rfl]
@[simp] theorem commit_dwritten : (commit s wb mm ex de f).dwritten = mm.dwritten := by
  unfold commit advance; split <;> [rfl; split <;> rfl]
@[simp] theorem commit_cycles : (commit s wb mm ex de f).cycles = s.cycles + 1 := by
  unfold commit advance; split <;> [rfl; split <;> rfl]
@[simp] theorem commit_launch : (commit s wb mm ex de f).launch = s.launch :=
  (commit_keeps s wb mm ex de f).1
@[simp] theorem commit_imem : (commit s wb mm ex de f).imem = s.imem :=
  (commit_keeps s wb mm ex de f).2.1
@[simp] theorem commit_status : (commit s wb mm ex de f).status = s.status :=
  (commit_keeps s wb mm ex de f).2.2.1

theorem commit_pc : (commit s wb mm ex de f).pc =
    if flush s then mm.pc else if stall s then s.pc else s.pc + 1 := by
  unfold commit advance; split <;> [rfl; split <;> rfl]
theorem commit_ifid : (commit s wb mm ex de f).ifid =
    if flush s then mm.ifid else if stall s then s.ifid else f := by
  unfold commit advance; split <;> [rfl; split <;> rfl]
theorem commit_idex : (commit s wb mm ex de f).idex =
    if flush s then mm.idex else if stall s then IdEx.bubble else de.idex := by
  unfold commit advance; split <;> [rfl; split <;> rfl]
theorem commit_exmem : (commit s wb mm ex de f).exmem =
    if flush s then mm.exmem else ex.exmem := by
  unfold commit advance; split <;> [rfl; split <;> rfl]

end Commit

/-- The commit of the four stages of `s`. -/
def commitOf (s : State) (i : IfId) : State :=
  commit s (stageOf s .writeback) (stageOf s .memory) (stageOf s .execute) (stageOf s .decode) i

/-! ### Edges that stop and edges that commit -/

/-- An edge either changes `status` at most and is no committed cycle, or commits the four stages with
what the fetch unit gave (R131, R281). -/
theorem edge_stops_or_commits {s t : State} (h : clockEdge false s = .next t) :
    ((s.status ≠ .running ∨ t.status ≠ .running) ∧ ∃ st, t = { s with status := st }) ∨
    (s.status = .running ∧ t.status = .running ∧ ∃ i, fetch s = .ok i ∧ t = commitOf s i) := by
  obtain ⟨hs, rfl⟩ | ⟨-, hw, rfl⟩ | ⟨-, -, hm, rfl⟩ | ⟨-, -, -, f, -, rfl⟩ | ⟨hs, -, -, i, hf, rfl⟩ :=
    edge_cases h
  · exact .inl ⟨.inl hs, _, rfl⟩
  · exact .inl ⟨.inr hw, _, rfl⟩
  · exact .inl ⟨.inr hm, _, rfl⟩
  · exact .inl ⟨.inr (by simp), _, rfl⟩
  · exact .inr ⟨hs, (commit_status ..).trans hs, i, hf, rfl⟩

/-- A committed edge, from the statuses before and after it. -/
theorem edge_commits {s t : State} (h : clockEdge false s = .next t) (hs : s.status = .running)
    (ht : t.status = .running) : ∃ i, fetch s = .ok i ∧ t = commitOf s i := by
  obtain ⟨hn | hn, -⟩ | ⟨-, -, hc⟩ := edge_stops_or_commits h
  · exact absurd hs hn
  · exact absurd ht hn
  · exact hc

/-- An edge that commits nothing changes `status` at most. -/
theorem edge_stops {s t : State} (h : clockEdge false s = .next t)
    (hn : s.status ≠ .running ∨ t.status ≠ .running) : ∃ st, t = { s with status := st } := by
  obtain ⟨-, hc⟩ | ⟨hs, ht, -⟩ := edge_stops_or_commits h
  · exact hc
  · exact (hn.elim (· hs) (· ht)).elim

/-! ### An edge as a function of the state -/

/-- How an edge ends: with a `status` and nothing committed, or with what the fetch unit gave (R132). -/
def edgeStop (s : State) : Except Status IfId :=
  if s.status ≠ .running then .error s.status
  else if (stageOf s .writeback).status ≠ .running then .error (stageOf s .writeback).status
  else if (stageOf s .memory).status ≠ .running then .error (stageOf s .memory).status
  else (fetch s).mapError .faulted

/-- The state after an edge, for comparing the edges of two states. -/
def edgeResult (s : State) : State :=
  match edgeStop s with
  | .error st => { s with status := st }
  | .ok i => commitOf s i

theorem runStage_stageOf (s : State) (st : Stage) : runStage s st = .next (stageOf s st) :=
  runStage_eq s st

/-- The four cases of `edgeStop` are those of the cycle, in the same order. -/
theorem clockEdge_eq (s : State) : clockEdge false s = .next (edgeResult s) := by
  change runEdge s = _
  unfold runEdge edgeResult edgeStop
  by_cases hs : s.status = .running
  · rw [if_pos hs, if_neg (not_not.2 hs), cycle]
    simp only [runStage_stageOf, andThen]
    by_cases hw : (stageOf s .writeback).status = .running
    · rw [if_neg (not_not.2 hw), if_neg (not_not.2 hw)]
      by_cases hm : (stageOf s .memory).status = .running
      · rw [if_neg (not_not.2 hm), if_neg (not_not.2 hm)]
        cases fetch s <;> rfl
      · rw [if_pos hm, if_pos hm]
    · rw [if_pos hw, if_pos hw]
  · rw [if_neg hs, if_pos hs]

theorem edges_eq (k : Nat) (s : State) : edges k s = .next (edgeResult^[k] s) := by
  induction k generalizing s with
  | zero => rfl
  | succ k ih =>
    change andThen (clockEdge false s) (edges k) = _
    rw [clockEdge_eq]
    exact ih (edgeResult s)

theorem step_eq (s : State) :
    step s = .next { edgeResult^[s.burst + 1] s with burst := 0 } := by
  unfold step runBurst
  rw [edges_eq]; rfl

/-! ### Invariants of edges carried to runs -/

section Invariants

variable {P : State → Prop}

/-- What every edge keeps, of the listed kinds, a sequence of such edges keeps. -/
theorem clockEdges_keep {es : List Bool}
    (hP : ∀ rst ∈ es, ∀ s t, P s → clockEdge rst s = .next t → P t) {s t : State} (hs : P s)
    (h : clockEdges es s = .next t) : P t := by
  induction es generalizing s with
  | nil => cases h; exact hs
  | cons rst es ih =>
    obtain ⟨u, hu, ht⟩ := andThen_next h
    exact ih (fun r hr => hP r (List.mem_cons_of_mem _ hr)) (hP rst List.mem_cons_self s u hs hu) ht

/-- What every edge keeps, and `burst` does not matter to, a step keeps. -/
theorem step_keeps (hP : ∀ s t, P s → clockEdge false s = .next t → P t)
    (hb : ∀ s, P s → P { s with burst := 0 }) {s t : State} (hs : P s) (h : step s = .next t) :
    P t := by
  obtain ⟨u, hu, rfl⟩ := step_edges h
  refine hb u (clockEdges_keep (fun rst hr => ?_) hs hu)
  rw [List.eq_of_mem_replicate hr]
  exact hP

/-- What every step keeps, a run keeps. -/
theorem run_keeps (hP : ∀ s t, P s → step s = .next t → P t) {n : Nat} {s t : State} (hs : P s)
    (h : run n s = .next t) : P t := by
  induction n generalizing s with
  | zero => cases h; exact hs
  | succ n ih =>
    obtain ⟨u, hu, ht⟩ := andThen_next h
    exact ih (hP s u hs hu) ht

end Invariants

end Sys2Proof.Machine
end

section
/-! The invariants of spec/10_state.md: what reset gives (R50), `reg[0] = 0` with the canonical memories
(R32, R51) and the ranges of the addresses in flight (R35, R36, R241). -/

namespace Sys2Proof.Machine

/-! ### Words as integers (R8, R35) -/

theorem inRange_iff (s : State) (v : Word) :
    inRange s v = true ↔ 0 ≤ v.signed ∧ v.signed < (s.launch.memWords : Int) := by
  simp [inRange]

/-- A word that is not negative is read the same signed and unsigned. -/
theorem toNat_of_signed_nonneg {v : Word} (h : 0 ≤ v.signed) : (v.toNat : Int) = v.signed := by
  unfold Word.signed at *
  rw [BitVec.toInt_eq_toNat_cond] at *
  have := v.isLt
  split at h <;> split <;> omega

/-- Addition is the integers' where their sum fits in 32 signed bits. -/
theorem signed_add {v w : Word} (hl : -2 ^ 31 ≤ v.signed + w.signed)
    (hh : v.signed + w.signed < 2 ^ 31) : (v + w).signed = v.signed + w.signed := by
  unfold Word.signed at *
  rw [BitVec.toInt_add]
  exact Int.bmod_eq_of_le (by omega) (by omega)

/-- Adding 1 wraps to the lowest integer or adds 1. -/
theorem signed_add_one (v : Word) :
    (v + 1).signed = v.signed + 1 ∨ (v + 1).signed = -2 ^ 31 := by
  have hl := BitVec.le_toInt v
  have hh := BitVec.toInt_lt (x := v)
  have hone : (1 : Word).toInt = 1 := by decide
  unfold Word.signed
  rw [BitVec.toInt_add, hone, Int.bmod_def]
  omega

theorem signed_one : (1 : Word).signed = 1 := by decide

theorem Off16.toInt_bounds (k : Off16) : -32768 ≤ k.toInt ∧ k.toInt ≤ 32767 := by
  have hl := BitVec.le_toInt k
  have hh := BitVec.toInt_lt (x := k)
  omega

theorem pcFits_iff (l : Launch) : l.pcFits = true ↔ l.memWords + 32767 < 2 ^ 31 :=
  decide_eq_true_iff

/-! ### Reset and launch (R50, R71) -/

/-- The loaded image reads as its words, and 0 beyond. -/
theorem Memory.read_ofImage (ws : List Word) (a b : Nat) (h : a ≤ b) :
    (Memory.ofImage a ws).read b = ws.getD (b - a) 0 := by
  induction ws generalizing a with
  | nil => rfl
  | cons w ws ih =>
    rw [Memory.ofImage, Memory.read_listed fun c hc => (Memory.mem_ofImage hc).1]
    by_cases hb : b = a
    · simp [hb]
    · have e : b - a = b - (a + 1) + 1 := by omega
      rw [if_neg hb, ih (a + 1) (by omega), e, List.getD_cons_succ]

/-- Settles O7: the memories read as the image; every other element is a constant of the launch. -/
theorem launchHasTheResetValues : Obligations.LaunchHasTheResetValues := by
  rintro m u ws s rfl
  have hread : ∀ a, (Memory.ofImage 0 ws).read a = ws.getD a 0 :=
    fun a => Memory.read_ofImage ws 0 a a.zero_le
  have hbeyond : ∀ a, ws.length ≤ a → (Memory.ofImage 0 ws).read a = 0 :=
    fun a h => (hread a).trans (List.getD_eq_default _ _ h)
  exact ⟨rfl, fun i => by simp, fun a _ => ⟨hread a, hread a⟩,
    fun a h => ⟨hbeyond a h, hbeyond a h⟩, by simp, rfl, rfl, rfl, rfl, rfl, rfl, rfl, rfl⟩

/-! ### The invariant `Inv` (R32, R51, R70, R72, R77) -/

/-- The write port never changes register 0 (R32). -/
theorem writeReg_reg0 {s : State} (h : s.reg[0] = 0) (i : RegIdx) (v : Word) :
    (writeReg s i v).reg[0] = 0 := by
  rw [writeReg_reg]
  by_cases hi : i = 0
  · rwa [if_pos hi]
  · have hne : i.toNat ≠ 0 := fun e => hi (BitVec.eq_of_toNat_eq e)
    rw [if_neg hi, Vector.getElem_set_ne _ _ hne, h]

theorem Inv.setStatus {s : State} (h : Inv s) (st : Status) : Inv { s with status := st } :=
  ⟨h.reg0, h.imemWf, h.dmemWf, h.marks, h.markRange, h.dmemFrom⟩

theorem Inv.setBurst {s : State} (h : Inv s) (n : Nat) : Inv { s with burst := n } :=
  ⟨h.reg0, h.imemWf, h.dmemWf, h.marks, h.markRange, h.dmemFrom⟩

/-- The memory stage keeps what `Inv` says of data memory and its marks. -/
theorem Inv.memory {s : State} (h : Inv s) :
    (stageOf s .memory).dmem.wf ∧ marksWf (stageOf s .memory).dwritten ∧
    (∀ a ∈ (stageOf s .memory).dwritten, a < s.launch.memWords) ∧
    ∀ c ∈ (stageOf s .memory).dmem,
      c.1 < s.launch.imageLen ∨ c.1 ∈ (stageOf s .memory).dwritten := by
  obtain ⟨hd, hw⟩ | ⟨v, d, hr, hd, hw⟩ := stageOf_memory_dmem s <;> rw [hd, hw]
  · exact ⟨h.dmemWf, h.marks, h.markRange, h.dmemFrom⟩
  · have hv : v.toNat < s.launch.memWords := by
      obtain ⟨hl, hh⟩ := (inRange_iff s v).1 hr
      have := toNat_of_signed_nonneg hl
      omega
    refine ⟨Memory.wf_write h.dmemWf _ _, marksWf_setMark h.marks _, fun a ha => ?_, fun c hc => ?_⟩
    · obtain rfl | ha := mem_setMark.1 ha
      · exact hv
      · exact h.markRange a ha
    · obtain rfl | hc := Memory.mem_write hc
      · exact .inr (mem_setMark.2 (.inl rfl))
      · exact (h.dmemFrom c hc).imp id fun hm => mem_setMark.2 (.inr hm)

/-- The writeback stage leaves register 0 zero. -/
theorem Inv.writeback {s : State} (h : Inv s) : (stageOf s .writeback).reg[0] = 0 := by
  rw [stageOf_writeback_reg]
  cases wdest (decode s.memwb.instr) with
  | none => exact h.reg0
  | some d => exact writeReg_reg0 h.reg0 d _

theorem Inv.commitOf {s : State} (h : Inv s) (i : IfId) : Inv (commitOf s i) := by
  obtain ⟨hwf, hmarks, hrange, hfrom⟩ := h.memory
  constructor <;> simp only [Machine.commitOf, commit_reg, commit_imem, commit_dmem, commit_dwritten,
    commit_launch]
  · exact h.writeback
  · exact h.imemWf
  · exact hwf
  · exact hmarks
  · exact hrange
  · exact hfrom

/-- An edge with `rst = 0` keeps `Inv`. -/
theorem Inv.edge {s t : State} (h : Inv s) (he : clockEdge false s = .next t) : Inv t := by
  obtain ⟨-, st, rfl⟩ | ⟨-, -, i, -, rfl⟩ := edge_stops_or_commits he
  · exact h.setStatus st
  · exact h.commitOf i

/-- The reset edge keeps `Inv`: the image is the listed cells below `IMAGE_LEN` (R310). -/
theorem Inv.restart {s : State} (h : Inv s) : Inv (restart s) where
  reg0 := by simp
  imemWf := Memory.wf_filter h.imemWf _
  dmemWf := Memory.wf_filter h.imemWf _
  marks := List.Pairwise.nil
  markRange := fun _ ha => nomatch ha
  dmemFrom := fun _ hc => .inl (of_decide_eq_true (List.mem_filter.1 hc).2)

theorem inv_launchState (m : Nat) (u : DataUninit) (ws : List Word) : Inv (launchState m u ws) where
  reg0 := by simp
  imemWf := Memory.wf_ofImage ws 0
  dmemWf := Memory.wf_ofImage ws 0
  marks := List.Pairwise.nil
  markRange := fun _ ha => nomatch ha
  dmemFrom := fun c hc => .inl (by simpa using (Memory.mem_ofImage hc).2)

/-- Settles O11: every edge of the step keeps `Inv`, and `burst` is no part of it. -/
theorem stepKeepsTheInvariant : Obligations.StepKeepsTheInvariant :=
  fun _ _ hs => step_keeps (fun _ _ h => h.edge) (fun _ h => h.setBurst 0) hs

/-- Settles O12: `Inv` holds at the launch and both kinds of edge keep it. -/
theorem registerZeroIsZeroWhenReached : Obligations.RegisterZeroIsZeroWhenReached := by
  intro m u ws es t h
  refine (clockEdges_keep (P := Inv) (fun rst _ s t hs he => ?_) (inv_launchState m u ws) h).reg0
  cases rst with
  | false => exact hs.edge he
  | true => cases he; exact hs.restart

/-! ### The ranges of the addresses in flight (R35, R36, R40, R41, R42, R241) -/

/-- The range of `pc` and of a branch target (R35, R241). -/
def PcRange (m : Nat) (v : Word) : Prop := -32767 ≤ v.signed ∧ v.signed ≤ (m : Int) + 32767

/-- The range of a `pcPlus1` next to the word `w` it was fetched with (R40, R41). -/
def Plus1Range (m : Nat) (w v : Word) : Prop :=
  0 ≤ v.signed ∧ v.signed ≤ (m : Int) ∧ (op w = encoding.opBeq → 1 ≤ v.signed)

/-- The range of an immediate (R41, R106). -/
def OffsetRange (v : Word) : Prop := -32768 ≤ v.signed ∧ v.signed ≤ 32767

theorem addressRanges_iff (s : State) :
    AddressRanges s ↔ s.launch.pcFits = true ∧ PcRange s.launch.memWords s.pc ∧
      Plus1Range s.launch.memWords s.ifid.instr s.ifid.pcPlus1 ∧
      Plus1Range s.launch.memWords s.idex.instr s.idex.pcPlus1 ∧ OffsetRange s.idex.offset ∧
      PcRange s.launch.memWords s.exmem.branchTarget := by
  constructor
  · rintro ⟨hfit, hpl, hph, hfl, hfh, hfb, hdl, hdh, hdb, hol, hoh, htl, hth⟩
    exact ⟨hfit, ⟨hpl, hph⟩, ⟨hfl, hfh, hfb⟩, ⟨hdl, hdh, hdb⟩, ⟨hol, hoh⟩, htl, hth⟩
  · rintro ⟨hfit, ⟨hpl, hph⟩, ⟨hfl, hfh, hfb⟩, ⟨hdl, hdh, hdb⟩, ⟨hol, hoh⟩, htl, hth⟩
    exact ⟨hfit, hpl, hph, hfl, hfh, hfb, hdl, hdh, hdb, hol, hoh, htl, hth⟩

theorem PcRange.zero (m : Nat) : PcRange m 0 :=
  ⟨by decide, (by decide : (0 : Word).signed ≤ 0).trans (by omega)⟩

/-- A bubble's `pcPlus1` is in range: it is 0 and the word is no `BEQ`. -/
theorem Plus1Range.bubble (m : Nat) : Plus1Range m noopWord 0 :=
  ⟨by decide, (by decide : (0 : Word).signed ≤ 0).trans (by omega), fun h => absurd h (by decide)⟩

theorem OffsetRange.zero : OffsetRange 0 := by unfold OffsetRange; decide

theorem offsetRange_offset (w : Word) : OffsetRange (offset w) := by
  unfold OffsetRange
  rw [offset_signed]
  exact Off16.toInt_bounds _

/-- The address after one in range of memory, next to any word (R40, R74). -/
theorem Plus1Range.of_inRange {s : State} {v : Word} (hfit : s.launch.pcFits = true)
    (h : inRange s v = true) (w : Word) :
    (v + 1).signed = v.signed + 1 ∧ Plus1Range s.launch.memWords w (v + 1) := by
  rw [pcFits_iff] at hfit
  obtain ⟨hl, hh⟩ := (inRange_iff s v).1 h
  have hone := signed_one
  have hadd : (v + 1).signed = v.signed + 1 := by
    rw [signed_add, hone] <;> omega
  exact ⟨hadd, by omega, by omega, fun _ => by omega⟩

/-- The target of a `BEQ` in IDEX, as an integer (R241). -/
theorem branchTarget_signed {s : State} (hfit : s.launch.pcFits = true)
    (hl : 1 ≤ s.idex.pcPlus1.signed) (hh : s.idex.pcPlus1.signed ≤ (s.launch.memWords : Int))
    (ho : OffsetRange s.idex.offset) :
    (branchTarget s).signed = s.idex.pcPlus1.signed + s.idex.offset.signed := by
  rw [pcFits_iff] at hfit
  obtain ⟨hol, hoh⟩ := ho
  exact signed_add (by omega) (by omega)

/-- What the execute stage leaves as a branch target is in range. -/
theorem AddressRanges.execute {s : State} (h : AddressRanges s) :
    PcRange s.launch.memWords (stageOf s .execute).exmem.branchTarget := by
  change PcRange _ (stageWork (decode s.idex.instr) .execute _).exmem.branchTarget
  rw [execute_branchTarget, isBranch_decode]
  by_cases hb : op s.idex.instr = encoding.opBeq
  · have hl := h.idexBranch hb
    have hh := h.idexHigh
    have hol := h.offsetLow
    have hoh := h.offsetHigh
    have ht := branchTarget_signed h.fits hl hh ⟨hol, hoh⟩
    rw [decide_eq_true hb, if_pos rfl]
    change PcRange _ (branchTarget s)
    exact ⟨by omega, by omega⟩
  · rw [decide_eq_false hb]
    exact PcRange.zero _

theorem AddressRanges.commitOf {s : State} (h : AddressRanges s) {i : IfId} (hf : fetch s = .ok i) :
    AddressRanges (commitOf s i) := by
  obtain ⟨hfit, hpc, hifid, hidex, hoff, htgt⟩ := (addressRanges_iff s).1 h
  rw [addressRanges_iff]
  simp only [Machine.commitOf, commit_launch, commit_pc, commit_ifid, commit_idex, commit_exmem]
  refine ⟨hfit, ?_⟩
  by_cases hfl : flush s = true
  · simp only [hfl, if_true, stageOf_memory_of_flush hfl, redirect_pc, redirect_ifid, redirect_idex,
      redirect_exmem]
    exact ⟨htgt, Plus1Range.bubble _, Plus1Range.bubble _, OffsetRange.zero, PcRange.zero _⟩
  by_cases hst : stall s = true
  · simp only [hfl, hst, if_true]
    exact ⟨hpc, hifid, Plus1Range.bubble _, OffsetRange.zero, h.execute⟩
  · simp only [hfl, hst, stageOf_decode]
    obtain ⟨hn, -⟩ | ⟨-, hr, e⟩ | ⟨-, -, e⟩ := fetch_cases s
    · simp [hfl, hst] at hn
    · obtain rfl : _ = i := Except.ok.inj (e.symm.trans hf)
      obtain ⟨hs, hp⟩ := Plus1Range.of_inRange hfit hr (s.imem.read s.pc.toNat)
      refine ⟨⟨?_, ?_⟩, hp, hifid, offsetRange_offset _, h.execute⟩
      · exact (by omega : (-32767 : Int) ≤ 0).trans hp.1
      · exact hp.2.1.trans (by omega)
    · cases e.symm.trans hf

theorem AddressRanges.edge {s t : State} (h : AddressRanges s) (he : clockEdge false s = .next t) :
    AddressRanges t := by
  obtain ⟨-, st, rfl⟩ | ⟨-, -, i, hf, rfl⟩ := edge_stops_or_commits he
  · exact (addressRanges_iff _).2 ((addressRanges_iff s).1 h)
  · exact h.commitOf hf

/-- Settles O59: every edge of the step keeps the ranges, and `burst` is no part of them. -/
theorem stepKeepsTheAddressRanges : Obligations.StepKeepsTheAddressRanges :=
  fun _ _ hs => step_keeps (fun _ _ h => h.edge)
    (fun s h => (addressRanges_iff _).2 ((addressRanges_iff s).1 h)) hs

/-- Every address of a launch is 0, and the pipeline holds bubbles. -/
theorem addressRanges_launchState (m : Nat) (u : DataUninit) (ws : List Word)
    (h : (launchState m u ws).launch.pcFits = true) : AddressRanges (launchState m u ws) :=
  (addressRanges_iff _).2 ⟨h, PcRange.zero _, Plus1Range.bubble _, Plus1Range.bubble _,
    OffsetRange.zero, PcRange.zero _⟩

/-- Settles O10: reset is the launch of the empty image. -/
theorem launchSatisfiesTheInvariant : Obligations.LaunchSatisfiesTheInvariant := by
  refine ⟨⟨?_, inv_launchState⟩, ?_, addressRanges_launchState⟩ <;> rw [resetIsTheEmptyLaunch]
  · exact inv_launchState _ _ _
  · exact addressRanges_launchState _ _ _ (by decide)

/-- Settles O44: the sum of R241 fits in 32 signed bits. -/
theorem branchTargetIsTheInteger : Obligations.BranchTargetIsTheInteger := by
  intro s p k hfit hl hh hp hk
  have hoff : s.idex.offset.signed = k.toInt := by rw [hk]; exact Off16.signed_sext k
  have hb := Off16.toInt_bounds k
  have ht := branchTarget_signed hfit (by omega) (by omega) ⟨by omega, by omega⟩
  omega

/-- Settles O53: a next state whose `pc` wrapped would leave the ranges. -/
theorem pcStaysInItsRange : Obligations.PcStaysInItsRange := by
  intro m u ws n t hw h
  have hfit : (launchState m u ws).launch.pcFits = true := (Bool.and_eq_true_iff.1 hw).2
  have hkeep : AddressRanges t ∧ t.launch.memWords = m := by
    refine run_keeps (P := fun s => AddressRanges s ∧ s.launch.memWords = m)
      (fun s t hs he => ⟨stepKeepsTheAddressRanges s t hs.1 he, ?_⟩)
      ⟨addressRanges_launchState m u ws hfit, rfl⟩ h
    exact step_keeps (P := fun s => s.launch.memWords = m)
      (fun _ _ hm he => by rw [(edge_keeps he).1]; exact hm) (fun _ hm => hm) hs.2 he
  obtain ⟨ht, rfl⟩ := hkeep
  refine ⟨ht.pcLow, ht.pcHigh, fun t' he hpc => ?_⟩
  have hlow := (stepKeepsTheAddressRanges t t' ht he).pcLow
  rw [hpc] at hlow ⊢
  exact (signed_add_one t.pc).resolve_right (by omega)

end Sys2Proof.Machine
end

section
/-! The register file and `cycles` (spec/10_state.md R33, R34, R38, R48): who writes them, who reads them. -/

namespace Sys2Proof.Machine

/-! ### Writing a register (R33) -/

/-- The registers after a committed edge whose MEMWB names the register `d`. -/
theorem x_commitOf {s : State} {d : RegIdx} (h : wdest (decode s.memwb.instr) = some d) (f : IfId)
    (i : RegIdx) :
    x (commitOf s f) i = if i = d ∧ i ≠ 0 then s.memwb.writeData else x s i := by
  have hreg : (commitOf s f).reg = (writeReg s d s.memwb.writeData).reg := by
    rw [commitOf, commit_reg, stageOf_writeback_reg, h]; rfl
  rw [x_congr hreg, x_writeReg]
  by_cases hi : i = 0
  · subst hi
    rw [if_pos rfl, if_neg (fun h => h.2 rfl), x_zero]
  · simp only [hi, if_false, ne_eq, not_false_eq_true, and_true]

/-- Settles O26: a committed edge takes the registers of the writeback stage, any other edge keeps
them. -/
theorem onlyWritebackWritesRegisters : Obligations.OnlyWritebackWritesRegisters := by
  intro s t h
  refine ⟨fun hs ht => ?_, fun hn => ?_⟩
  · obtain ⟨f, -, rfl⟩ := edge_commits h hs ht
    refine ⟨fun a b d hi => x_commitOf ?_ f, fun a d k hi => x_commitOf ?_ f, fun hi => ?_⟩
    · obtain hi | hi := hi <;> rw [hi] <;> rfl
    · rw [hi]; rfl
    · rw [commitOf, commit_reg, stageOf_writeback_reg, hi]; rfl
  · obtain ⟨st, rfl⟩ := edge_stops h hn
    rfl

/-- Settles O48: only the commit counts. -/
theorem cyclesCountCommittedCycles : Obligations.CyclesCountCommittedCycles := by
  intro s t h
  refine ⟨fun ⟨hs, ht⟩ => ?_, fun hn => ?_⟩
  · obtain ⟨f, -, rfl⟩ := edge_commits h hs ht
    exact commit_cycles ..
  · obtain ⟨st, rfl⟩ := edge_stops h hn
    rfl

/-! ### The stages with other registers and another `cycles` (R34, R38) -/

/-- The memory stage neither reads nor writes the registers and `cycles`. -/
theorem memory_withRegCycles (i : Instr) (s : State) (r : Vector Word 8) (c : Word) :
    stageWork i .memory { s with reg := r, cycles := c } =
      { stageWork i .memory s with reg := r, cycles := c } := by
  cases i with
  | lw a b k =>
    have e : dmemRead { s with reg := r, cycles := c } = dmemRead s := rfl
    simp only [stageWork, lwStage, e]
    cases dmemRead s s.exmem.aluResult <;> rfl
  | sw a b k =>
    have e : dataAddr { s with reg := r, cycles := c } = dataAddr s := rfl
    simp only [stageWork, swStage, dmemWrite, e]
    cases dataAddr s s.exmem.aluResult <;> rfl
  | beq a b k =>
    simp only [stageWork, beqStage]
    cases s.exmem.equalityFlag <;> rfl
  | _ => rfl

/-! ### `cycles` and the instructions (R38, R291) -/

theorem writeReg_withCycles (s : State) (i : RegIdx) (v : Word) (c : Word) :
    writeReg { s with cycles := c } i v = { writeReg s i v with cycles := c } := by
  unfold writeReg
  split <;> rfl

/-- No stage of an instruction reads or writes `cycles`. -/
theorem stageWork_withCycles (i : Instr) (st : Stage) (s : State) (c : Word) :
    stageWork i st { s with cycles := c } = { stageWork i st s with cycles := c } := by
  cases st with
  | decode => cases i <;> rfl
  | execute => cases i <;> rfl
  | memory =>
    obtain ⟨-, hreg, -⟩ := memory_keeps i s
    calc stageWork i .memory { s with cycles := c }
        = { stageWork i .memory s with reg := s.reg, cycles := c } :=
          memory_withRegCycles i s s.reg c
      _ = { stageWork i .memory s with cycles := c } := by rw [← hreg]
  | writeback =>
    by_cases h : i = .halt
    · rw [h]; rfl
    · rw [stageWork_writeback h, stageWork_writeback h]
      cases wdest i with
      | none => rfl
      | some d => simp only [Option.elim, writeReg_withCycles]; rfl

theorem thenStage_withCycles (i : Instr) (st : Stage) (s : State) (c : Word) :
    thenStage (stageWork i) st { s with cycles := c } =
      { thenStage (stageWork i) st s with cycles := c } := by
  unfold thenStage
  by_cases h : s.status = .running
  · rw [if_pos h, if_pos h, stageWork_withCycles]
  · rw [if_neg h, if_neg h]

theorem inOrder_withCycles (i : Instr) (w : Word) (s : State) (c : Word) :
    inOrder w (stageWork i) { s with cycles := c } =
      { inOrder w (stageWork i) s with cycles := c } := by
  have ha : alone { s with cycles := c } w = { alone s w with cycles := c } := rfl
  simp only [inOrder, ha, thenStage_withCycles]
  split <;> rfl

/-- An instruction, whole or one stage of it, answers as if `cycles` were not there. -/
theorem exec_withCycles (i : Instr) (s : State) :
    ∃ t, exec i s = .next t ∧ ∀ c, exec i { s with cycles := c } = .next { t with cycles := c } := by
  obtain h | ⟨st, h⟩ := Option.eq_none_or_eq_some s.stage
  · have hwhole : ∀ u : State, u.stage = none → exec i u = .next (inOrder (encode i) (stageWork i) u) :=
      fun u hu => exec_none hu i
    exact ⟨_, hwhole s h, fun c => by rw [hwhole { s with cycles := c } h, inOrder_withCycles]⟩
  · have hone : ∀ u : State, u.stage = some st → exec i u = .next (stageWork i st u) := fun u hu => by
      rw [exec_eq_perform, perform, hu]
    exact ⟨_, hone s h, fun c => by rw [hone { s with cycles := c } h, stageWork_withCycles]⟩

/-- Settles O49; with `cycles` as it is, the equation says that the instruction keeps it. -/
theorem noInstructionUsesCycles : Obligations.NoInstructionUsesCycles := by
  intro i s t c h
  obtain ⟨u, hu, hc⟩ := exec_withCycles i s
  obtain rfl : u = t := Host.Outcome.next.inj (hu.symm.trans h)
  have hsame : u = { u with cycles := s.cycles } := Host.Outcome.next.inj (hu.symm.trans (hc s.cycles))
  have hcycles := congrArg State.cycles hsame
  exact ⟨hcycles, hc c⟩

/-! ### The registers and decode (R34) -/

/-- `v` is `u` but for IDEX and the registers. -/
def SameButReads (u v : State) : Prop := v = { u with idex := v.idex, reg := v.reg }

/-- With other registers a stage of an instruction gives the same but for IDEX and the registers. -/
theorem stageWork_sameButReads (i : Instr) (st : Stage) (s : State) (r : Vector Word 8) :
    SameButReads (stageWork i st s) (stageWork i st { s with reg := r }) := by
  unfold SameButReads
  cases st with
  | decode => cases i <;> rfl
  | execute => cases i <;> rfl
  | memory =>
    obtain ⟨-, -, -, -, hcycles⟩ := memory_keeps i s
    have h : stageWork i .memory { s with reg := r } =
        { stageWork i .memory s with reg := r, cycles := s.cycles } :=
      memory_withRegCycles i s r s.cycles
    rw [h, ← hcycles]
  | writeback =>
    by_cases h : i = .halt
    · rw [h]; rfl
    · rw [stageWork_writeback h, stageWork_writeback h]
      cases wdest i with
      | none => rfl
      | some d => simp only [Option.elim, writeReg]; split <;> rfl

theorem stageOf_sameButReads (s : State) (st : Stage) (r : Vector Word 8) :
    SameButReads (stageOf s st) (stageOf { s with reg := r } st) := by
  cases st <;> exact stageWork_sameButReads _ _ _ r

theorem SameButReads.status {u v : State} (h : SameButReads u v) : v.status = u.status := by
  rw [h]

/-- With other registers an edge ends in the same way. -/
theorem edgeStop_withReg (s : State) (r : Vector Word 8) :
    edgeStop { s with reg := r } = edgeStop s := by
  have hf : fetch { s with reg := r } = fetch s := rfl
  simp only [edgeStop, (stageOf_sameButReads s _ r).status, hf]

/-- With other registers a commit gives the same but for IDEX and the registers. -/
theorem commitOf_sameButReads (s : State) (r : Vector Word 8) (i : IfId) :
    SameButReads (commitOf s i) (commitOf { s with reg := r } i) := by
  have hwb := stageOf_sameButReads s .writeback r
  have hmm := stageOf_sameButReads s .memory r
  have hex := stageOf_sameButReads s .execute r
  have hfl : flush { s with reg := r } = flush s := rfl
  have hst : stall { s with reg := r } = stall s := rfl
  unfold commitOf
  rw [hwb, hmm, hex]
  unfold SameButReads commit advance
  rw [hfl, hst]
  split <;> [rfl; split <;> rfl]

/-- With other registers an edge gives the same but for IDEX and the registers. -/
theorem edgeResult_sameButReads (s : State) (r : Vector Word 8) :
    SameButReads (edgeResult s) (edgeResult { s with reg := r }) := by
  unfold edgeResult
  rw [edgeStop_withReg s r]
  cases edgeStop s with
  | error st => rfl
  | ok i => exact commitOf_sameButReads s r i

/-- Settles O25: the committed IDEX is what decode read from the snapshot, and no other stage reads the
registers. -/
theorem decodeReadsBeforeTheEdge : Obligations.DecodeReadsBeforeTheEdge := by
  intro s t h
  refine ⟨fun hs ht hfl hst => ?_, fun r => ⟨_, clockEdge_eq _, ?_⟩⟩
  · obtain ⟨f, -, rfl⟩ := edge_commits h hs ht
    rw [commitOf, commit_idex, hfl, hst, stageOf_decode]
    rfl
  · obtain rfl : edgeResult s = t := Host.Outcome.next.inj ((clockEdge_eq s).symm.trans h)
    exact edgeResult_sameButReads s r

end Sys2Proof.Machine
end

section
/-! The Don't-Care fields of the pipeline registers (spec/10_state.md R47): no stage reads one, so an edge
from two states that agree but for them gives two states that agree but for them. -/

namespace Sys2Proof.Machine

/-! ### The meaning of a pipeline register -/

@[simp] theorem keepIf_true (v : Word) : keepIf true v = v := rfl

@[simp] theorem keepIf_keepIf (b : Bool) (v : Word) : keepIf b (keepIf b v) = keepIf b v := by
  cases b <;> rfl

@[simp] theorem IdEx.meaning_meaning (r : IdEx) : r.meaning.meaning = r.meaning := by
  simp [IdEx.meaning]

@[simp] theorem ExMem.meaning_meaning (r : ExMem) : r.meaning.meaning = r.meaning := by
  simp [ExMem.meaning]

@[simp] theorem MemWb.meaning_meaning (r : MemWb) : r.meaning.meaning = r.meaning := by
  simp [MemWb.meaning]

@[simp] theorem WbEnd.meaning_meaning (r : WbEnd) : r.meaning.meaning = r.meaning := by
  simp [WbEnd.meaning]

/-! ### What the stages read -/

/-- The branch resolver reads the flag of a `BEQ` only. -/
theorem flush_erase (s : State) : flush (eraseDontCare s) = flush s := by
  rw [Bool.eq_iff_iff, flush_iff, flush_iff]
  simp only [eraseDontCare, ExMem.meaning, Bool.and_eq_true]
  tauto

theorem fetch_erase (s : State) : fetch (eraseDontCare s) = fetch s := by
  unfold fetch
  rw [flush_erase]
  rfl

/-- An `ADD` or `NOR` leaves a result in EXMEM. -/
theorem usesAlu_of_aluDest {i : Instr} {d : RegIdx} (h : aluDest i = some d) : usesAlu i = true := by
  cases i with
  | add a b c => rfl
  | nor a b c => rfl
  | _ => cases h

/-- Forwarding takes a field only from an instruction for which it is meaningful (R160). -/
theorem fwd_erase (s : State) (i : RegIdx) (v : Word) : fwd (eraseDontCare s) i v = fwd s i v := by
  have hx : aluDest (decode s.exmem.instr) = some i →
      s.exmem.meaning.aluResult = s.exmem.aluResult := fun h => by
    simp [ExMem.meaning, usesAlu_of_aluDest h]
  have hm : wdest (decode s.memwb.instr) = some i →
      s.memwb.meaning.writeData = s.memwb.writeData := fun h => by simp [MemWb.meaning, h]
  have hw : wdest (decode s.wbend.instr) = some i →
      s.wbend.meaning.writeData = s.wbend.writeData := fun h => by simp [WbEnd.meaning, h]
  unfold fwd
  exact ite_congr rfl (fun _ => rfl) fun _ => ite_congr rfl hx fun _ => ite_congr rfl hm fun _ =>
    ite_congr rfl hw fun _ => rfl

/-- The execute stage computes the same record. -/
theorem execute_erase (s : State) :
    (stageWork (decode s.idex.instr) .execute (eraseDontCare s)).exmem =
      (stageWork (decode s.idex.instr) .execute s).exmem := by
  have hA : ∀ a, readsA (decode s.idex.instr) = true →
      operandA (eraseDontCare s) a = operandA s a := fun a h => by
    unfold operandA
    rw [fwd_erase]
    simp [eraseDontCare, IdEx.meaning, h]
  have hB : ∀ b, readsB (decode s.idex.instr) = true →
      operandB (eraseDontCare s) b = operandB s b := fun b h => by
    unfold operandB
    rw [fwd_erase]
    simp [eraseDontCare, IdEx.meaning, h]
  have hk : usesOffset (decode s.idex.instr) = true →
      (eraseDontCare s).idex.offset = s.idex.offset := fun h => by
    simp [eraseDontCare, IdEx.meaning, h]
  have hp : isBranch (decode s.idex.instr) = true →
      (eraseDontCare s).idex.pcPlus1 = s.idex.pcPlus1 := fun h => by
    simp [eraseDontCare, IdEx.meaning, h]
  have hi : (eraseDontCare s).idex.instr = s.idex.instr := rfl
  generalize decode s.idex.instr = i at *
  cases i with
  | add a b d => simp only [stageWork, addStage, executeStage_exmem, hA a rfl, hB b rfl, hi]
  | nor a b d => simp only [stageWork, norStage, executeStage_exmem, hA a rfl, hB b rfl, hi]
  | lw a b k =>
    simp only [stageWork, lwStage, executeStage_exmem, effectiveAddress, hA a rfl, hk rfl, hi]
  | sw a b k =>
    simp only [stageWork, swStage, executeStage_exmem, effectiveAddress, hA a rfl, hB b rfl, hk rfl, hi]
  | beq a b k =>
    simp only [stageWork, beqStage, executeStage_exmem, branchTarget, hA a rfl, hB b rfl, hk rfl,
      hp rfl, hi]
  | jalr a b => rfl
  | halt => rfl
  | noop => rfl

/-! ### The stages of two states that agree but for Don't-Care fields -/

@[simp] theorem erase_erase (s : State) : eraseDontCare (eraseDontCare s) = eraseDontCare s := by
  simp [eraseDontCare]

theorem raiseFault_erase (s : State) (f : Fault) :
    eraseDontCare (raiseFault (eraseDontCare s) f) = eraseDontCare (raiseFault s f) := by
  simp [eraseDontCare, raiseFault]

theorem decodeWord_erase (s : State) :
    eraseDontCare (decodeWord (eraseDontCare s)) = eraseDontCare (decodeWord s) := by
  have hx : ∀ i, x (eraseDontCare s) i = x s i := fun _ => rfl
  simp only [decodeWord, decodeStage, hx]
  simp [eraseDontCare]

theorem executeStage_erase (s : State) (r : ExMem) :
    eraseDontCare (executeStage (eraseDontCare s) r) = eraseDontCare (executeStage s r) := by
  simp [eraseDontCare, executeStage]

theorem memoryStage_erase (s : State) (v : Word) :
    eraseDontCare (memoryStage (eraseDontCare s) v) = eraseDontCare (memoryStage s v) := by
  simp [eraseDontCare, memoryStage, ExMem.meaning]

theorem redirect_erase (s : State) (p : Word) :
    eraseDontCare (redirect (eraseDontCare s) p) = eraseDontCare (redirect s p) := by
  simp [eraseDontCare, redirect]

theorem retire_erase (s : State) :
    eraseDontCare (retire (eraseDontCare s)) = eraseDontCare (retire s) := by
  simp [eraseDontCare, retire, MemWb.meaning, WbEnd.meaning]

theorem writeReg_erase (s : State) (i : RegIdx) (v : Word) :
    writeReg (eraseDontCare s) i v = eraseDontCare (writeReg s i v) := by
  unfold writeReg
  split <;> rfl

/-- The memory stage of the instruction in EXMEM reads meaningful fields of EXMEM only. -/
theorem memory_erase (s : State) :
    eraseDontCare (stageWork (decode s.exmem.instr) .memory (eraseDontCare s)) =
      eraseDontCare (stageWork (decode s.exmem.instr) .memory s) := by
  have hv : usesAlu (decode s.exmem.instr) = true →
      (eraseDontCare s).exmem.aluResult = s.exmem.aluResult := fun h => by
    simp [eraseDontCare, ExMem.meaning, h]
  have hd : isStore (decode s.exmem.instr) = true →
      (eraseDontCare s).exmem.storeData = s.exmem.storeData := fun h => by
    simp [eraseDontCare, ExMem.meaning, h]
  have hb : isBranch (decode s.exmem.instr) = true →
      (eraseDontCare s).exmem.equalityFlag = s.exmem.equalityFlag ∧
      (eraseDontCare s).exmem.branchTarget = s.exmem.branchTarget := fun h => by
    simp [eraseDontCare, ExMem.meaning, h]
  generalize decode s.exmem.instr = i at *
  cases i with
  | add a b d => simp only [stageWork, addStage, hv rfl, memoryStage_erase]
  | nor a b d => simp only [stageWork, norStage, hv rfl, memoryStage_erase]
  | lw a b k =>
    have e : dmemRead (eraseDontCare s) = dmemRead s := rfl
    simp only [stageWork, lwStage, hv rfl, e]
    cases dmemRead s s.exmem.aluResult with
    | ok v => exact memoryStage_erase s v
    | error f => exact raiseFault_erase s f
  | sw a b k =>
    have e : dataAddr (eraseDontCare s) = dataAddr s := rfl
    simp only [stageWork, swStage, hv rfl, hd rfl, dmemWrite, e]
    cases dataAddr s s.exmem.aluResult with
    | ok n =>
      exact memoryStage_erase { s with dmem := s.dmem.write n s.exmem.storeData,
                                       dwritten := setMark s.dwritten n } 0
    | error f => exact raiseFault_erase s f
  | beq a b k =>
    obtain ⟨hflag, htarget⟩ := hb rfl
    simp only [stageWork, beqStage, hflag, htarget]
    split
    · rw [← redirect_erase, memoryStage_erase, redirect_erase]
    · exact memoryStage_erase s 0
  | jalr a b => exact raiseFault_erase s _
  | halt => exact memoryStage_erase s 0
  | noop => exact memoryStage_erase s 0

/-- The writeback stage writes MEMWB's value only where it is meaningful. -/
theorem writeback_erase (s : State) :
    eraseDontCare (stageWork (decode s.memwb.instr) .writeback (eraseDontCare s)) =
      eraseDontCare (stageWork (decode s.memwb.instr) .writeback s) := by
  have hv : ∀ d, wdest (decode s.memwb.instr) = some d →
      (eraseDontCare s).memwb.writeData = s.memwb.writeData := fun d h => by
    simp [eraseDontCare, MemWb.meaning, h]
  by_cases h : decode s.memwb.instr = .halt
  · rw [h]
    simp [stageWork, haltStage, eraseDontCare]
  · rw [stageWork_writeback h, stageWork_writeback h]
    cases hd : wdest (decode s.memwb.instr) with
    | none => exact retire_erase s
    | some d =>
      simp only [Option.elim, hv d hd, writeReg_erase, retire_erase]

/-- Every stage of an edge, from a state and from the same state with its Don't-Care fields zero. -/
theorem stageOf_erase (s : State) (st : Stage) :
    eraseDontCare (stageOf (eraseDontCare s) st) = eraseDontCare (stageOf s st) := by
  cases st with
  | decode => rw [stageOf_decode, stageOf_decode]; exact decodeWord_erase { s with stage := some .decode }
  | execute =>
    change eraseDontCare (stageWork (decode s.idex.instr) .execute
      (eraseDontCare { s with stage := some .execute })) = _
    rw [stageWork_execute, execute_erase { s with stage := some .execute }, executeStage_erase,
      ← stageWork_execute]
    rfl
  | memory => exact memory_erase { s with stage := some .memory }
  | writeback => exact writeback_erase { s with stage := some .writeback }

/-! ### Edges and steps of two states that agree but for Don't-Care fields -/

/-- A commit moves whole pipeline registers, so Don't-Care fields stay Don't-Care fields. -/
theorem commit_erase (s wb mm ex de : State) (i : IfId) :
    eraseDontCare (commit (eraseDontCare s) (eraseDontCare wb) (eraseDontCare mm) (eraseDontCare ex)
      (eraseDontCare de) i) = eraseDontCare (commit s wb mm ex de i) := by
  have hst : stall (eraseDontCare s) = stall s := rfl
  unfold commit advance
  rw [flush_erase, hst]
  split <;> [skip; split] <;> simp [eraseDontCare]

theorem commitOf_erase (s : State) (i : IfId) :
    eraseDontCare (commitOf (eraseDontCare s) i) = eraseDontCare (commitOf s i) := by
  unfold commitOf
  rw [← commit_erase, stageOf_erase, stageOf_erase, stageOf_erase, stageOf_erase, erase_erase,
    commit_erase]

theorem edgeStop_erase (s : State) : edgeStop (eraseDontCare s) = edgeStop s := by
  have hst : ∀ st, (stageOf (eraseDontCare s) st).status = (stageOf s st).status := fun st => by
    have h := congrArg State.status (stageOf_erase s st)
    exact h
  have hs : (eraseDontCare s).status = s.status := rfl
  simp only [edgeStop, hst, hs, fetch_erase]

theorem edgeResult_erase (s : State) :
    eraseDontCare (edgeResult (eraseDontCare s)) = eraseDontCare (edgeResult s) := by
  unfold edgeResult
  rw [edgeStop_erase]
  cases edgeStop s with
  | error st => exact erase_erase { s with status := st }
  | ok i => exact commitOf_erase s i

theorem edgeResult_iterate_erase (k : Nat) (s : State) :
    eraseDontCare (edgeResult^[k] (eraseDontCare s)) = eraseDontCare (edgeResult^[k] s) := by
  induction k generalizing s with
  | zero => exact erase_erase s
  | succ k ih =>
    calc eraseDontCare (edgeResult^[k] (edgeResult (eraseDontCare s)))
        = eraseDontCare (edgeResult^[k] (eraseDontCare (edgeResult (eraseDontCare s)))) := (ih _).symm
      _ = eraseDontCare (edgeResult^[k] (eraseDontCare (edgeResult s))) := by rw [edgeResult_erase]
      _ = eraseDontCare (edgeResult^[k] (edgeResult s)) := ih _

/-- Settles O52: a step is edges, each of which keeps agreement but for Don't-Care fields. -/
theorem dontCareFieldsNeverMatter : Obligations.DontCareFieldsNeverMatter := by
  intro s t h
  obtain rfl := Host.Outcome.next.inj ((step_eq s).symm.trans h)
  have hk := edgeResult_iterate_erase (s.burst + 1) s
  exact ⟨_, step_eq _, congrArg (fun u : State => { u with burst := 0 }) hk⟩

end Sys2Proof.Machine
end

section
/-! The memories (spec/20_memory.md): the range check with the two reads and the write (R74 to R77), the
image in instruction memory (R71, R87), and data memory from one edge to the next (R77, R84). -/

namespace Sys2Proof.Machine

/-! ### The accesses, in range and outside (R74, R75, R76, R77) -/

theorem inRange_eq_false_iff (s : State) (v : Word) :
    inRange s v = false ↔ v.signed < 0 ∨ (s.launch.memWords : Int) ≤ v.signed := by
  rw [← Bool.not_eq_true, inRange_iff]
  omega

section InRange

variable {s : State} {v : Word}

theorem imemRead_of_inRange (h : inRange s v = true) : imemRead s v = .ok (s.imem.read v.toNat) :=
  if_pos h

theorem dataAddr_of_inRange (h : inRange s v = true) : dataAddr s v = .ok v.toNat := if_pos h

theorem dmemRead_of_inRange (h : inRange s v = true) :
    dmemRead s v =
      if readable s v.toNat then .ok (s.dmem.read v.toNat) else .error (.uninitDataRead v) := by
  rw [dmemRead, dataAddr_of_inRange h]

theorem dmemWrite_of_inRange (h : inRange s v = true) (d : Word) :
    dmemWrite s v d =
      .ok { s with dmem := s.dmem.write v.toNat d, dwritten := setMark s.dwritten v.toNat } := by
  rw [dmemWrite, dataAddr_of_inRange h]

end InRange

section OutOfRange

variable {s : State} {v : Word}

theorem imemRead_of_not_inRange (h : inRange s v = false) :
    imemRead s v = .error (.fetchAddress v) := by
  rw [imemRead, h]; rfl

theorem dataAddr_of_not_inRange (h : inRange s v = false) :
    dataAddr s v = .error (.dataAddress v) := by
  rw [dataAddr, h]; rfl

theorem dmemRead_of_not_inRange (h : inRange s v = false) :
    dmemRead s v = .error (.dataAddress v) := by
  rw [dmemRead, dataAddr_of_not_inRange h]

theorem dmemWrite_of_not_inRange (h : inRange s v = false) (d : Word) :
    dmemWrite s v d = .error (.dataAddress v) := by
  rw [dmemWrite, dataAddr_of_not_inRange h]

end OutOfRange

theorem readable_iff (s : State) (a : Nat) :
    readable s a = true ↔
      a < s.launch.imageLen ∨ a ∈ s.dwritten ∨ s.launch.dataUninit = .zero := by
  simp [readable, or_assoc]

/-- A data word is unreadable when it is outside the image, never stored and `DATA_UNINIT` says so
(R76). -/
theorem readable_eq_false {s : State} {a : Nat} (hi : s.launch.imageLen ≤ a) (hw : a ∉ s.dwritten)
    (hu : s.launch.dataUninit = .fault) : readable s a = false := by
  rw [← Bool.not_eq_true, readable_iff, hu]
  rintro (h | h | h)
  · omega
  · exact hw h
  · cases h

/-- Settles O30: the range check decides between the two halves, `readable` between the two reads. -/
theorem dataAccessRules : Obligations.DataAccessRules := by
  intro s v d
  refine ⟨fun hout => ?_, fun hin => ?_⟩
  · have hr := (inRange_eq_false_iff s v).2 hout
    exact ⟨dataAddr_of_not_inRange hr, dmemRead_of_not_inRange hr, dmemWrite_of_not_inRange hr d⟩
  · have hr := (inRange_iff s v).2 hin
    refine ⟨dataAddr_of_inRange hr, fun ⟨hi, hw, hu⟩ => ?_, fun hok => ?_,
      _, dmemWrite_of_inRange hr d, rfl, fun hwf ad => Memory.read_write hwf _ ad d,
      fun ad => mem_setMark⟩
    · rw [dmemRead_of_inRange hr, readable_eq_false hi hw hu]; rfl
    · rw [dmemRead_of_inRange hr, if_pos ((readable_iff s _).2 hok)]

/-! ### The image in instruction memory (R71, R87) -/

/-- `imem` holds the image `ws`, and the launch has its length and `m` words of memory. -/
def HoldsImage (m : Nat) (ws : List Word) (s : State) : Prop :=
  s.launch.memWords = m ∧ s.launch.imageLen = ws.length ∧ s.imem = Memory.ofImage 0 ws

theorem holdsImage_launchState (m : Nat) (u : DataUninit) (ws : List Word) :
    HoldsImage m ws (launchState m u ws) := ⟨rfl, rfl, rfl⟩

/-- All of a loaded image lies below `IMAGE_LEN`, so the reset edge reads it back whole (R310). -/
theorem imageCells_of_holdsImage {m : Nat} {ws : List Word} {s : State} (h : HoldsImage m ws s) :
    imageCells s = Memory.ofImage 0 ws := by
  obtain ⟨-, hlen, himem⟩ := h
  rw [imageCells, hlen, himem]
  refine List.filter_eq_self.2 fun c hc => decide_eq_true ?_
  have := (Memory.mem_ofImage hc).2
  omega

/-- A clock edge, with `rst` 0 or 1, keeps the image. -/
theorem HoldsImage.edge {m : Nat} {ws : List Word} {rst : Bool} {s t : State}
    (h : HoldsImage m ws s) (he : clockEdge rst s = .next t) : HoldsImage m ws t := by
  cases rst with
  | false =>
    obtain ⟨hl, hi, -⟩ := edge_keeps he
    unfold HoldsImage
    rwa [hl, hi]
  | true =>
    obtain rfl : restart s = t := Host.Outcome.next.inj he
    have ⟨hm, hlen, _⟩ := h
    exact ⟨hm, hlen, imageCells_of_holdsImage h⟩

/-- Settles O13: every edge keeps the image, and a fetch reads it. -/
theorem fetchReadsTheImage : Obligations.FetchReadsTheImage := by
  intro m u ws es t h a hl hh
  obtain ⟨rfl, -, himem⟩ : HoldsImage m ws t :=
    clockEdges_keep (fun _ _ _ _ hs he => hs.edge he) (holdsImage_launchState m u ws) h
  rw [imemRead_of_inRange ((inRange_iff t a).2 ⟨hl, hh⟩), himem,
    Memory.read_ofImage ws 0 _ (Nat.zero_le _), Nat.sub_zero]

/-! ### How the writeback and the memory stage leave `status` (R131, R280) -/

/-- In the writeback stage only `HALT` changes `status`. -/
theorem writeback_status {i : Instr} (h : i ≠ .halt) (s : State) :
    (stageWork i .writeback s).status = s.status := by
  rw [stageWork_writeback h, retire_status]
  cases wdest i with
  | none => rfl
  | some d => exact writeReg_status s d _

/-- The writeback stage raises no fault. -/
theorem stageOf_writeback_status (s : State) :
    (stageOf s .writeback).status = s.status ∨ (stageOf s .writeback).status = .halted := by
  change (stageWork (decode s.memwb.instr) .writeback _).status = _ ∨
    (stageWork (decode s.memwb.instr) .writeback _).status = _
  by_cases h : decode s.memwb.instr = .halt
  · rw [h]; exact .inr rfl
  · exact .inl (writeback_status h _)

/-- `SW` in the memory stage stores at an address in range, or faults with the address (R222). -/
theorem memory_sw (a b : RegIdx) (k : Off16) (s : State) :
    (inRange s s.exmem.aluResult = true ∧ stageWork (.sw a b k) .memory s =
      memoryStage { s with dmem := s.dmem.write s.exmem.aluResult.toNat s.exmem.storeData,
                           dwritten := setMark s.dwritten s.exmem.aluResult.toNat } 0) ∨
    stageWork (.sw a b k) .memory s = raiseFault s (.dataAddress s.exmem.aluResult) := by
  simp only [stageWork, swStage]
  obtain ⟨hr, e⟩ | ⟨-, e⟩ := dmemWrite_cases s s.exmem.aluResult s.exmem.storeData
  · exact .inl ⟨hr, by rw [e]⟩
  · exact .inr (by rw [e])

/-- No fault of the memory stage is the fetch unit's. -/
theorem memory_status_ne_fetchAddress (i : Instr) {s : State} (hs : s.status = .running) (p : Word) :
    (stageWork i .memory s).status ≠ .faulted (.fetchAddress p) := by
  have hkeep : ∀ u : State, u.status = s.status → u.status ≠ .faulted (.fetchAddress p) :=
    fun u hu => by rw [hu, hs]; exact nofun
  cases i with
  | lw a b k =>
    simp only [stageWork, lwStage]
    obtain ⟨-, -, e⟩ | ⟨-, -, e⟩ | ⟨-, e⟩ := dmemRead_cases s s.exmem.aluResult <;> rw [e]
    · exact hkeep _ rfl
    · exact nofun
    · exact nofun
  | sw a b k =>
    obtain ⟨-, e⟩ | e := memory_sw a b k s <;> rw [e]
    · exact hkeep _ rfl
    · exact nofun
  | beq a b k =>
    by_cases hf : s.exmem.equalityFlag = true
    · exact hkeep _ (by simp [stageWork, beqStage, hf])
    · exact hkeep _ (by simp [stageWork, beqStage, hf])
  | jalr a b => exact nofun
  | add a b d => exact hkeep _ rfl
  | nor a b d => exact hkeep _ rfl
  | halt => exact hkeep _ rfl
  | noop => exact hkeep _ rfl

/-- An edge that records a fetch fault took it from the fetch unit (R74, R280). -/
theorem fetch_of_edge_fetchFault {s t : State} {a : Word} (hs : s.status = .running)
    (h : clockEdge false s = .next t) (ht : t.status = .faulted (.fetchAddress a)) :
    fetch s = .error (.fetchAddress a) := by
  obtain ⟨hn, -⟩ | ⟨-, -, rfl⟩ | ⟨-, -, -, rfl⟩ | ⟨-, -, -, f, hf, rfl⟩ | ⟨-, -, -, i, -, rfl⟩ :=
    edge_cases h
  · exact absurd hs hn
  · replace ht : (stageOf s .writeback).status = _ := ht
    obtain e | e := stageOf_writeback_status s
    · rw [e, hs] at ht; cases ht
    · rw [e] at ht; cases ht
  · exact absurd ht (memory_status_ne_fetchAddress (s := { s with stage := some .memory }) _ hs a)
  · rw [raiseFault_status] at ht
    rw [hf, Status.faulted.inj ht]
  · rw [commit_status, hs] at ht; cases ht

/-- Settles O29: the fetch unit faults only where it reads, at `pc`. -/
theorem fetchFaultsOnlyWhenUsed : Obligations.FetchFaultsOnlyWhenUsed := by
  refine fun s a => ⟨fun hin => imemRead_of_inRange ((inRange_iff s a).2 hin),
    fun hout => imemRead_of_not_inRange ((inRange_eq_false_iff s a).2 hout), fun t hs h ht => ?_⟩
  have hf := fetch_of_edge_fetchFault hs h ht
  obtain ⟨-, e⟩ | ⟨-, -, e⟩ | ⟨hn, hr, e⟩ := fetch_cases s
  · cases e.symm.trans hf
  · cases e.symm.trans hf
  · obtain ⟨hfl, hst⟩ := Bool.or_eq_false_iff.1 hn
    have ha : s.pc = a := Fault.fetchAddress.inj (Except.error.inj (e.symm.trans hf))
    exact ⟨ha.symm, hfl, hst, (inRange_eq_false_iff s s.pc).1 hr⟩

/-! ### Data memory from one edge to the next (R77, R84) -/

theorem isStore_iff (i : Instr) : isStore i = true ↔ ∃ a b k, i = .sw a b k := by
  cases i <;> simp [isStore]

/-- An instruction other than `SW` leaves data memory and its marks in the memory stage. -/
theorem stageOf_memory_of_not_store {s : State} (h : isStore (decode s.exmem.instr) ≠ true) :
    (stageOf s .memory).dmem = s.dmem ∧ (stageOf s .memory).dwritten = s.dwritten := by
  unfold stageOf
  obtain ⟨f, e⟩ | ⟨hi, -⟩ | ⟨-, -, e⟩ | ⟨v, e⟩ :=
    memory_cases (decode (stageWord s .memory)) { s with stage := some .memory }
  · rw [e]; exact ⟨rfl, rfl⟩
  · exact absurd hi h
  · rw [e]; exact ⟨rfl, rfl⟩
  · rw [e]; exact ⟨rfl, rfl⟩

/-- In a committed edge the memory stage raised no fault (R281). -/
theorem memory_running_of_commit {s t : State} (h : clockEdge false s = .next t)
    (hs : s.status = .running) (ht : t.status = .running) :
    (stageOf s .memory).status = .running := by
  obtain ⟨hn, -⟩ | ⟨-, hw, rfl⟩ | ⟨-, -, hm, rfl⟩ | ⟨-, -, hm, -⟩ | ⟨-, -, hm, -⟩ := edge_cases h
  · exact absurd hs hn
  · exact absurd ht hw
  · exact absurd ht hm
  · exact hm
  · exact hm

/-- What a committed edge does with the `SW` in EXMEM: the store and its mark, at an address in range. -/
theorem edge_commits_store {s t : State} {a b : RegIdx} {k : Off16}
    (h : clockEdge false s = .next t) (hs : s.status = .running) (ht : t.status = .running)
    (hi : decode s.exmem.instr = .sw a b k) :
    inRange s s.exmem.aluResult = true ∧
    t.dmem = s.dmem.write s.exmem.aluResult.toNat s.exmem.storeData ∧
    t.dwritten = setMark s.dwritten s.exmem.aluResult.toNat ∧ t.memwb.instr = s.exmem.instr := by
  have hm := memory_running_of_commit h hs ht
  obtain ⟨f, -, rfl⟩ := edge_commits h hs ht
  simp only [commitOf, commit_dmem, commit_dwritten, commit_memwb]
  have hw : stageOf s .memory = stageWork (.sw a b k) .memory { s with stage := some .memory } := by
    simp only [stageOf, stageWord, hi]
  rw [hw] at hm ⊢
  obtain ⟨hr, e⟩ | e := memory_sw a b k { s with stage := some .memory }
  · rw [e]; exact ⟨hr, rfl, rfl, rfl⟩
  · rw [e] at hm; cases hm

/-- Settles O27: a committed edge takes data memory from the memory stage, any other edge keeps it. -/
theorem onlyAStoreChangesDataMemory : Obligations.OnlyAStoreChangesDataMemory := by
  intro s t hwf h
  obtain ⟨hlaunch, himem, -⟩ := edge_keeps h
  refine ⟨fun hs ht => ⟨fun a b k hi => ?_, fun hi => ?_⟩, fun hn => ?_, himem, hlaunch⟩
  · obtain ⟨-, hd, hw, -⟩ := edge_commits_store h hs ht hi
    rw [hd, hw]
    exact ⟨fun ad => Memory.read_write hwf _ ad _, fun ad => mem_setMark⟩
  · have hno : isStore (decode s.exmem.instr) ≠ true := fun hst =>
      have ⟨a, b, k, e⟩ := (isStore_iff _).1 hst
      hi a b k e
    obtain ⟨f, -, rfl⟩ := edge_commits h hs ht
    rw [commitOf, commit_dmem, commit_dwritten]
    exact stageOf_memory_of_not_store hno
  · obtain ⟨st, rfl⟩ := edge_stops h hn
    exact ⟨rfl, rfl⟩

/-- Where the load in EXMEM has a readable address, its memory stage hands the word read to MEMWB
(R220). -/
theorem stageOf_memory_load {s : State} {a b : RegIdx} {k : Off16}
    (hi : decode s.exmem.instr = .lw a b k) (hr : inRange s s.exmem.aluResult = true)
    (hrd : readable s s.exmem.aluResult.toNat = true) :
    stageOf s .memory = memoryStage { s with stage := some .memory }
      (s.dmem.read s.exmem.aluResult.toNat) := by
  have e : dmemRead { s with stage := some .memory } s.exmem.aluResult =
      .ok (s.dmem.read s.exmem.aluResult.toNat) :=
    (dmemRead_of_inRange (s := s) hr).trans (if_pos hrd)
  simp only [stageOf, stageWord, hi, stageWork, lwStage, e]

/-- Where the writeback and the memory stage stop nothing, only the fetch unit can keep an edge from
committing (R132). -/
theorem edge_commits_or_fetchFault {s t : State} (h : clockEdge false s = .next t)
    (hs : s.status = .running) (hw : (stageOf s .writeback).status = .running)
    (hm : (stageOf s .memory).status = .running) :
    (∃ p, t.status = .faulted (.fetchAddress p)) ∨
    (t.status = .running ∧ t.memwb = (stageOf s .memory).memwb) := by
  obtain ⟨hn, -⟩ | ⟨-, hn, -⟩ | ⟨-, -, hn, -⟩ | ⟨-, -, -, f, hf, rfl⟩ | ⟨-, -, -, i, -, rfl⟩ :=
    edge_cases h
  · exact absurd hs hn
  · exact absurd hw hn
  · exact absurd hm hn
  · obtain ⟨-, e⟩ | ⟨-, -, e⟩ | ⟨-, -, e⟩ := fetch_cases s
    · cases e.symm.trans hf
    · cases e.symm.trans hf
    · obtain rfl : _ = f := Except.error.inj (e.symm.trans hf)
      exact .inl ⟨_, rfl⟩
  · exact .inr ⟨(commit_status ..).trans hs, commit_memwb ..⟩

/-- Settles O28: the store left its address marked, so the load may read it, and the `SW`, by then in
MEMWB, stops nothing. -/
theorem aStoreIsSeenByTheNextLoad : Obligations.AStoreIsSeenByTheNextLoad := by
  intro s t u a b c d j k hwf hs hsw hst ht hlw haddr htu
  obtain ⟨hr, hdmem, hmarks, hmemwb⟩ := edge_commits_store hst hs ht hsw
  have hr' : inRange t t.exmem.aluResult = true := by
    rw [inRange_iff] at hr ⊢
    rwa [(edge_keeps hst).1, haddr]
  have hrd : readable t t.exmem.aluResult.toNat = true :=
    (readable_iff t _).2 (.inr (.inl (by rw [hmarks, haddr]; exact mem_setMark.2 (.inl rfl))))
  have hread : t.dmem.read t.exmem.aluResult.toNat = s.exmem.storeData := by
    rw [hdmem, haddr, Memory.read_write hwf, if_pos rfl]
  have hmem := stageOf_memory_load hlw hr' hrd
  rw [hread] at hmem
  have hwb : (stageOf t .writeback).status = .running :=
    (writeback_status (by rw [stageWord, hmemwb, hsw]; exact nofun) _).trans ht
  obtain hp | ⟨hu, hdata⟩ := edge_commits_or_fetchFault htu ht hwb (by rw [hmem]; exact ht)
  · exact .inl hp
  · exact .inr ⟨hu, by rw [hdata, hmem, memoryStage_memwb]⟩

end Sys2Proof.Machine
end

section
/-! The proofs of the obligations of spec/30_encoding.md: the fields of a word (R101), the words of
the formats (R102, R103), decoding after encoding, the unused bits (R109), and that every step
answers (R110, R281). -/

namespace Sys2Proof

/-! ### A field put at its place (R103) -/

section Place

variable {n m lo lo' : Nat}

theorem getLsbD_place (f : BitVec n) (lo i : Nat) :
    (place f lo).getLsbD i = (decide (i < 32) && !decide (i < lo) && f.getLsbD (i - lo)) := by
  by_cases h : i < 32 <;> simp [place, h]

/-- The field read back from its place is the one put there. -/
theorem extractLsb'_place_same (h : lo + n ≤ 32) (f : BitVec n) :
    (place f lo).extractLsb' lo n = f := by
  ext i hi
  have hw : lo + i < 32 := by omega
  rw [BitVec.getElem_extractLsb', getLsbD_place, Nat.add_sub_cancel_left]
  simp [hw, hi]

/-- The field leaves zeros in every other field's place. -/
theorem extractLsb'_place_disjoint (h : lo' + m ≤ lo ∨ lo + n ≤ lo') (f : BitVec n) :
    (place f lo).extractLsb' lo' m = 0#m := by
  ext i hi
  rw [BitVec.getElem_extractLsb', getLsbD_place, BitVec.getElem_zero]
  obtain below | above := h
  · have hlo : lo' + i < lo := by omega
    simp [hlo]
  · rw [BitVec.getLsbD_of_ge f _ (by omega), Bool.and_false]

/-- Putting a field that was read from a word back at its place clears all its other bits. -/
theorem place_extractLsb' (w : Word) (lo n : Nat) :
    place (w.extractLsb' lo n) lo = w &&& place (BitVec.allOnes n) lo := by
  ext i hi
  simp only [← BitVec.getLsbD_eq_getElem, BitVec.getLsbD_and, getLsbD_place,
    BitVec.getLsbD_extractLsb', BitVec.getLsbD_allOnes]
  by_cases hlo : i < lo
  · simp [hlo]
  · have hadd : lo + (i - lo) = i := by omega
    simp [hlo, hi, hadd, Bool.and_comm]

theorem place_toNat (h : lo + n ≤ 32) (f : BitVec n) : (place f lo).toNat = f.toNat <<< lo := by
  have hlt : f.toNat <<< lo < 2 ^ 32 :=
    (Nat.shiftLeft_lt f.isLt).trans_le (Nat.pow_le_pow_right (by decide) (by omega))
  rw [place, BitVec.toNat_shiftLeft, BitVec.toNat_setWidth_of_le (by omega), Nat.mod_eq_of_lt hlt]

end Place

/-! ### The fields of a word as numbers (R101) -/

theorem op_toNat (w : Word) : (op w).toNat = w.toNat / 2 ^ 22 % 8 := by
  rw [op, BitVec.extractLsb'_toNat, Nat.shiftRight_eq_div_pow]; rfl

theorem regA_toNat (w : Word) : (regA w).toNat = w.toNat / 2 ^ 19 % 8 := by
  rw [regA, BitVec.extractLsb'_toNat, Nat.shiftRight_eq_div_pow]; rfl

theorem regB_toNat (w : Word) : (regB w).toNat = w.toNat / 2 ^ 16 % 8 := by
  rw [regB, BitVec.extractLsb'_toNat, Nat.shiftRight_eq_div_pow]; rfl

theorem destReg_toNat (w : Word) : (destReg w).toNat = w.toNat % 8 := by
  rw [destReg, BitVec.extractLsb'_toNat]; rfl

/-- Settles O2: a field is a shift and a remainder; `off16_toNat` is the one for the offset. -/
theorem fieldExtractorsReadTheirBits : Obligations.FieldExtractorsReadTheirBits :=
  fun w => ⟨op_toNat w, regA_toNat w, regB_toNat w, destReg_toNat w, off16_toNat w⟩

/-! ### The words of the formats as numbers (R103) -/

theorem encodeRegs_toNat (o : BitVec 3) (a b : RegIdx) :
    (encodeRegs o a b).toNat = o.toNat <<< 22 ||| a.toNat <<< 19 ||| b.toNat <<< 16 := by
  rw [encodeRegs, BitVec.toNat_or, BitVec.toNat_or, place_toNat (by decide),
    place_toNat (by decide), place_toNat (by decide)]
  rfl

/-- Formats R and I: a low field under the registers. -/
theorem encodeRegs_or_place_toNat {n : Nat} (hn : n ≤ 32) (o : BitVec 3) (a b : RegIdx)
    (f : BitVec n) : (encodeRegs o a b ||| place f 0).toNat =
      o.toNat <<< 22 ||| a.toNat <<< 19 ||| b.toNat <<< 16 ||| f.toNat := by
  rw [BitVec.toNat_or, encodeRegs_toNat, place_toNat (by omega), Nat.shiftLeft_zero]

/-- Format I with the offset given as an integer, which the field holds modulo 65536. -/
theorem encodeRegs_or_place_ofInt_toNat (o : BitVec 3) (a b : RegIdx) (k : Int) :
    (encodeRegs o a b ||| place (BitVec.ofInt 16 k) 0).toNat =
      o.toNat <<< 22 ||| a.toNat <<< 19 ||| b.toNat <<< 16 ||| (k % 65536).toNat := by
  rw [encodeRegs_or_place_toNat (by decide), BitVec.toNat_ofInt]; rfl

/-- Settles O3: one of the three lemmas above for each format with operands. -/
theorem encodeWritesTheFormats : Obligations.EncodeWritesTheFormats := by
  intro a b d k _ _
  exact ⟨encodeRegs_or_place_toNat (by decide) encoding.opAdd a b d,
    encodeRegs_or_place_toNat (by decide) encoding.opNor a b d,
    encodeRegs_or_place_ofInt_toNat encoding.opLw a b k,
    encodeRegs_or_place_ofInt_toNat encoding.opSw a b k,
    encodeRegs_or_place_ofInt_toNat encoding.opBeq a b k,
    encodeRegs_toNat encoding.opJalr a b, rfl, rfl⟩

/-! ### Decoding after encoding -/

/-- Settles O1: the opcode field of each word selects its branch of the decoder. -/
theorem writtenWordsDecode : Obligations.WrittenWordsDecode :=
  ⟨decode_add rfl, decode_nor rfl, decode_lw rfl, decode_sw rfl, decode_beq rfl, decode_jalr rfl,
    decode_halt rfl, decode_noop rfl⟩

section Fields

variable {n m lo : Nat} (o : BitVec 3) (a b : RegIdx)

theorem regA_encodeRegs : regA (encodeRegs o a b) = a := by
  rw [regA, encodeRegs, BitVec.extractLsb'_or, BitVec.extractLsb'_or,
    extractLsb'_place_disjoint (by decide), extractLsb'_place_same (by decide),
    extractLsb'_place_disjoint (by decide), BitVec.zero_or, BitVec.or_zero]

theorem regB_encodeRegs : regB (encodeRegs o a b) = b := by
  rw [regB, encodeRegs, BitVec.extractLsb'_or, BitVec.extractLsb'_or,
    extractLsb'_place_disjoint (by decide), extractLsb'_place_disjoint (by decide),
    extractLsb'_place_same (by decide), BitVec.zero_or, BitVec.zero_or]

/-- The low 16 bits of a word of format J are zero. -/
theorem extractLsb'_encodeRegs (hn : n ≤ 16) : (encodeRegs o a b).extractLsb' 0 n = 0#n := by
  have high {lo : Nat} (hlo : 16 ≤ lo) (f : BitVec 3) : (place f lo).extractLsb' 0 n = 0#n :=
    extractLsb'_place_disjoint (.inl (by omega)) f
  rw [encodeRegs, BitVec.extractLsb'_or, BitVec.extractLsb'_or, high (by decide), high (by decide),
    high (by decide), BitVec.or_zero, BitVec.or_zero]

/-- A field in the low bits does not touch a field above it. -/
theorem extractLsb'_or_place_above (h : n ≤ lo) (w : Word) (f : BitVec n) :
    (w ||| place f 0).extractLsb' lo m = w.extractLsb' lo m := by
  rw [BitVec.extractLsb'_or, extractLsb'_place_disjoint (.inr (by omega)), BitVec.or_zero]

theorem regA_encodeRegs_or_place (hn : n ≤ 16) (f : BitVec n) :
    regA (encodeRegs o a b ||| place f 0) = a :=
  (extractLsb'_or_place_above (hn.trans (by decide)) _ f).trans (regA_encodeRegs o a b)

theorem regB_encodeRegs_or_place (hn : n ≤ 16) (f : BitVec n) :
    regB (encodeRegs o a b ||| place f 0) = b :=
  (extractLsb'_or_place_above hn _ f).trans (regB_encodeRegs o a b)

/-- The field in the low bits of a word of format R or I. -/
theorem extractLsb'_encodeRegs_or_place (hn : n ≤ 16) (f : BitVec n) :
    (encodeRegs o a b ||| place f 0).extractLsb' 0 n = f := by
  rw [BitVec.extractLsb'_or, extractLsb'_encodeRegs o a b hn, extractLsb'_place_same (by omega),
    BitVec.zero_or]

/-- The three operands a word of format R holds. -/
theorem fields_formatR (d : RegIdx) : regA (encodeRegs o a b ||| place d 0) = a ∧
    regB (encodeRegs o a b ||| place d 0) = b ∧ destReg (encodeRegs o a b ||| place d 0) = d :=
  ⟨regA_encodeRegs_or_place o a b (by decide) d, regB_encodeRegs_or_place o a b (by decide) d,
    extractLsb'_encodeRegs_or_place o a b (by decide) d⟩

/-- The three operands a word of format I holds. -/
theorem fields_formatI (k : Off16) : regA (encodeRegs o a b ||| place k 0) = a ∧
    regB (encodeRegs o a b ||| place k 0) = b ∧ off16 (encodeRegs o a b ||| place k 0) = k :=
  ⟨regA_encodeRegs_or_place o a b (by decide) k, regB_encodeRegs_or_place o a b (by decide) k,
    extractLsb'_encodeRegs_or_place o a b (by decide) k⟩

end Fields

/-- The opcode field selects the branch of the decoder, the format gives the operands (R105). -/
theorem decode_encode (i : Instr) : decode (encode i) = i := by
  cases i with
  | add a b d =>
    obtain ⟨ha, hb, hd⟩ := fields_formatR encoding.opAdd a b d
    exact (decode_add (Laws.OpcodeOfEncode.add a b d)).trans (congr (congrArg₂ _ ha hb) hd)
  | nor a b d =>
    obtain ⟨ha, hb, hd⟩ := fields_formatR encoding.opNor a b d
    exact (decode_nor (Laws.OpcodeOfEncode.nor a b d)).trans (congr (congrArg₂ _ ha hb) hd)
  | lw a b k =>
    obtain ⟨ha, hb, hk⟩ := fields_formatI encoding.opLw a b k
    exact (decode_lw (Laws.OpcodeOfEncode.lw a b k)).trans (congr (congrArg₂ _ ha hb) hk)
  | sw a b k =>
    obtain ⟨ha, hb, hk⟩ := fields_formatI encoding.opSw a b k
    exact (decode_sw (Laws.OpcodeOfEncode.sw a b k)).trans (congr (congrArg₂ _ ha hb) hk)
  | beq a b k =>
    obtain ⟨ha, hb, hk⟩ := fields_formatI encoding.opBeq a b k
    exact (decode_beq (Laws.OpcodeOfEncode.beq a b k)).trans (congr (congrArg₂ _ ha hb) hk)
  | jalr a b =>
    exact (decode_jalr (Laws.OpcodeOfEncode.jalr a b)).trans
      (congrArg₂ _ (regA_encodeRegs _ a b) (regB_encodeRegs _ a b))
  | halt => exact decode_halt Laws.OpcodeOfEncode.halt
  | noop => exact decode_noop Laws.OpcodeOfEncode.noop

/-- Settles O4: every instruction is well formed. -/
theorem decodeAfterEncode : Obligations.DecodeAfterEncode := fun i _ => decode_encode i

/-! ### The unused bits (R109) -/

/-- The fields of format J, put back in their places. -/
theorem encodeRegs_fields (w : Word) :
    encodeRegs (op w) (regA w) (regB w) = w &&& 0x01FF0000 := by
  rw [encodeRegs, op, regA, regB, place_extractLsb', place_extractLsb', place_extractLsb',
    ← BitVec.and_or_distrib_left, ← BitVec.and_or_distrib_left]
  rfl

/-- The fields of format R, put back in their places. -/
theorem encode_fields_formatR (w : Word) :
    encodeRegs (op w) (regA w) (regB w) ||| place (destReg w) encoding.destLo =
      w &&& 0x01FF0007 := by
  rw [encodeRegs_fields, destReg, place_extractLsb', ← BitVec.and_or_distrib_left]
  rfl

/-- The fields of format I, put back in their places. -/
theorem encode_fields_formatI (w : Word) :
    encodeRegs (op w) (regA w) (regB w) ||| place (off16 w) encoding.offLo = w &&& 0x01FFFFFF := by
  rw [encodeRegs_fields, off16, place_extractLsb', ← BitVec.and_or_distrib_left]
  rfl

/-- The opcode of a word, the one field of format O, put back in its place. -/
theorem place_op (w : Word) : place (op w) encoding.opLo = w &&& 0x01C00000 := by
  rw [op, place_extractLsb']
  rfl

/-- Each instruction is encoded by its format, with the opcode the word had. -/
theorem encode_decode (w : Word) : encode (decode w) = w &&& usedBits (decode w) := by
  rcases op_cases (op w) with h | h | h | h | h | h | h | h
  · rw [decode_add h, encode, ← h]; exact encode_fields_formatR w
  · rw [decode_nor h, encode, ← h]; exact encode_fields_formatR w
  · rw [decode_lw h, encode, ← h]; exact encode_fields_formatI w
  · rw [decode_sw h, encode, ← h]; exact encode_fields_formatI w
  · rw [decode_beq h, encode, ← h]; exact encode_fields_formatI w
  · rw [decode_jalr h, encode, ← h]; exact encodeRegs_fields w
  · rw [decode_halt h, encode, ← h]; exact place_op w
  · rw [decode_noop h, encode, ← h]; exact place_op w

/-- Settles O5: the word with its unused bits clear is an encoded instruction and decodes back. -/
theorem unusedBitsAreIgnored : Obligations.UnusedBitsAreIgnored := fun w =>
  ⟨encode_decode w, (congrArg decode (encode_decode w)).symm.trans (decode_encode (decode w))⟩

end Sys2Proof

namespace Sys2Proof.Machine

/-! ### The step answers (R110, R281) -/

/-- Settles O14: a step is its edges, and an edge that meets a fault or a `HALT` answers a state. -/
theorem everyStepAnswersNext : Obligations.EveryStepAnswersNext := fun s => ⟨_, step_eq s⟩

end Sys2Proof.Machine
end

section
/-! The ten blocks of spec/40_pipeline.md and the stages of the instructions: each port of a block is what
the stage of the instruction decoded from the word gives, so a clock edge is the block cycle (R130 to
R176). -/

namespace Sys2Proof.Machine

/-! ### The ports of the blocks -/

/-- The opcode number and the instruction of the word `w`, row by row of R104. -/
inductive DecodesTo (w : Word) : BitVec 3 → Instr → Prop where
  | add : DecodesTo w encoding.opAdd (.add (regA w) (regB w) (destReg w))
  | nor : DecodesTo w encoding.opNor (.nor (regA w) (regB w) (destReg w))
  | lw : DecodesTo w encoding.opLw (.lw (regA w) (regB w) (off16 w))
  | sw : DecodesTo w encoding.opSw (.sw (regA w) (regB w) (off16 w))
  | beq : DecodesTo w encoding.opBeq (.beq (regA w) (regB w) (off16 w))
  | jalr : DecodesTo w encoding.opJalr (.jalr (regA w) (regB w))
  | halt : DecodesTo w encoding.opHalt .halt
  | noop : DecodesTo w encoding.opNoop .noop

theorem decodesTo (w : Word) : DecodesTo w (op w) (decode w) := by
  rcases op_cases (op w) with h | h | h | h | h | h | h | h
  · rw [decode_add h, h]; exact .add
  · rw [decode_nor h, h]; exact .nor
  · rw [decode_lw h, h]; exact .lw
  · rw [decode_sw h, h]; exact .sw
  · rw [decode_beq h, h]; exact .beq
  · rw [decode_jalr h, h]; exact .jalr
  · rw [decode_halt h, h]; exact .halt
  · rw [decode_noop h, h]; exact .noop

theorem op_of_decode {w : Word} {i : Instr} (h : decode w = i) : op w = opNumber i := by
  rw [← opNumber_decode, h]

theorem opIn_single (w : Word) (o : BitVec 3) : opIn w [o] = decide (op w = o) := by
  rw [opIn, List.contains_cons, List.contains_nil, Bool.or_false]; rfl

/-- `wdest` on the fields of a word is `wdest` of the instruction (R160). -/
theorem wdestWord_eq (w : Word) : wdestWord w = wdest (decode w) := by
  have h := decodesTo w
  unfold wdestWord opIn
  generalize op w = o, decode w = i at h ⊢
  cases h <;> rfl

/-- The forwarding mux forwards from EXMEM what `aluDest` says (R160). -/
theorem aluDest_decode (w : Word) (r : RegIdx) :
    aluDest (decode w) = some r ↔ opIn w [encoding.opAdd, encoding.opNor] ∧ destReg w = r := by
  have h := decodesTo w
  unfold opIn
  generalize op w = o, decode w = i at h ⊢
  cases h with
  | add => exact ⟨fun e => ⟨rfl, Option.some.inj e⟩, fun e => congrArg some e.2⟩
  | nor => exact ⟨fun e => ⟨rfl, Option.some.inj e⟩, fun e => congrArg some e.2⟩
  | _ => exact ⟨nofun, nofun⟩

/-- The forwarding mux is `fwd` (R160). -/
theorem fwdWord_eq (s : State) (i : RegIdx) (v : Word) :
    fwdWord s.exmem s.memwb s.wbend i v = fwd s i v := by
  simp only [fwdWord, fwd, wdestWord_eq, ← aluDest_decode]

theorem forwardingMux_eq (s : State) :
    forwardingMux s.idex s.exmem s.memwb s.wbend =
      (operandA s (regA s.idex.instr), operandB s (regB s.idex.instr)) :=
  Prod.ext (fwdWord_eq s _ _) (fwdWord_eq s _ _)

theorem branchResolver_eq (s : State) :
    branchResolver s.exmem = { flush := flush s, flushTarget := s.exmem.branchTarget } := by
  rw [branchResolver, opIn_single]; rfl

/-- The hazard detector is `hazard` (R145). -/
theorem hazardDetector_eq (e f : Word) : hazardDetector e f = hazard e f := by
  unfold hazardDetector hazard
  rw [opIn_single]
  by_cases he : op e = encoding.opLw
  · have h := decodesTo f
    simp only [decide_eq_true he, if_true, Bool.true_and, opIn]
    generalize op f = o, decode f = i at h ⊢
    cases h <;> rfl
  · simp only [decide_eq_false he, Bool.false_and]; rfl

/-- The ALU block computes what the execute line of the instruction in IDEX leaves in EXMEM (R165). -/
theorem execute_exmem (s : State) :
    (stageWork (decode s.idex.instr) .execute s).exmem =
      executeAlu s.idex (operandA s (regA s.idex.instr)) (operandB s (regB s.idex.instr)) false := by
  have h := decodesTo s.idex.instr
  unfold executeAlu opIn
  generalize op s.idex.instr = o, decode s.idex.instr = i at h ⊢
  cases h <;> rfl

/-- What the memory line of an instruction does, in terms of the memory block's answer: `t` is the state
after the line (R171). -/
def MemoryAnswer (s t : State) : Except Fault MemWb → Prop
  | .error f => t.status = .faulted f
  | .ok m => t.status = s.status ∧ t.memwb = m ∧ t.dmem = (dmemEdge s (memoryLoadStore s)).1 ∧
      t.dwritten = (dmemEdge s (memoryLoadStore s)).2

/-- The memory block does what the memory line of the instruction in EXMEM does (R171). -/
theorem memoryAnswer (s : State) :
    MemoryAnswer s (stageWork (decode s.exmem.instr) .memory s) (memoryLoadStore s).memwbNext := by
  rcases op_cases (op s.exmem.instr) with h | h | h | h | h | h | h | h <;>
    simp only [memoryLoadStore, dmemEdge, MemoryAnswer, opIn, h]
  · rw [decode_add h]; exact ⟨rfl, rfl, rfl, rfl⟩
  · rw [decode_nor h]; exact ⟨rfl, rfl, rfl, rfl⟩
  · rw [decode_lw h, stageWork, lwStage]
    cases dmemRead s s.exmem.aluResult with
    | error f => rfl
    | ok v => exact ⟨rfl, rfl, rfl, rfl⟩
  · rw [decode_sw h, stageWork, swStage, dmemWrite]
    obtain ⟨-, e⟩ | ⟨-, e⟩ := dataAddr_cases s s.exmem.aluResult <;> rw [e]
    · exact ⟨rfl, rfl, rfl, rfl⟩
    · rfl
  · rw [decode_beq h, stageWork, beqStage]
    cases s.exmem.equalityFlag <;> exact ⟨rfl, rfl, rfl, rfl⟩
  · rw [decode_jalr h]; rfl
  · rw [decode_halt h]; exact ⟨rfl, rfl, rfl, rfl⟩
  · rw [decode_noop h]; exact ⟨rfl, rfl, rfl, rfl⟩

/-- The memory block answers a MEMWB where the memory line leaves the CORE running. -/
theorem MemoryAnswer.ok_of_running {s t : State} {a : Except Fault MemWb} (h : MemoryAnswer s t a)
    (ht : t.status = .running) : ∃ m, a = .ok m := by
  cases a with
  | error f => cases h.symm.trans ht
  | ok m => exact ⟨m, rfl⟩

/-- The writeback block's register write is that of the instruction in MEMWB (R175). -/
theorem rfWrite_writebackBlock (s : State) :
    rfWrite s.reg (writebackBlock s.memwb).rfWe ((writebackBlock s.memwb).rfWaddr.getD 0)
      (writebackBlock s.memwb).rfWdata = (stageOf s .writeback).reg := by
  rw [stageOf_writeback_reg]
  simp only [writebackBlock, wdestWord_eq]
  cases wdest (decode s.memwb.instr) with
  | none => rfl
  | some d =>
    by_cases hd : d = 0 <;> simp [rfWrite, writeReg_reg, hd]

theorem haltSeen_iff (s : State) : haltSeen s = true ↔ decode s.memwb.instr = .halt := by
  have h := decodesTo s.memwb.instr
  unfold haltSeen opIn
  generalize op s.memwb.instr = o, decode s.memwb.instr = i at h ⊢
  cases h with
  | halt => exact ⟨fun _ => rfl, fun _ => rfl⟩
  | _ => exact ⟨nofun, nofun⟩

/-! ### The block cycle, event by event (R131, R132) -/

/-- The committed cycle of the blocks, with the next MEMWB `m`, the next `pc` and the next IFID. -/
def blockCommit (s : State) (m : MemWb) (p : Word × IfId) : State :=
  { s with
    pc := p.1, ifid := p.2, idex := (decodeBlock s.ifid s.reg (stall s) (flush s)).idexNext
    exmem := executeAlu s.idex (operandA s (regA s.idex.instr)) (operandB s (regB s.idex.instr)) (flush s)
    memwb := m, wbend := { instr := s.memwb.instr, writeData := s.memwb.writeData }
    reg := rfWrite s.reg (writebackBlock s.memwb).rfWe ((writebackBlock s.memwb).rfWaddr.getD 0)
      (writebackBlock s.memwb).rfWdata
    dmem := (dmemEdge s (memoryLoadStore s)).1
    dwritten := (dmemEdge s (memoryLoadStore s)).2, cycles := s.cycles + 1 }

/-- The fetch block on the signals of the cycle. -/
def fetchAnswer (s : State) : Except Fault (Word × IfId) :=
  (fetchUnit s (stall s) (flush s) s.exmem.branchTarget).pcIfidNext

/-- The block cycle with the signals the stages use. -/
theorem blockCycle_eq (s : State) : blockCycle s =
    if decode s.memwb.instr = .halt then { s with status := .halted }
    else match (memoryLoadStore s).memwbNext, fetchAnswer s with
      | .error f, _ => raiseFault s f
      | .ok _, .error f => raiseFault s f
      | .ok m, .ok p => blockCommit s m p := by
  unfold blockCycle
  simp only [haltSeen_iff, branchResolver_eq, hazardDetector_eq, forwardingMux_eq]
  unfold fetchAnswer stall
  cases (memoryLoadStore s).memwbNext with
  | error f => rfl
  | ok m =>
    cases (fetchUnit s (hazard s.idex.instr s.ifid.instr) (flush s) s.exmem.branchTarget).pcIfidNext <;>
      rfl

section BlockCycle

variable {s : State} {f : Fault} {m : MemWb} {p : Word × IfId}

theorem blockStep_of_not_running (hs : s.status ≠ .running) : blockStep s = s := if_neg hs

theorem blockStep_of_halt (hs : s.status = .running) (hh : decode s.memwb.instr = .halt) :
    blockStep s = { s with status := .halted } := by
  rw [blockStep, if_pos hs, blockCycle_eq, if_pos hh]

theorem blockStep_of_memoryFault (hs : s.status = .running) (hh : decode s.memwb.instr ≠ .halt)
    (hm : (memoryLoadStore s).memwbNext = .error f) : blockStep s = raiseFault s f := by
  rw [blockStep, if_pos hs, blockCycle_eq, if_neg hh, hm]

theorem blockStep_of_fetchFault (hs : s.status = .running) (hh : decode s.memwb.instr ≠ .halt)
    (hm : (memoryLoadStore s).memwbNext = .ok m) (hp : fetchAnswer s = .error f) :
    blockStep s = raiseFault s f := by
  rw [blockStep, if_pos hs, blockCycle_eq, if_neg hh, hm, hp]

theorem blockStep_of_ok (hs : s.status = .running) (hh : decode s.memwb.instr ≠ .halt)
    (hm : (memoryLoadStore s).memwbNext = .ok m) (hp : fetchAnswer s = .ok p) :
    blockStep s = blockCommit s m p := by
  rw [blockStep, if_pos hs, blockCycle_eq, if_neg hh, hm, hp]

end BlockCycle

/-- Everything the block cycle can do, oldest event first (R132). -/
theorem blockStep_cases (s : State) :
    (s.status ≠ .running ∧ blockStep s = s) ∨
    (s.status = .running ∧ decode s.memwb.instr = .halt ∧
      blockStep s = { s with status := .halted }) ∨
    (s.status = .running ∧ decode s.memwb.instr ≠ .halt ∧
      ∃ f, (memoryLoadStore s).memwbNext = .error f ∧ blockStep s = raiseFault s f) ∨
    (s.status = .running ∧ decode s.memwb.instr ≠ .halt ∧ ∃ m, (memoryLoadStore s).memwbNext = .ok m ∧
      ((∃ f, fetchAnswer s = .error f ∧ blockStep s = raiseFault s f) ∨
        ∃ p, fetchAnswer s = .ok p ∧ blockStep s = blockCommit s m p)) := by
  by_cases hs : s.status = .running
  · by_cases hh : decode s.memwb.instr = .halt
    · exact .inr <| .inl ⟨hs, hh, blockStep_of_halt hs hh⟩
    · cases hm : (memoryLoadStore s).memwbNext with
      | error f => exact .inr <| .inr <| .inl ⟨hs, hh, f, rfl, blockStep_of_memoryFault hs hh hm⟩
      | ok m =>
        refine .inr <| .inr <| .inr ⟨hs, hh, m, rfl, ?_⟩
        cases hp : fetchAnswer s with
        | error f => exact .inl ⟨f, rfl, blockStep_of_fetchFault hs hh hm hp⟩
        | ok p => exact .inr ⟨p, rfl, blockStep_of_ok hs hh hm hp⟩
  · exact .inl ⟨hs, blockStep_of_not_running hs⟩

/-! ### The edge is the block cycle -/

theorem stageOf_writeback_of_halt {s : State} (h : decode s.memwb.instr = .halt) :
    (stageOf s .writeback).status = .halted := by
  change (stageWork (decode s.memwb.instr) .writeback _).status = _
  rw [h]; rfl

/-- In an edge of a running CORE the writeback stage stops at a `HALT` only (R132). -/
theorem stageOf_writeback_running_iff {s : State} (hs : s.status = .running) :
    (stageOf s .writeback).status = .running ↔ decode s.memwb.instr ≠ .halt := by
  refine ⟨fun hw hh => ?_, fun hh => (writeback_status hh _).trans hs⟩
  rw [stageOf_writeback_of_halt hh] at hw
  cases hw

/-- An instruction other than `HALT` leaves MEMWB in WBEND (R175, R176). -/
theorem stageOf_writeback_wbend {s : State} (h : decode s.memwb.instr ≠ .halt) :
    (stageOf s .writeback).wbend = { instr := s.memwb.instr, writeData := s.memwb.writeData } := by
  change (stageWork (decode s.memwb.instr) .writeback _).wbend = _
  rw [stageWork_writeback h, retire_wbend]
  cases wdest (decode s.memwb.instr) with
  | none => rfl
  | some d => simp only [Option.elim, writeReg_memwb]

/-- The memory block's answer is what an edge takes from the memory stage (R171). -/
theorem stageOf_memoryAnswer (s : State) :
    MemoryAnswer s (stageOf s .memory) (memoryLoadStore s).memwbNext :=
  memoryAnswer { s with stage := some .memory }

/-- The selection of R136 for `pc` and IFID, where `i` is what the fetch reads. -/
def nextPcIfId (s : State) (i : IfId) : Word × IfId :=
  if flush s then (s.exmem.branchTarget, IfId.bubble)
  else if stall s then (s.pc, s.ifid)
  else (s.pc + 1, i)

/-- The fetch block adds the selection of R136 to the fetch (R140). -/
theorem fetchAnswer_eq (s : State) : fetchAnswer s = (fetch s).map (nextPcIfId s) := by
  unfold fetchAnswer fetchUnit fetch nextPcIfId
  cases flush s with
  | true => rfl
  | false =>
    cases stall s with
    | true => rfl
    | false => cases imemRead s s.pc <;> rfl

/-- An edge that commits takes from the stages what the blocks answer (R131, R136). -/
theorem commitOf_eq_blockCommit {s : State} {m : MemWb} (hh : decode s.memwb.instr ≠ .halt)
    (hm : (memoryLoadStore s).memwbNext = .ok m) (i : IfId) :
    commitOf s i = blockCommit s m (nextPcIfId s i) := by
  have ha := stageOf_memoryAnswer s
  rw [hm] at ha
  obtain ⟨-, hmemwb, hdmem, hmarks⟩ := ha
  have hex : (stageOf s .execute).exmem = executeAlu s.idex (operandA s (regA s.idex.instr))
      (operandB s (regB s.idex.instr)) false := execute_exmem { s with stage := some .execute }
  unfold commitOf commit advance blockCommit nextPcIfId
  rw [stageOf_writeback_wbend hh, hex, hmemwb, hdmem, hmarks, rfWrite_writebackBlock]
  cases hfl : flush s with
  | true => rw [stageOf_memory_of_flush hfl]; rfl
  | false =>
    cases stall s with
    | true => rfl
    | false => rw [stageOf_decode]; rfl

/-- The two descriptions of the machine agree: each event of the edge is the block cycle's. -/
theorem edgeResult_eq_blockStep (s : State) : edgeResult s = blockStep s := by
  have ha := stageOf_memoryAnswer s
  obtain ⟨hs, e⟩ | ⟨hs, hw, e⟩ | ⟨hs, hw, hm, e⟩ | ⟨hs, hw, hm, f, hf, e⟩ | ⟨hs, hw, hm, i, hf, e⟩ :=
    edge_cases (clockEdge_eq s)
  · rw [e, blockStep_of_not_running hs]
  · have hh := not_not.1 (mt (stageOf_writeback_running_iff hs).2 hw)
    rw [e, blockStep_of_halt hs hh, stageOf_writeback_of_halt hh]
  all_goals have hh := (stageOf_writeback_running_iff hs).1 hw
  · cases hmem : (memoryLoadStore s).memwbNext with
    | error f =>
      rw [hmem] at ha
      rw [e, blockStep_of_memoryFault hs hh hmem, ha]; rfl
    | ok m =>
      rw [hmem] at ha
      exact absurd (ha.1.trans hs) hm
  all_goals
    obtain ⟨m, hmem⟩ := ha.ok_of_running hm
  · rw [e, blockStep_of_fetchFault hs hh hmem (by rw [fetchAnswer_eq, hf]; rfl)]
  · rw [e, blockStep_of_ok hs hh hmem (by rw [fetchAnswer_eq, hf]; rfl)]
    exact commitOf_eq_blockCommit hh hmem i

theorem clockEdge_eq_blockStep (s : State) : clockEdge false s = .next (blockStep s) := by
  rw [clockEdge_eq, edgeResult_eq_blockStep]

end Sys2Proof.Machine
end

section
/-! The cycle as a whole (spec/40_pipeline.md R130 to R136, R176): the block cycle, the order of events, the
selection under stall and flush, and what an edge does not read. -/

namespace Sys2Proof.Machine

/-! ### Edges and steps (R130) -/

theorem step_of_edgeResult {s : State} (hb : s.burst = 0) : step s = .next (edgeResult s) := by
  have hkeep : (edgeResult s).burst = 0 := (edge_keeps (clockEdge_eq s)).2.2.2.trans hb
  rw [step_eq, hb]
  change Host.Outcome.next { edgeResult s with burst := 0 } = _
  rw [← hkeep]

/-- Settles O18: `edgeResult_eq_blockStep`, and a step with `burst` 0 is one edge. -/
theorem stepIsTheBlockCycle : Obligations.StepIsTheBlockCycle := fun s =>
  ⟨clockEdge_eq_blockStep s, fun hb => by rw [step_of_edgeResult hb, edgeResult_eq_blockStep]⟩

/-- An edge neither reads nor changes the model's own fields (assumptions 2, 16). -/
theorem edgeResult_withOwnFields (s : State) (st : Option Stage) (n : Nat) :
    edgeResult { s with stage := st, burst := n } =
      { edgeResult s with stage := st, burst := n } := by
  have hm : (memoryLoadStore { s with stage := st, burst := n }).memwbNext =
    (memoryLoadStore s).memwbNext := rfl
  have hp : fetchAnswer { s with stage := st, burst := n } = fetchAnswer s := rfl
  rw [edgeResult_eq_blockStep, edgeResult_eq_blockStep]
  obtain ⟨hs, e⟩ | ⟨hs, hh, e⟩ | ⟨hs, hh, f, hf, e⟩ | ⟨hs, hh, m, hok, ⟨f, hf, e⟩ | ⟨p, hp', e⟩⟩ :=
    blockStep_cases s <;> rw [e]
  · exact blockStep_of_not_running hs
  · exact blockStep_of_halt hs hh
  · exact blockStep_of_memoryFault hs hh (hm.trans hf)
  · exact blockStep_of_fetchFault hs hh (hm.trans hok) (hp.trans hf)
  · exact blockStep_of_ok hs hh (hm.trans hok) (hp.trans hp')

/-- Setting `stage` commutes with an edge, and so with any number of them. -/
theorem commute_setStage (st : Option Stage) :
    Function.Commute (fun s : State => { s with stage := st }) edgeResult := fun s => by
  have hb : (edgeResult s).burst = s.burst := (edge_keeps (clockEdge_eq s)).2.2.2
  calc ({ edgeResult s with stage := st } : State)
      = { edgeResult s with stage := st, burst := s.burst } := by rw [← hb]
    _ = edgeResult { s with stage := st } := (edgeResult_withOwnFields s st s.burst).symm

/-- Setting `burst` commutes with an edge, and so with any number of them. -/
theorem commute_setBurst (n : Nat) :
    Function.Commute (fun s : State => { s with burst := n }) edgeResult := fun s => by
  have hst : (edgeResult s).stage = s.stage := (edge_keeps (clockEdge_eq s)).2.2.1
  calc ({ edgeResult s with burst := n } : State)
      = { edgeResult s with stage := s.stage, burst := n } := by rw [← hst]
    _ = edgeResult { s with burst := n } := (edgeResult_withOwnFields s s.stage n).symm

/-- Settles O50: no edge of the step reads or changes the field. -/
theorem stepIgnoresTheStageField : Obligations.StepIgnoresTheStageField := by
  intro s t st h
  obtain rfl := Host.Outcome.next.inj ((step_eq s).symm.trans h)
  have hset := fun st' => ((commute_setStage st').iterate_right (s.burst + 1)).eq s
  refine ⟨(congrArg State.stage (hset s.stage)).symm, ?_⟩
  rw [step_eq]
  exact congrArg (fun u : State => Host.Outcome.next { u with burst := 0 }) (hset st).symm

/-- Settles O60: the edges of a step are its first edge and those of the state after it. -/
theorem stepIsClockEdges : Obligations.StepIsClockEdges := by
  refine ⟨fun s t h => ?_, fun s u h => ?_⟩
  · obtain ⟨v, -, rfl⟩ := step_edges h
    rfl
  obtain rfl := Host.Outcome.next.inj ((clockEdge_eq s).symm.trans h)
  refine ⟨step_of_edgeResult, fun n hn => ⟨(edge_keeps h).2.2.2.trans hn, ?_⟩⟩
  have hset := ((commute_setBurst n).iterate_right (n + 1)).eq (edgeResult s)
  rw [step_eq s, hn, Function.iterate_succ_apply, step_eq]
  exact congrArg (fun v : State => Host.Outcome.next { v with burst := 0 }) hset

/-! ### The order of events (R132) -/

/-- Settles O19: the block cycle asks for the events in this order. -/
theorem eventsAreTakenOldestFirst : Obligations.EventsAreTakenOldestFirst := by
  intro s hs
  simp only [clockEdge_eq_blockStep, Host.Outcome.next.injEq]
  refine ⟨blockStep_of_halt hs, fun hh => ⟨fun f => blockStep_of_memoryFault hs hh, fun m hm =>
    ⟨fun f => blockStep_of_fetchFault hs hh hm, fun p hp => ⟨_, rfl, ?_⟩⟩⟩⟩
  rw [blockStep_of_ok hs hh hm hp]
  exact hs

/-! ### The selection under flush and stall (R136) -/

/-- A committed edge is the committed cycle of the blocks, with what the fetch read. -/
theorem edge_blockCommit {s t : State} (h : clockEdge false s = .next t) (hs : s.status = .running)
    (ht : t.status = .running) :
    ∃ m i, (memoryLoadStore s).memwbNext = .ok m ∧ fetch s = .ok i ∧
      t = blockCommit s m (nextPcIfId s i) := by
  obtain rfl := Host.Outcome.next.inj ((clockEdge_eq_blockStep s).symm.trans h)
  obtain ⟨hn, -⟩ | ⟨-, -, e⟩ | ⟨-, -, f, -, e⟩ | ⟨-, -, m, hm, ⟨f, -, e⟩ | ⟨p, hp, e⟩⟩ :=
    blockStep_cases s
  · exact absurd hs hn
  · rw [e] at ht; cases ht
  · rw [e] at ht; cases ht
  · rw [e] at ht; cases ht
  · rw [fetchAnswer_eq] at hp
    cases hf : fetch s with
    | error f => rw [hf] at hp; cases hp
    | ok i =>
      rw [hf] at hp
      obtain rfl : nextPcIfId s i = p := Except.ok.inj hp
      exact ⟨m, i, hm, rfl, e⟩

/-- In a cycle with neither a flush nor a stall the fetch reads the word at `pc` (R140). -/
theorem fetch_word {s : State} {i : IfId} (hfl : flush s = false) (hst : stall s = false)
    (hf : fetch s = .ok i) : i = { instr := s.imem.read s.pc.toNat, pcPlus1 := s.pc + 1 } := by
  obtain ⟨hn, -⟩ | ⟨-, -, e⟩ | ⟨-, -, e⟩ := fetch_cases s
  · rw [hfl, hst] at hn; cases hn
  · exact Except.ok.inj (hf.symm.trans e)
  · cases hf.symm.trans e

/-- Settles O20: the committed cycle of the blocks, field by field. -/
theorem stallAndFlushSelection : Obligations.StallAndFlushSelection := by
  intro s t hs h ht
  obtain ⟨m, i, hm, hf, rfl⟩ := edge_blockCommit h hs ht
  simp only [forwardingMux_eq, blockCommit, nextPcIfId]
  refine ⟨fun hfl => ?_, fun hfl hst => ?_, fun hfl hst => ?_, hm, trivial⟩
  · rw [hfl]; exact ⟨rfl, rfl, rfl, rfl⟩
  · rw [hfl, hst]; exact ⟨rfl, rfl, rfl, rfl⟩
  · rw [hfl, hst, fetch_word hfl hst hf]; exact ⟨rfl, rfl, rfl, rfl⟩

/-! ### The stages of an edge are instructions (R131) -/

section Stages

variable {s : State}

theorem edgeResult_of_writeback_stop (hs : s.status = .running)
    (hw : (stageOf s .writeback).status ≠ .running) :
    edgeResult s = { s with status := (stageOf s .writeback).status } := by
  rw [edgeResult, edgeStop, if_neg (not_not.2 hs), if_pos hw]

theorem edgeResult_of_memory_stop (hs : s.status = .running)
    (hw : (stageOf s .writeback).status = .running) (hm : (stageOf s .memory).status ≠ .running) :
    edgeResult s = { s with status := (stageOf s .memory).status } := by
  rw [edgeResult, edgeStop, if_neg (not_not.2 hs), if_neg (not_not.2 hw), if_pos hm]

theorem edgeStop_of_stages_run (hs : s.status = .running)
    (hw : (stageOf s .writeback).status = .running) (hm : (stageOf s .memory).status = .running) :
    edgeStop s = (fetch s).mapError .faulted := by
  rw [edgeStop, if_neg (not_not.2 hs), if_neg (not_not.2 hw), if_neg (not_not.2 hm)]

theorem edgeResult_of_fetch_ok {i : IfId} (he : edgeStop s = (fetch s).mapError .faulted)
    (hf : fetch s = .ok i) : edgeResult s = commitOf s i := by
  rw [edgeResult, he, hf]; rfl

theorem edgeResult_of_fetch_error {f : Fault} (he : edgeStop s = (fetch s).mapError .faulted)
    (hf : fetch s = .error f) : edgeResult s = raiseFault s f := by
  rw [edgeResult, he, hf]; rfl

theorem fetch_of_flush_or_stall (h : (flush s || stall s) = true) : fetch s = .ok s.ifid := if_pos h

theorem fetch_of_word (hfl : flush s = false) (hst : stall s = false) (hr : inRange s s.pc = true) :
    fetch s = .ok { instr := s.imem.read s.pc.toNat, pcPlus1 := s.pc + 1 } := by
  rw [fetch, hfl, hst, imemRead_of_inRange hr]; rfl

theorem fetch_of_fault (hfl : flush s = false) (hst : stall s = false)
    (hr : inRange s s.pc = false) : fetch s = .error (.fetchAddress s.pc) := by
  rw [fetch, hfl, hst, imemRead_of_not_inRange hr]; rfl

end Stages

/-- Settles O15: `exec` of the four instructions gives the stages of the edge. -/
theorem stepRunsTheDecodedInstructions : Obligations.StepRunsTheDecodedInstructions := by
  intro s wb mm ex de hb hs hwb hmm hex hde
  obtain rfl : stageOf s .writeback = wb := Host.Outcome.next.inj ((exec_some ..).symm.trans hwb)
  obtain rfl : stageOf s .memory = mm := Host.Outcome.next.inj ((exec_some ..).symm.trans hmm)
  obtain rfl : stageOf s .execute = ex := Host.Outcome.next.inj ((exec_some ..).symm.trans hex)
  obtain rfl : stageOf s .decode = de := Host.Outcome.next.inj ((exec_some ..).symm.trans hde)
  rw [step_of_edgeResult hb]
  refine ⟨fun hw => ?_, fun hw hm => ?_, fun hw hm => ?_⟩
  · rw [edgeResult_of_writeback_stop hs hw]
  · rw [edgeResult_of_memory_stop hs hw hm]
  have he := edgeStop_of_stages_run hs hw hm
  refine ⟨fun hfl => ?_, fun hfl hst => ?_, fun hfl hst hr => ?_, fun hfl hst hr => ?_⟩
  · rw [edgeResult_of_fetch_ok he (fetch_of_flush_or_stall (by rw [hfl, Bool.true_or]))]
    simp only [commitOf, commit, advance, hfl]; rfl
  · rw [edgeResult_of_fetch_ok he (fetch_of_flush_or_stall (by rw [hst, Bool.or_true]))]
    simp only [commitOf, commit, advance, hfl, hst]; rfl
  · rw [edgeResult_of_fetch_ok he (fetch_of_word hfl hst hr)]
    simp only [commitOf, commit, advance, hfl, hst]; rfl
  · rw [edgeResult_of_fetch_error he (fetch_of_fault hfl hst hr)]; rfl

end Sys2Proof.Machine
end

section
/-! The load-use hazard and its stall (spec/40_pipeline.md R145, R147), forwarding (R160, R162) and WBEND
(R176). -/

namespace Sys2Proof.Machine

/-! ### The hazard (R145) -/

/-- The register operands of an instruction, where its format has them (R102). -/
def regOperands : Instr → Option (RegIdx × RegIdx)
  | .add a b _ => some (a, b)
  | .nor a b _ => some (a, b)
  | .lw a b _ => some (a, b)
  | .sw a b _ => some (a, b)
  | .beq a b _ => some (a, b)
  | .jalr a b => some (a, b)
  | .halt => none
  | .noop => none

/-- The register operands of an instruction are the register fields of its word (R101, R105). -/
theorem regs_of_decode {w : Word} {j : Instr} {a b : RegIdx} (h : decode w = j)
    (hj : regOperands j = some (a, b)) : regA w = a ∧ regB w = b := by
  have hd := decodesTo w
  rw [h] at hd
  generalize op w = o at hd
  cases hd with
  | halt => cases hj
  | noop => cases hj
  | _ => exact Prod.mk.inj (Option.some.inj hj)

theorem op_of_lw {w : Word} {a r : RegIdx} {k : Off16} (h : decode w = .lw a r k) :
    op w = encoding.opLw := op_of_decode h

/-- Only a load in IDEX is a hazard. -/
theorem hazard_of_not_lw {e f : Word} (h : ∀ a r k, decode e ≠ .lw a r k) : hazard e f = false := by
  have hop : op e ≠ encoding.opLw := fun hop => h _ _ _ (decode_lw hop)
  rw [hazard, decide_eq_false hop, Bool.false_and]

/-- A load of `r` in IDEX is a hazard for the readers of `r` in IFID. -/
theorem hazard_of_lw {e : Word} {a r : RegIdx} {k : Off16} (h : decode e = .lw a r k) (f : Word) :
    hazard e f =
      ((readsA (decode f) && regA f == r) || (readsB (decode f) && regB f == r)) := by
  have hr : regB e = r := (regs_of_decode h rfl).2
  rw [hazard, decide_eq_true (op_of_lw h), Bool.true_and, hr]

/-- The bubble in IDEX is no hazard. -/
theorem stall_of_idex_bubble {s : State} (h : s.idex = IdEx.bubble) : stall s = false := by
  rw [stall, h]
  exact hazard_of_not_lw fun _ _ _ e => by cases (op_of_lw e)

/-- A stall leaves the bubble in IDEX, whether or not there is a flush (R136, R145). -/
theorem idex_bubble_of_stall {s t : State} (hs : s.status = .running)
    (h : clockEdge false s = .next t) (ht : t.status = .running) (hst : stall s = true) :
    t.idex = IdEx.bubble := by
  obtain ⟨hflush, hstall, -⟩ := stallAndFlushSelection s t hs h ht
  cases hfl : flush s with
  | true => exact (hflush hfl).2.2.1
  | false => exact (hstall hfl hst).2.2.1

/-- A load and an instruction that reads both its registers. -/
theorem hazard_of_lw_both {e f : Word} {j : Instr} {a r b c : RegIdx} {k : Off16}
    (h : decode e = .lw a r k) (hf : decode f = j) (hj : regOperands j = some (b, c))
    (hA : readsA j = true) (hB : readsB j = true) : hazard e f = (b == r || c == r) := by
  obtain ⟨rfl, rfl⟩ := regs_of_decode hf hj
  rw [hazard_of_lw h, hf, hA, hB, Bool.true_and, Bool.true_and]

/-- A load and an instruction that does not read its `regB`. -/
theorem hazard_of_lw_left {e f : Word} {j : Instr} {a r : RegIdx} {k : Off16}
    (h : decode e = .lw a r k) (hf : decode f = j) (hB : readsB j = false) :
    hazard e f = (readsA j && regA f == r) := by
  rw [hazard_of_lw h, hf, hB, Bool.false_and, Bool.or_false]

/-- Settles O21: the reader in IFID decides the hazard, and the bubble behind the load ends it. -/
theorem loadUseHazardRule : Obligations.LoadUseHazardRule := by
  refine ⟨fun e f => ⟨hazard_of_not_lw, fun a r k h => ⟨fun b c d hf => ?_, fun b c d hf => ?_,
    fun b c j hf => ?_, fun b c j hf => ?_, fun b c j hf => ?_, fun b c hf => ?_, fun hf => ?_,
    fun hf => ?_⟩⟩, fun s t hs h ht hz hfl => ?_⟩
  · exact hazard_of_lw_both h hf rfl rfl rfl
  · exact hazard_of_lw_both h hf rfl rfl rfl
  · obtain ⟨rfl, -⟩ := regs_of_decode hf rfl
    exact hazard_of_lw_left h hf rfl
  · exact hazard_of_lw_both h hf rfl rfl rfl
  · exact hazard_of_lw_both h hf rfl rfl rfl
  · exact hazard_of_lw_left h hf rfl
  · exact hazard_of_lw_left h hf rfl
  · exact hazard_of_lw_left h hf rfl
  · obtain ⟨-, hstall, -⟩ := stallAndFlushSelection s t hs h ht
    obtain ⟨hpc, hifid, hidex, -⟩ := hstall hfl hz
    exact ⟨hidex, hifid, hpc, stall_of_idex_bubble hidex⟩

/-- What stalls is a load in IDEX with a reader in IFID. -/
theorem load_and_reader_of_hazard {e f : Word} (h : hazard e f = true) :
    (∃ a r k, decode e = .lw a r k) ∧ (readsA (decode f) = true ∨ readsB (decode f) = true) := by
  simp only [hazard, Bool.and_eq_true, Bool.or_eq_true, decide_eq_true_eq] at h
  obtain ⟨he, hr⟩ := h
  exact ⟨⟨_, _, _, decode_lw he⟩, hr.imp And.left And.left⟩

/-- Settles O22: `HALT`, `NOOP` and `JALR` read no register, and a stall leaves the bubble in IDEX. -/
theorem aStallLastsOneCycle : Obligations.AStallLastsOneCycle := by
  refine fun s => ⟨fun hst => ?_, fun e m b => rfl, fun t hs hst h ht => ?_⟩
  · obtain ⟨hlw, hr⟩ := load_and_reader_of_hazard hst
    have hne : ∀ j, readsA j = false → readsB j = false → decode s.ifid.instr ≠ j := by
      rintro j hA hB rfl
      rw [hA, hB] at hr
      exact hr.elim nofun nofun
    exact ⟨hlw, hne _ rfl rfl, hne _ rfl rfl, fun a b => hne _ rfl rfl⟩
  · have hb := idex_bubble_of_stall hs h ht hst
    exact ⟨hb, stall_of_idex_bubble hb⟩

/-! ### Forwarding (R160) -/

theorem writesTo_iff (j : Instr) (i : RegIdx) : writesTo j i ↔ wdest j = some i := by
  cases j <;> simp [writesTo, wdest]

theorem aluDest_eq_some_iff (j : Instr) (i : RegIdx) :
    aluDest j = some i ↔ ∃ a b, j = .add a b i ∨ j = .nor a b i := by
  cases j <;> simp [aluDest]

section Forwarding

variable {s : State} {i : RegIdx}

@[simp] theorem fwd_zero (s : State) (v : Word) : fwd s 0 v = v := if_pos rfl

theorem fwd_exmem (hi : i ≠ 0) (hx : aluDest (decode s.exmem.instr) = some i) (v : Word) :
    fwd s i v = s.exmem.aluResult := by
  rw [fwd, if_neg hi, if_pos hx]

theorem fwd_memwb (hi : i ≠ 0) (hx : aluDest (decode s.exmem.instr) ≠ some i)
    (hm : wdest (decode s.memwb.instr) = some i) (v : Word) : fwd s i v = s.memwb.writeData := by
  rw [fwd, if_neg hi, if_neg hx, if_pos hm]

theorem fwd_wbend (hi : i ≠ 0) (hx : aluDest (decode s.exmem.instr) ≠ some i)
    (hm : wdest (decode s.memwb.instr) ≠ some i) (hw : wdest (decode s.wbend.instr) = some i)
    (v : Word) : fwd s i v = s.wbend.writeData := by
  rw [fwd, if_neg hi, if_neg hx, if_neg hm, if_pos hw]

theorem fwd_read (hi : i ≠ 0) (hx : aluDest (decode s.exmem.instr) ≠ some i)
    (hm : wdest (decode s.memwb.instr) ≠ some i) (hw : wdest (decode s.wbend.instr) ≠ some i)
    (v : Word) : fwd s i v = v := by
  rw [fwd, if_neg hi, if_neg hx, if_neg hm, if_neg hw]

end Forwarding

/-- No `ADD` or `NOR` of an instruction names the register. -/
theorem aluDest_ne {j : Instr} {i : RegIdx} (h : ∀ a b, j ≠ .add a b i ∧ j ≠ .nor a b i) :
    aluDest j ≠ some i := fun e => by
  obtain ⟨a, b, e | e⟩ := (aluDest_eq_some_iff j i).1 e
  · exact (h a b).1 e
  · exact (h a b).2 e

/-- Settles O23: one rule of `fwd` for each line of the precedence. -/
theorem forwardingPrecedence : Obligations.ForwardingPrecedence := by
  simp only [Obligations.ForwardingPrecedence, writesTo_iff]
  refine fun s i v => ⟨?_, fun hi => ⟨fun hx => ?_, fun hx => ⟨fun hm => ?_, fun hm =>
    ⟨fun hw => ?_, fun hw => ?_⟩⟩⟩, rfl, rfl⟩
  · rintro rfl; exact fwd_zero s v
  · exact fwd_exmem hi ((aluDest_eq_some_iff _ i).2 hx) v
  · exact fwd_memwb hi (aluDest_ne hx) hm v
  · exact fwd_wbend hi (aluDest_ne hx) hm hw v
  · exact fwd_read hi (aluDest_ne hx) hm hw v

/-- A committed edge leaves a register that the instruction in MEMWB does not write (R33). -/
theorem x_commitOf_of_ne {s : State} {i : RegIdx} (h : wdest (decode s.memwb.instr) ≠ some i)
    (f : IfId) : x (commitOf s f) i = x s i := by
  cases hd : wdest (decode s.memwb.instr) with
  | none =>
    refine x_congr ?_ i
    rw [commitOf, commit_reg, stageOf_writeback_reg, hd]; rfl
  | some d =>
    rw [x_commitOf hd, if_neg]
    rintro ⟨rfl, -⟩
    exact h hd

/-- The value forwarded after a committed edge for a register read in its decode stage is that of the
register, unless EXMEM or MEMWB supplies it: WBEND holds the write the read missed (R162). -/
theorem fwd_of_read_before {s t : State} {i : RegIdx} (hi : i ≠ 0) (h : clockEdge false s = .next t)
    (hs : s.status = .running) (ht : t.status = .running)
    (hx : aluDest (decode t.exmem.instr) ≠ some i) (hm : wdest (decode t.memwb.instr) ≠ some i) :
    fwd t i (x s i) = x t i := by
  obtain ⟨-, -, -, -, hwb⟩ := stallAndFlushSelection s t hs h ht
  obtain ⟨f, -, hc⟩ := edge_commits h hs ht
  by_cases hw : wdest (decode s.memwb.instr) = some i
  · rw [fwd_wbend hi hx hm (by rw [hwb]; exact hw), hwb, hc, x_commitOf hw, if_pos ⟨rfl, hi⟩]
  · rw [fwd_read hi hx hm (by rw [hwb]; exact hw), hc, x_commitOf_of_ne hw]

@[simp] theorem executeAlu_instr (d : IdEx) (a b : Word) : (executeAlu d a b false).instr = d.instr := by
  simp [executeAlu, apply_ite ExMem.instr, ExMem.idle]

/-- What a committed edge leaves in IDEX and EXMEM where the instruction in IDEX reads a register: no
bubble came, so there was neither a flush nor a stall (R136). -/
theorem idex_exmem_of_reads {s t : State} (h : clockEdge false s = .next t)
    (hs : s.status = .running) (ht : t.status = .running)
    (hr : readsA (decode t.idex.instr) = true ∨ readsB (decode t.idex.instr) = true) :
    hazard s.idex.instr s.ifid.instr = false ∧ t.exmem.instr = s.idex.instr ∧
    t.idex = { instr := s.ifid.instr, pcPlus1 := s.ifid.pcPlus1,
               readRegA := x s (regA s.ifid.instr), readRegB := x s (regB s.ifid.instr),
               offset := offset s.ifid.instr } := by
  have hno : t.idex ≠ IdEx.bubble := fun e => by
    rw [e] at hr
    exact absurd hr (by decide)
  obtain ⟨hflush, -, hnone, -⟩ := stallAndFlushSelection s t hs h ht
  cases hfl : flush s with
  | true => exact absurd (hflush hfl).2.2.1 hno
  | false =>
    cases hst : stall s with
    | true => exact absurd (idex_bubble_of_stall hs h ht hst) hno
    | false =>
      obtain ⟨-, -, hidex, hexmem⟩ := hnone hfl hst
      exact ⟨hst, by rw [hexmem, executeAlu_instr], hidex⟩

/-- Settles O24: a load in EXMEM would have stalled its reader. -/
theorem forwardedOperandsAreUpToDate : Obligations.ForwardedOperandsAreUpToDate := by
  intro s t hs h ht i hi
  obtain ⟨hz, hexmem, hidex⟩ :=
    idex_exmem_of_reads h hs ht (hi.imp And.left And.left)
  have hword : t.idex.instr = s.ifid.instr := by rw [hidex]
  refine ⟨fun _ a k hlw => ?_, fun v hv => ?_⟩
  · rw [hexmem] at hlw
    rw [hazard_of_lw hlw, ← hword] at hz
    obtain ⟨hr, rfl⟩ | ⟨hr, rfl⟩ := hi <;> simp [hr] at hz
  · obtain rfl : v = x s i := by
      obtain ⟨-, rfl, rfl⟩ | ⟨-, rfl, rfl⟩ := hv <;> rw [hidex]
    by_cases hi0 : i = 0
    · rw [if_pos hi0, hi0]; rfl
    rw [if_neg hi0]
    by_cases hx : aluDest (decode t.exmem.instr) = some i
    · rw [if_pos hx, fwd_exmem hi0 hx]
    rw [if_neg hx]
    by_cases hm : wdest (decode t.memwb.instr) = some i
    · rw [if_pos hm, fwd_memwb hi0 hx hm]
    · rw [if_neg hm, fwd_of_read_before hi0 h hs ht hx hm]

/-! ### WBEND (R176) -/

/-- With another WBEND the block cycle commits the same but for EXMEM, or commits nothing either. -/
theorem blockStep_withWbend (s : State) (b : WbEnd) :
    (s.status = .running ∧ (blockStep s).status = .running ∧
      blockStep { s with wbend := b } =
        { blockStep s with exmem := (blockStep { s with wbend := b }).exmem }) ∨
    ((s.status ≠ .running ∨ (blockStep s).status ≠ .running) ∧
      blockStep { s with wbend := b } = { blockStep s with wbend := b }) := by
  have hm : (memoryLoadStore { s with wbend := b }).memwbNext = (memoryLoadStore s).memwbNext := rfl
  have hp : fetchAnswer { s with wbend := b } = fetchAnswer s := rfl
  obtain ⟨hs, e⟩ | ⟨hs, hh, e⟩ | ⟨hs, hh, f, hf, e⟩ | ⟨hs, hh, m, hok, ⟨f, hf, e⟩ | ⟨p, hp', e⟩⟩ :=
    blockStep_cases s <;> rw [e]
  · exact .inr ⟨.inl hs, blockStep_of_not_running hs⟩
  · exact .inr ⟨.inr nofun, blockStep_of_halt hs hh⟩
  · exact .inr ⟨.inr nofun, blockStep_of_memoryFault hs hh (hm.trans hf)⟩
  · exact .inr ⟨.inr nofun, blockStep_of_fetchFault hs hh (hm.trans hok) (hp.trans hf)⟩
  · rw [blockStep_of_ok (s := { s with wbend := b }) hs hh (hm.trans hok) (hp.trans hp')]
    exact .inl ⟨hs, hs, rfl⟩

/-- Settles O51: `fwd_wbend` is the one reader, and only the ALU block reads it. -/
theorem wbendIsReadOnlyByForwarding : Obligations.WbendIsReadOnlyByForwarding := by
  intro s t b h
  simp only [writesTo_iff]
  refine ⟨fun hs ht => ?_, _, clockEdge_eq_blockStep _, ?_⟩
  · obtain ⟨-, -, -, -, hwb⟩ := stallAndFlushSelection s t hs h ht
    refine ⟨hwb, fun i v hi hw hx hm => ?_⟩
    rw [fwd_wbend hi (aluDest_ne hx) hm (by rw [hwb]; exact hw), hwb]
  · obtain rfl := Host.Outcome.next.inj ((clockEdge_eq_blockStep s).symm.trans h)
    obtain ⟨hs, ht, e⟩ | ⟨hn, e⟩ := blockStep_withWbend s b
    · exact ⟨fun _ => e, fun hn => (hn.elim (· hs) (· ht)).elim⟩
    · exact ⟨fun hr => (hn.elim (· hr.1) (· hr.2)).elim, fun _ => e⟩

end Sys2Proof.Machine
end

section
/-! One instruction in an empty pipeline (spec/70_reset_and_hazards.md R311, R323): what it does alone and
in order, what five edges make of it with `NOOP`s behind it, and that the two agree. -/

namespace Sys2Proof.Machine

/-! ### The instruction alone and in order (R323) -/

/-- IDEX with the word `w`, which stands at `pc`, decoded alone. -/
def loneIdEx (s : State) (w : Word) : IdEx :=
  (decodeBlock { instr := w, pcPlus1 := s.pc + 1 } s.reg false false).idexNext

/-- EXMEM with the word `w` executed alone: nothing is forwarded. -/
def loneExMem (s : State) (w : Word) : ExMem :=
  executeAlu (loneIdEx s w) (x s (regA w)) (x s (regB w)) false

/-- The memory block with the word `w` alone in EXMEM. -/
def loneMemory (s : State) (w : Word) : MemoryPorts := memoryLoadStore { s with exmem := loneExMem s w }

/-- Whether the word `w` alone is a branch that is taken (R240). -/
def loneTaken (s : State) (w : Word) : Bool := flush { s with exmem := loneExMem s w }

/-- What a word that goes through writeback does alone, where the memory block hands on `m`. -/
def loneThrough (s : State) (w : Word) (m : MemWb) : State :=
  { s with
    pc := if loneTaken s w then (loneExMem s w).branchTarget else s.pc + 1
    reg := rfWrite s.reg (writebackBlock m).rfWe ((writebackBlock m).rfWaddr.getD 0)
      (writebackBlock m).rfWdata
    dmem := (dmemEdge s (loneMemory s w)).1, dwritten := (dmemEdge s (loneMemory s w)).2 }

/-- What the word `w`, alone and in order at `pc`, does to the state (R323): the memory block decides
whether it faults, `HALT` stops it, and any other instruction goes through writeback. -/
def loneEffect (s : State) (w : Word) : State :=
  match (loneMemory s w).memwbNext with
  | .error f => raiseFault s f
  | .ok m =>
    if decode w = .halt then { s with status := .halted } else loneThrough s w m

@[simp] theorem loneExMem_instr (s : State) (w : Word) : (loneExMem s w).instr = w :=
  executeAlu_instr ..

/-- Nothing is forwarded from bubbles (R46, R160). -/
theorem fwd_of_bubbles {s : State} (hx : s.exmem = ExMem.bubble) (hm : s.memwb = MemWb.bubble)
    (hw : s.wbend = WbEnd.bubble) (i : RegIdx) (v : Word) : fwd s i v = v := by
  have hnoop : decode noopWord = .noop := decode_noop (by decide)
  by_cases hi : i = 0
  · rw [hi, fwd_zero]
  · refine fwd_read hi ?_ ?_ ?_ v
    · rw [hx]; exact hnoop ▸ nofun
    · rw [hm]; exact hnoop ▸ nofun
    · rw [hw]; exact hnoop ▸ nofun

/-- The memory line sends `pc` to the target of a taken branch and leaves it otherwise (R170). -/
theorem memory_pc (i : Instr) (s : State) : (stageWork i .memory s).pc =
    if isBranch i && s.exmem.equalityFlag then s.exmem.branchTarget else s.pc := by
  cases i with
  | lw a b k =>
    simp only [stageWork, lwStage]
    cases dmemRead s s.exmem.aluResult <;> rfl
  | sw a b k => obtain ⟨-, e⟩ | e := memory_sw a b k s <;> rw [e] <;> rfl
  | beq a b k =>
    simp only [stageWork, beqStage, isBranch]
    cases s.exmem.equalityFlag <;> rfl
  | _ => rfl

/-- The memory block hands EXMEM's word on (R171). -/
theorem memwbNext_instr {s : State} {m : MemWb} (h : (memoryLoadStore s).memwbNext = .ok m) :
    m.instr = s.exmem.instr := by
  simp only [memoryLoadStore] at h
  grind

/-- What the writeback line of an instruction other than `HALT` leaves in the fields that an instruction
alone keeps (R175). -/
theorem writeback_lone {s : State} (h : decode s.memwb.instr ≠ .halt) :
    (stageWork (decode s.memwb.instr) .writeback s).pc = s.pc ∧
    (stageWork (decode s.memwb.instr) .writeback s).dmem = s.dmem ∧
    (stageWork (decode s.memwb.instr) .writeback s).dwritten = s.dwritten ∧
    (stageWork (decode s.memwb.instr) .writeback s).reg =
      rfWrite s.reg (writebackBlock s.memwb).rfWe ((writebackBlock s.memwb).rfWaddr.getD 0)
        (writebackBlock s.memwb).rfWdata := by
  rw [rfWrite_writebackBlock, stageOf_writeback_reg, stageWork_writeback h]
  cases wdest (decode s.memwb.instr) with
  | none => exact ⟨rfl, rfl, rfl, rfl⟩
  | some d => simp [Option.elim]

/-- `s` with the word `w` alone in EXMEM, its first two lines done. -/
def loneAtMemory (s : State) (w : Word) : State :=
  executeStage (decodeWord (alone s w)) (loneExMem s w)

theorem execute_decode_alone (s : State) (w : Word) :
    stageWork (decode w) .execute (stageWork (decode w) .decode (alone s w)) = loneAtMemory s w := by
  have hd : stageWork (decode w) .decode (alone s w) = decodeWord (alone s w) :=
    stageWork_decode (alone s w)
  have he := execute_exmem (decodeWord (alone s w))
  have hfwd := fwd_of_bubbles (s := decodeWord (alone s w)) rfl rfl rfl
  rw [hd, stageWork_execute, loneAtMemory]
  simp only [operandA, operandB, hfwd] at he
  exact congrArg _ he

theorem thenStage_of_running {work : Stage → State → State} {st : Stage} {t : State}
    (h : t.status = .running) : thenStage work st t = work st t := if_pos h

/-- The decode and the execute line stop nothing. -/
theorem thenStage_memory_alone {s : State} (hs : s.status = .running) (w : Word) :
    thenStage (stageWork (decode w)) .memory (thenStage (stageWork (decode w)) .execute
      (thenStage (stageWork (decode w)) .decode (alone s w))) =
      stageWork (decode w) .memory (loneAtMemory s w) := by
  have hd : stageWork (decode w) .decode (alone s w) = decodeWord (alone s w) :=
    stageWork_decode (alone s w)
  rw [thenStage_of_running (t := alone s w) hs, hd,
    thenStage_of_running (t := decodeWord (alone s w)) hs, ← hd, execute_decode_alone,
    thenStage_of_running (t := loneAtMemory s w) hs]

theorem thenStage_of_not_running {work : Stage → State → State} {st : Stage} {t : State}
    (h : t.status ≠ .running) : thenStage work st t = t := if_neg h

/-- The in-order execution of one instruction in closed form: the memory block decides whether it faults,
`HALT` stops it, and any other instruction goes through writeback. -/
theorem inOrder_eq_loneEffect {s : State} (hs : s.status = .running) (w : Word) :
    inOrder w (stageWork (decode w)) s = loneEffect s w := by
  have hw : (loneAtMemory s w).exmem.instr = w := loneExMem_instr s w
  have ha : MemoryAnswer (loneAtMemory s w) _ (loneMemory s w).memwbNext :=
    memoryAnswer (loneAtMemory s w)
  have hinstr : ∀ m, (loneMemory s w).memwbNext = .ok m → m.instr = w := fun m hm =>
    (memwbNext_instr hm).trans hw
  obtain ⟨-, hreg, -⟩ := memory_keeps (decode w) (loneAtMemory s w)
  have hpc := memory_pc (decode w) (loneAtMemory s w)
  have htaken : (isBranch (decode w) && (loneAtMemory s w).exmem.equalityFlag) = loneTaken s w := by
    rw [loneTaken, flush, isBranch_decode, loneExMem_instr]; rfl
  rw [hw] at ha
  unfold inOrder loneEffect
  rw [thenStage_memory_alone hs]
  generalize stageWork (decode w) .memory (loneAtMemory s w) = t at ha hreg hpc ⊢
  cases hm : (loneMemory s w).memwbNext with
  | error f =>
    rw [hm] at ha
    replace ha : t.status = .faulted f := ha
    have hn : t.status ≠ .running := by rw [ha]; exact nofun
    rw [thenStage_of_not_running hn, if_neg hn, ha]
    rfl
  | ok m =>
    rw [hm] at ha
    obtain ⟨hstatus, rfl, hdmem, hmarks⟩ := ha
    have ht : t.status = .running := hstatus.trans hs
    obtain rfl : t.memwb.instr = w := hinstr _ hm
    rw [thenStage_of_running ht]
    by_cases hh : decode t.memwb.instr = .halt
    · simp only [hh, stageWork, haltStage]; rfl
    · obtain ⟨hpc', hdmem', hmarks', hreg'⟩ := writeback_lone hh
      have hrun := (writeback_status hh t).trans ht
      simp only [hrun, if_true, if_neg hh, hpc', hdmem', hmarks', hreg', hpc, htaken, hreg, hdmem,
        hmarks]
      rfl

/-- `exec` of an instruction alone, by its word. -/
theorem exec_eq_loneEffect {s : State} (hs : s.status = .running) (i : Instr) :
    exec i { s with stage := none } = .next (loneEffect { s with stage := none } (encode i)) := by
  rw [exec_none rfl, ← inOrder_eq_loneEffect (s := { s with stage := none }) hs, decode_encode]

/-- The effect of an instruction alone does not depend on instruction memory and the model's own
fields. -/
theorem loneEffect_with (s : State) (w : Word) (im : Memory) (st : Option Stage) (n : Nat) :
    loneEffect { s with imem := im, stage := st, burst := n } w =
      { loneEffect s w with imem := im, stage := st, burst := n } := by
  have hm : (loneMemory { s with imem := im, stage := st, burst := n } w).memwbNext =
    (loneMemory s w).memwbNext := rfl
  unfold loneEffect
  rw [hm]
  cases (loneMemory s w).memwbNext with
  | error f => rfl
  | ok m =>
    by_cases hh : decode w = .halt
    · simp only [if_pos hh]
    · simp only [if_neg hh]; rfl

end Sys2Proof.Machine
end

section
/-! Five edges from an empty pipeline (spec/70_reset_and_hazards.md R311): the word at `pc` with `NOOP`s
behind it has then done what it does alone. -/

namespace Sys2Proof.Machine

/-! ### One edge -/

/-- The word at `p` as a fetch leaves it in IFID (R140). -/
def fetched (s : State) (p : Word) : IfId := { instr := s.imem.read p.toNat, pcPlus1 := p + 1 }

/-- IDEX after decode of `i` (R150). -/
def decoded (s : State) (i : IfId) : IdEx := (decodeBlock i s.reg false false).idexNext

section Edge

variable {s : State} {m : MemWb}

/-- A word that reads no register stalls behind nothing. -/
theorem hazard_of_noop {f : Word} (h : decode f = .noop) (e : Word) : hazard e f = false := by
  rw [hazard, h]; exact Bool.and_false _

/-- An edge that stops at nothing and neither flushes nor stalls moves every word one stage on. -/
theorem edgeResult_advance (hs : s.status = .running) (hh : decode s.memwb.instr ≠ .halt)
    (hm : (memoryLoadStore s).memwbNext = .ok m) (hfl : flush s = false) (hst : stall s = false)
    (hr : inRange s s.pc = true) :
    edgeResult s =
      { blockCommit s m (s.pc + 1, fetched s s.pc) with
        idex := decoded s s.ifid
        exmem := executeAlu s.idex (operandA s (regA s.idex.instr)) (operandB s (regB s.idex.instr))
          false } := by
  have hp : fetchAnswer s = .ok (s.pc + 1, fetched s s.pc) := by
    rw [fetchAnswer_eq, fetch_of_word hfl hst hr]
    simp only [Except.map, nextPcIfId, hfl, hst]; rfl
  rw [edgeResult_eq_blockStep, blockStep_of_ok hs hh hm hp, blockCommit, hfl, hst]
  rfl

/-- An edge with a flush and no fault. -/
theorem edgeResult_flush (hs : s.status = .running) (hh : decode s.memwb.instr ≠ .halt)
    (hm : (memoryLoadStore s).memwbNext = .ok m) (hfl : flush s = true) :
    edgeResult s =
      { blockCommit s m (s.exmem.branchTarget, IfId.bubble) with
        idex := IdEx.bubble, exmem := ExMem.bubble } := by
  have hp : fetchAnswer s = .ok (s.exmem.branchTarget, IfId.bubble) := by
    rw [fetchAnswer, fetchUnit, hfl]; rfl
  rw [edgeResult_eq_blockStep, blockStep_of_ok hs hh hm hp, blockCommit, hfl]
  rfl

end Edge

/-- The memory block passes a `NOOP` on (R261). -/
theorem memwbNext_of_noop {s : State} (h : op s.exmem.instr = encoding.opNoop) :
    (memoryLoadStore s).memwbNext = .ok { instr := s.exmem.instr, writeData := 0 } := by
  simp only [memoryLoadStore, opIn, h]; rfl

/-- The ALU block passes a `NOOP` on with nothing computed (R165). -/
theorem executeAlu_of_noop {d : IdEx} (h : op d.instr = encoding.opNoop) (a b : Word) :
    executeAlu d a b false = ExMem.idle d.instr := by
  simp only [executeAlu, opIn, h]; rfl

/-- A `NOOP` in EXMEM is no taken branch (R170). -/
theorem flush_of_noop {s : State} (h : op s.exmem.instr = encoding.opNoop) : flush s = false := by
  rw [flush, h]; rfl

/-- Only an `SW` in EXMEM stores (R171). -/
theorem dmemEdge_of_ne_sw {s : State} (h : op s.exmem.instr ≠ encoding.opSw) :
    dmemEdge s (memoryLoadStore s) = (s.dmem, s.dwritten) := by
  simp only [dmemEdge, memoryLoadStore, opIn_single, decide_eq_false h]; rfl

theorem dmemEdge_of_noop {s : State} (h : op s.exmem.instr = encoding.opNoop) :
    dmemEdge s (memoryLoadStore s) = (s.dmem, s.dwritten) :=
  dmemEdge_of_ne_sw (by rw [h]; decide)

/-- A `NOOP` in MEMWB writes no register (R175). -/
theorem rfWrite_of_noop {m : MemWb} (h : decode m.instr = .noop) (reg : Vector Word 8) :
    rfWrite reg (writebackBlock m).rfWe ((writebackBlock m).rfWaddr.getD 0)
      (writebackBlock m).rfWdata = reg := by
  simp only [writebackBlock, wdestWord_eq, h]; rfl

theorem op_noopWord : op noopWord = encoding.opNoop := by decide

theorem decode_noopWord : decode noopWord = .noop := decode_noop op_noopWord

theorem decode_noopWord_ne_halt : decode noopWord ≠ .halt := decode_noopWord ▸ nofun

/-- Decode makes the bubble of IDEX from that of IFID (R46, R150). -/
theorem decoded_bubble (s : State) : decoded s IfId.bubble = IdEx.bubble := by
  have hA : regA noopWord = 0 := by decide
  have hB : regB noopWord = 0 := by decide
  have hk : offset noopWord = 0 := by decide
  simp only [decoded, decodeBlock, decodeFields, IfId.bubble, hA, hB, hk]
  rfl

theorem executeAlu_bubble (a b : Word) : executeAlu IdEx.bubble a b false = ExMem.bubble :=
  executeAlu_of_noop (d := IdEx.bubble) op_noopWord a b

/-! ### The edges of one instruction in an empty pipeline (R311) -/

/-- `s` with nothing but bubbles in the pipeline (R46). -/
def emptied (s : State) : State :=
  { s with ifid := IfId.bubble, idex := IdEx.bubble, exmem := ExMem.bubble, memwb := MemWb.bubble,
           wbend := WbEnd.bubble }

/-- `s` with the given `pc`, IFID, IDEX, EXMEM and `cycles`, and bubbles in MEMWB and WBEND. -/
def piped (s : State) (p : Word) (i : IfId) (d : IdEx) (r : ExMem) (c : Word) : State :=
  { emptied s with pc := p, ifid := i, idex := d, exmem := r, cycles := c }

/-- `t` with `m` in MEMWB and the store of the record `r` in EXMEM, if it is one, done to the data memory
of `s`. -/
def stored (s : State) (r : ExMem) (m : MemWb) (t : State) : State :=
  { t with
    memwb := m, dmem := (dmemEdge s (memoryLoadStore { s with exmem := r })).1
    dwritten := (dmemEdge s (memoryLoadStore { s with exmem := r })).2 }

section Edges

variable {s : State} {p c : Word} {i : IfId} {d : IdEx} {r : ExMem} {m : MemWb} {f : Fault}

/-- With bubbles from EXMEM on, an edge executes the word in IDEX on the values read and moves the two words
behind it on. -/
theorem edgeResult_execute (hs : s.status = .running) (hr : inRange s p = true)
    (hst : hazard d.instr i.instr = false) :
    edgeResult (piped s p i d ExMem.bubble c) =
      piped s (p + 1) (fetched s p) (decoded s i) (executeAlu d d.readRegA d.readRegB false)
        (c + 1) := by
  have hfwd := fwd_of_bubbles (s := piped s p i d ExMem.bubble c) rfl rfl rfl
  have hop : op (piped s p i d ExMem.bubble c).exmem.instr = encoding.opNoop := op_noopWord
  rw [edgeResult_advance (s := piped s p i d ExMem.bubble c) hs decode_noopWord_ne_halt
    (memwbNext_of_noop hop) (flush_of_noop hop) hst hr]
  simp only [operandA, operandB, hfwd, blockCommit, dmemEdge_of_noop hop]
  rw [rfWrite_of_noop (m := (piped s p i d ExMem.bubble c).memwb) decode_noopWord]
  rfl

/-- From an empty pipeline an edge only fetches. -/
theorem edgeResult_fetch (hs : s.status = .running) (hr : inRange s p = true) :
    edgeResult (piped s p IfId.bubble IdEx.bubble ExMem.bubble c) =
      piped s (p + 1) (fetched s p) IdEx.bubble ExMem.bubble (c + 1) := by
  have hst : hazard IdEx.bubble.instr IfId.bubble.instr = false := hazard_of_noop decode_noopWord _
  rw [edgeResult_execute hs hr hst, decoded_bubble, executeAlu_bubble]

/-- With a word in IFID alone an edge decodes it. -/
theorem edgeResult_decode (hs : s.status = .running) (hr : inRange s p = true) :
    edgeResult (piped s p i IdEx.bubble ExMem.bubble c) =
      piped s (p + 1) (fetched s p) (decoded s i) ExMem.bubble (c + 1) := by
  have hst : hazard IdEx.bubble.instr i.instr = false :=
    stall_of_idex_bubble (s := piped s p i IdEx.bubble ExMem.bubble c) rfl
  rw [edgeResult_execute hs hr hst, executeAlu_bubble]

/-- With a word in EXMEM and bubbles ahead, an edge stops at its fault. -/
theorem edgeResult_memoryFault (hs : s.status = .running)
    (hm : (memoryLoadStore { s with exmem := r }).memwbNext = .error f) :
    edgeResult (piped s p i d r c) = raiseFault (piped s p i d r c) f := by
  rw [edgeResult_eq_blockStep]
  exact blockStep_of_memoryFault hs decode_noopWord_ne_halt hm

/-- With a taken branch in EXMEM and bubbles ahead, an edge redirects and empties the stages behind. -/
theorem edgeResult_taken (hs : s.status = .running)
    (hm : (memoryLoadStore { s with exmem := r }).memwbNext = .ok m)
    (hfl : flush { s with exmem := r } = true) :
    edgeResult (piped s p i d r c) =
      stored s r m (piped s r.branchTarget IfId.bubble IdEx.bubble ExMem.bubble (c + 1)) := by
  rw [edgeResult_flush (s := piped s p i d r c) hs decode_noopWord_ne_halt hm hfl, blockCommit,
    rfWrite_of_noop (m := (piped s p i d r c).memwb) decode_noopWord]
  rfl

/-- With a word in EXMEM, bubbles ahead and `NOOP`s behind, an edge does its memory line. -/
theorem edgeResult_memory (hs : s.status = .running) (hr : inRange s p = true)
    (hi : decode i.instr = .noop) (hd : op d.instr = encoding.opNoop)
    (hm : (memoryLoadStore { s with exmem := r }).memwbNext = .ok m)
    (hfl : flush { s with exmem := r } = false) :
    edgeResult (piped s p i d r c) =
      stored s r m (piped s (p + 1) (fetched s p) (decoded s i) (ExMem.idle d.instr) (c + 1)) := by
  rw [edgeResult_advance (s := piped s p i d r c) hs decode_noopWord_ne_halt hm hfl
    (hazard_of_noop hi _) hr, blockCommit,
    rfWrite_of_noop (m := (piped s p i d r c).memwb) decode_noopWord,
    executeAlu_of_noop (d := (piped s p i d r c).idex) hd]
  rfl

/-- With a word other than `HALT` in MEMWB and `NOOP`s behind, an edge writes the register of the word. -/
theorem edgeResult_writeback (hs : s.status = .running) (hr : inRange s s.pc = true)
    (hh : decode s.memwb.instr ≠ .halt) (hx : op s.exmem.instr = encoding.opNoop)
    (hi : decode s.ifid.instr = .noop) :
    (edgeResult s).reg = rfWrite s.reg (writebackBlock s.memwb).rfWe
        ((writebackBlock s.memwb).rfWaddr.getD 0) (writebackBlock s.memwb).rfWdata ∧
    (edgeResult s).dmem = s.dmem ∧ (edgeResult s).dwritten = s.dwritten ∧
    (edgeResult s).status = .running ∧ (edgeResult s).launch = s.launch ∧
    (edgeResult s).cycles = s.cycles + 1 ∧ (edgeResult s).pc = s.pc + 1 ∧
    (edgeResult s).ifid = fetched s s.pc := by
  rw [edgeResult_advance hs hh (memwbNext_of_noop hx) (flush_of_noop hx) (hazard_of_noop hi _) hr]
  simp only [blockCommit, dmemEdge_of_noop hx]
  exact ⟨trivial, trivial, trivial, hs, trivial, trivial, trivial, trivial⟩

end Edges

/-! ### The five edges (R311) -/

/-- The address `k` words ahead of `pc`. -/
def ahead (s : State) (k : Nat) : Word := s.pc + BitVec.ofNat 32 k

theorem ahead_zero (s : State) : ahead s 0 = s.pc := BitVec.add_zero _

theorem ahead_succ (s : State) (k : Nat) : ahead s k + 1 = ahead s (k + 1) := by
  rw [ahead, ahead, BitVec.add_assoc, BitVec.ofNat_add]
  rfl

/-- What the five edges need of the state: it runs, and at `pc` and the four addresses behind it words can
be fetched, of which the four are `NOOP`s. -/
structure LoneRun (s : State) : Prop where
  running : s.status = .running
  /-- The five words can be fetched. -/
  range : ∀ k, k ≤ 4 → inRange s (ahead s k) = true
  /-- The words behind the first are `NOOP`s. -/
  noop : ∀ k, 1 ≤ k → k ≤ 4 → decode (s.imem.read (ahead s k).toNat) = .noop

theorem op_of_noop {w : Word} (h : decode w = .noop) : op w = encoding.opNoop :=
  op_of_decode h

/-- The word at `pc`. -/
def wordAtPc (s : State) : Word := s.imem.read s.pc.toNat

/-- The state three edges after the empty pipeline of `s`: the word at `pc` is in EXMEM. -/
def afterThree (s : State) : State :=
  piped s (ahead s 3) (fetched s (ahead s 2)) (decoded s (fetched s (ahead s 1)))
    (loneExMem s (wordAtPc s)) (s.cycles + 3)

/-- After three edges the word at `pc` is in EXMEM, with nothing but its own work done. -/
theorem LoneRun.three_edges {s : State} (h : LoneRun s) :
    edgeResult^[3] (emptied s) = afterThree s := by
  obtain ⟨hs, hr, hnoop⟩ := h
  have hst : hazard (decoded s (fetched s (ahead s 0))).instr (fetched s (ahead s 1)).instr = false :=
    hazard_of_noop (hnoop 1 (by decide) (by decide)) _
  have hcycles : s.cycles + 1 + 1 + 1 = s.cycles + 3 := by
    rw [BitVec.add_assoc, BitVec.add_assoc]
    exact congrArg (s.cycles + ·) (by decide)
  have hexmem : loneExMem s (wordAtPc s) =
      executeAlu (decoded s (fetched s (ahead s 0))) (decoded s (fetched s (ahead s 0))).readRegA
        (decoded s (fetched s (ahead s 0))).readRegB false := by
    rw [ahead_zero]; rfl
  calc edgeResult^[3] (emptied s)
      = edgeResult (edgeResult (edgeResult
          (piped s (ahead s 0) IfId.bubble IdEx.bubble ExMem.bubble s.cycles))) := by
        rw [ahead_zero]; rfl
    _ = edgeResult (edgeResult
          (piped s (ahead s 1) (fetched s (ahead s 0)) IdEx.bubble ExMem.bubble (s.cycles + 1))) := by
        rw [edgeResult_fetch hs (hr 0 (by decide)), ahead_succ]
    _ = edgeResult (piped s (ahead s 2) (fetched s (ahead s 1)) (decoded s (fetched s (ahead s 0)))
          ExMem.bubble (s.cycles + 1 + 1)) := by
        rw [edgeResult_decode hs (hr 1 (by decide)), ahead_succ]
    _ = afterThree s := by
        rw [edgeResult_execute hs (hr 2 (by decide)) hst, ahead_succ, hcycles, ← hexmem, afterThree]

/-- What an instruction alone and a run of the pipeline are compared on (R323). -/
def SameEffect (t u : State) : Prop :=
  t.reg = u.reg ∧ t.dmem = u.dmem ∧ t.dwritten = u.dwritten ∧ t.status = u.status ∧
  t.launch = u.launch

/-- Where the fetch stands five edges later: past the word at the target of a taken branch, or else past
the last `NOOP`. -/
def FetchGoesOn (s t u : State) : Prop :=
  if loneTaken s (wordAtPc s) then t.pc = u.pc + 1 ∧ t.ifid = fetched s u.pc
  else u.pc = s.pc + 1 ∧ t.pc = ahead s 5 ∧ t.ifid = fetched s (ahead s 4)

/-- The state one edge later, `m` in MEMWB, for a word that raises no fault and redirects nothing. -/
def afterFour (s : State) (m : MemWb) : State :=
  stored s (loneExMem s (wordAtPc s)) m
    (piped s (ahead s 4) (fetched s (ahead s 3)) (decoded s (fetched s (ahead s 2)))
      (ExMem.idle (decoded s (fetched s (ahead s 1))).instr) (s.cycles + 3 + 1))

/-- The state one edge later, `m` in MEMWB, for a taken branch. -/
def afterTaken (s : State) (m : MemWb) : State :=
  stored s (loneExMem s (wordAtPc s)) m
    (piped s (loneExMem s (wordAtPc s)).branchTarget IfId.bubble IdEx.bubble ExMem.bubble
      (s.cycles + 3 + 1))

theorem LoneRun.fourth_edge {s : State} {m : MemWb} (h : LoneRun s)
    (hm : (loneMemory s (wordAtPc s)).memwbNext = .ok m)
    (htk : loneTaken s (wordAtPc s) = false) : edgeResult (afterThree s) = afterFour s m := by
  obtain ⟨hs, hr, hnoop⟩ := h
  have hi : decode (fetched s (ahead s 2)).instr = .noop := hnoop 2 (by decide) (by decide)
  have hd : op (decoded s (fetched s (ahead s 1))).instr = encoding.opNoop :=
    op_of_noop (hnoop 1 (by decide) (by decide))
  rw [afterThree, edgeResult_memory hs (hr 3 (by decide)) hi hd hm htk, ahead_succ, afterFour]

theorem LoneRun.fourth_edge_taken {s : State} {m : MemWb} (h : LoneRun s)
    (hm : (loneMemory s (wordAtPc s)).memwbNext = .ok m)
    (htk : loneTaken s (wordAtPc s) = true) : edgeResult (afterThree s) = afterTaken s m :=
  edgeResult_taken h.running hm htk

/-- A word that decodes to `HALT` is no taken branch and stores nothing. -/
theorem lone_halt {s : State} {w : Word} (h : decode w = .halt) :
    loneTaken s w = false ∧ dmemEdge s (loneMemory s w) = (s.dmem, s.dwritten) := by
  have hop : op (loneExMem s w).instr = encoding.opHalt := by
    rw [loneExMem_instr]; exact op_of_decode h
  refine ⟨?_, dmemEdge_of_ne_sw (s := { s with exmem := loneExMem s w }) ?_⟩
  · rw [loneTaken, flush, hop]; rfl
  · rw [hop]; decide

/-- `t`, five edges after the empty pipeline of `s`, has done what `u` has alone, and where it runs on the
fetch goes on from where `u` goes. -/
def RunsAsAlone (s t u : State) : Prop :=
  SameEffect t u ∧ (u.status = .running → t.cycles = s.cycles + 5 ∧ FetchGoesOn s t u)

section FiveEdges

variable {s : State} {m : MemWb} {f : Fault}

theorem cycles_five (c : Word) : c + 3 + 1 + 1 = c + 5 := by
  rw [BitVec.add_assoc, BitVec.add_assoc]
  exact congrArg (c + ·) (by decide)

theorem LoneRun.last_edges (h : LoneRun s) :
    edgeResult^[5] (emptied s) = edgeResult (edgeResult (afterThree s)) := by
  rw [Function.iterate_succ_apply', Function.iterate_succ_apply', h.three_edges]

theorem LoneRun.five_edges_fault (h : LoneRun s)
    (hm : (loneMemory s (wordAtPc s)).memwbNext = .error f) :
    RunsAsAlone s (edgeResult^[5] (emptied s)) (raiseFault s f) := by
  have hn : (raiseFault (afterThree s) f).status ≠ .running := by rw [raiseFault_status]; exact nofun
  have hfour : edgeResult (afterThree s) = raiseFault (afterThree s) f :=
    edgeResult_memoryFault h.running hm
  rw [h.last_edges, hfour, edgeResult_eq_blockStep, blockStep_of_not_running hn]
  exact ⟨⟨rfl, rfl, rfl, rfl, rfl⟩, fun e => absurd e hn⟩

theorem LoneRun.five_edges_halt (h : LoneRun s)
    (hm : (loneMemory s (wordAtPc s)).memwbNext = .ok m) (hh : decode (wordAtPc s) = .halt)
    (hinstr : m.instr = wordAtPc s) :
    RunsAsAlone s (edgeResult^[5] (emptied s)) { s with status := .halted } := by
  obtain ⟨htk, hstore⟩ := lone_halt (s := s) hh
  have hhalt : decode (afterFour s m).memwb.instr = .halt := (congrArg decode hinstr).trans hh
  rw [h.last_edges, h.fourth_edge hm htk, edgeResult_eq_blockStep,
    blockStep_of_halt (s := afterFour s m) h.running hhalt]
  exact ⟨⟨rfl, congrArg Prod.fst hstore, congrArg Prod.snd hstore, rfl, rfl⟩, nofun⟩

theorem LoneRun.five_edges_taken (h : LoneRun s)
    (hm : (loneMemory s (wordAtPc s)).memwbNext = .ok m) (hne : decode m.instr ≠ .halt)
    (htk : loneTaken s (wordAtPc s) = true)
    (hr : inRange s (loneExMem s (wordAtPc s)).branchTarget = true) :
    RunsAsAlone s (edgeResult^[5] (emptied s)) (loneThrough s (wordAtPc s) m) := by
  obtain ⟨hreg, hdmem, hmarks, hstatus, hlaunch, hc, hp, hi⟩ :=
    edgeResult_writeback (s := afterTaken s m) h.running hr hne op_noopWord decode_noopWord
  rw [h.last_edges, h.fourth_edge_taken hm htk]
  unfold RunsAsAlone SameEffect FetchGoesOn loneThrough
  rw [hreg, hdmem, hmarks, hstatus, hlaunch, hc, hp, hi, htk]
  exact ⟨⟨rfl, rfl, rfl, h.running.symm, rfl⟩, fun _ => ⟨cycles_five _, rfl, rfl⟩⟩

theorem LoneRun.five_edges_straight (h : LoneRun s)
    (hm : (loneMemory s (wordAtPc s)).memwbNext = .ok m) (hne : decode m.instr ≠ .halt)
    (htk : loneTaken s (wordAtPc s) = false) :
    RunsAsAlone s (edgeResult^[5] (emptied s)) (loneThrough s (wordAtPc s) m) := by
  have hx : op (afterFour s m).exmem.instr = encoding.opNoop :=
    op_of_noop (h.noop 1 (by decide) (by decide))
  have hifid : decode (afterFour s m).ifid.instr = .noop := h.noop 3 (by decide) (by decide)
  obtain ⟨hreg, hdmem, hmarks, hstatus, hlaunch, hc, hp, hi⟩ :=
    edgeResult_writeback (s := afterFour s m) h.running (h.range 4 (by decide)) hne hx hifid
  rw [h.last_edges, h.fourth_edge hm htk]
  unfold RunsAsAlone SameEffect FetchGoesOn loneThrough
  rw [hreg, hdmem, hmarks, hstatus, hlaunch, hc, hp, hi, htk]
  exact ⟨⟨rfl, rfl, rfl, h.running.symm, rfl⟩, fun _ => ⟨cycles_five _, rfl, ahead_succ s 4, rfl⟩⟩

/-- After five edges the word at `pc` has done what it does alone, and the fetch goes on from where it
goes. -/
theorem LoneRun.five_edges (h : LoneRun s)
    (hpc : (loneEffect s (wordAtPc s)).status = .running →
      inRange s (loneEffect s (wordAtPc s)).pc = true) :
    RunsAsAlone s (edgeResult^[5] (emptied s)) (loneEffect s (wordAtPc s)) := by
  cases hm : (loneMemory s (wordAtPc s)).memwbNext with
  | error f =>
    rw [loneEffect, hm]
    exact h.five_edges_fault hm
  | ok m =>
    have hinstr : m.instr = wordAtPc s := (memwbNext_instr hm).trans (loneExMem_instr _ _)
    by_cases hh : decode (wordAtPc s) = .halt
    · rw [loneEffect, hm]
      simp only [if_pos hh]
      exact h.five_edges_halt hm hh hinstr
    · have hu : loneEffect s (wordAtPc s) = loneThrough s (wordAtPc s) m := by
        rw [loneEffect, hm]
        exact if_neg hh
      have hne : decode m.instr ≠ .halt := hinstr ▸ hh
      rw [hu] at hpc ⊢
      cases htk : loneTaken s (wordAtPc s) with
      | true =>
        rw [loneThrough, htk] at hpc
        exact h.five_edges_taken hm hne htk (hpc h.running)
      | false => exact h.five_edges_straight hm hne htk

end FiveEdges

end Sys2Proof.Machine
end

section
/-! The word that `withFetchWord` places (spec/40_pipeline.md R140, spec/70_reset_and_hazards.md R311,
R323): the next edge fetches it, and the next step is the five edges that run it. -/

namespace Sys2Proof.Machine

/-! ### The addresses ahead of `pc` -/

section Ahead

variable {s : State}

theorem ahead_signed (hfit : s.launch.pcFits = true) {k : Nat} (hk : k ≤ 4)
    (hm : s.pc.signed + 5 ≤ (s.launch.memWords : Int)) (h0 : 0 ≤ s.pc.signed) :
    (ahead s k).signed = s.pc.signed + k := by
  have hsmall : Word.signed (BitVec.ofNat 32 k) = k := by interval_cases k <;> decide
  rw [pcFits_iff] at hfit
  rw [ahead, signed_add, hsmall] <;> omega

theorem ahead_toNat (hfit : s.launch.pcFits = true) {k : Nat} (hk : k ≤ 4)
    (hm : s.pc.signed + 5 ≤ (s.launch.memWords : Int)) (h0 : 0 ≤ s.pc.signed) :
    (ahead s k).toNat = s.pc.toNat + k := by
  have hs := ahead_signed hfit hk hm h0
  have hp := toNat_of_signed_nonneg h0
  have ha := toNat_of_signed_nonneg (v := ahead s k) (by omega)
  omega

theorem inRange_ahead (hfit : s.launch.pcFits = true) {k : Nat} (hk : k ≤ 4)
    (hm : s.pc.signed + 5 ≤ (s.launch.memWords : Int)) (h0 : 0 ≤ s.pc.signed) :
    inRange s (ahead s k) = true := by
  have hs := ahead_signed hfit hk hm h0
  exact (inRange_iff s _).2 ⟨by omega, by omega⟩

end Ahead

/-! ### The branch alone (R240) -/

theorem loneTaken_iff (s : State) (w : Word) :
    loneTaken s w = true ↔ ∃ a b k, decode w = .beq a b k ∧ x s a = x s b := by
  by_cases hop : op w = encoding.opBeq
  · have hflag : (loneExMem s w).equalityFlag = (x s (regA w) == x s (regB w)) := by
      have h : op (loneIdEx s w).instr = encoding.opBeq := hop
      simp only [loneExMem, executeAlu, opIn, h]; rfl
    rw [loneTaken, flush, loneExMem_instr, decide_eq_true hop, Bool.true_and, hflag, beq_iff_eq,
      decode_beq hop]
    refine ⟨fun e => ⟨_, _, _, rfl, e⟩, ?_⟩
    rintro ⟨a, b, k, e, hx⟩
    cases e
    exact hx
  · rw [loneTaken, flush, loneExMem_instr, decide_eq_false hop, Bool.false_and]
    refine ⟨nofun, ?_⟩
    rintro ⟨a, b, k, e, -⟩
    exact absurd (op_of_decode e) hop

/-! ### The placed word -/

/-- `s` with `w` and the `NOOP`s placed from `pc` up, before the pipeline is emptied. -/
def placed (s : State) (w : Word) : State :=
  { s with imem := s.imem.place s.pc.toNat (w :: List.replicate drainEdges noopWord)
           burst := drainEdges }

theorem loadFetchWord_eq_emptied (s : State) (w : Word) : loadFetchWord s w = emptied (placed s w) := rfl

section Placed

variable {s : State} (hwf : s.imem.wf) (w : Word)

include hwf

theorem wordAtPc_placed : wordAtPc (placed s w) = w := by
  change (s.imem.place s.pc.toNat _).read s.pc.toNat = w
  rw [Memory.read_place hwf, dif_pos ⟨le_rfl, by simp⟩]
  simp

theorem read_placed_behind {k : Nat} (h1 : 1 ≤ k) (h4 : k ≤ 4) :
    (placed s w).imem.read (s.pc.toNat + k) = noopWord := by
  change (s.imem.place s.pc.toNat _).read _ = _
  rw [Memory.read_place hwf, dif_pos ⟨by omega, by simp [drainEdges]; omega⟩]
  obtain ⟨j, rfl⟩ : ∃ j, k = j + 1 := ⟨k - 1, by omega⟩
  simp

theorem loneRun_placed (hs : s.status = .running) (hfit : s.launch.pcFits = true)
    (h0 : 0 ≤ s.pc.signed) (hm : s.pc.signed + 5 ≤ (s.launch.memWords : Int)) :
    LoneRun (placed s w) where
  running := hs
  range := fun _ hk => inRange_ahead (s := placed s w) hfit hk hm h0
  noop := fun k h1 h4 => by
    rw [ahead_toNat (s := placed s w) hfit h4 hm h0]
    exact (congrArg decode (read_placed_behind hwf w h1 h4)).trans decode_noopWord

end Placed

/-- What a word does alone does not depend on the words placed. -/
theorem loneEffect_placed (s : State) (v w : Word) :
    loneEffect (placed s v) w =
      { loneEffect s w with
        imem := (placed s v).imem, stage := s.stage, burst := drainEdges } :=
  loneEffect_with s w (placed s v).imem s.stage drainEdges

theorem tableWord_encode (i : Instr) : tableWord 32 (encode i).toNat = encode i := by
  rw [tableWord, Nat.mod_eq_of_lt (encode i).isLt, BitVec.ofNat_toNat, BitVec.setWidth_eq]

theorem decodeTableWord_encode (i : Instr) : decodeTableWord 32 (encode i).toNat = some i := by
  rw [decodeTableWord, if_pos (by decide), tableWord_encode, decode_encode]

/-- The next edge fetches the placed word. -/
theorem edge_fetches_placed {s : State} (hwf : s.imem.wf) (hs : s.status = .running) (w : Word)
    (hr : inRange s s.pc = true) :
    ∃ t, clockEdge false (loadFetchWord s w) = .next t ∧ t.status = .running ∧
      t.ifid = { instr := w, pcPlus1 := s.pc + 1 } := by
  have hfetch : edgeResult (emptied (placed s w)) = _ :=
    edgeResult_fetch (s := placed s w) (p := s.pc) (c := s.cycles) hs hr
  have hw : fetched (placed s w) s.pc = { instr := w, pcPlus1 := s.pc + 1 } :=
    congrArg (IfId.mk · (s.pc + 1)) (wordAtPc_placed hwf w)
  refine ⟨_, clockEdge_eq _, ?_, ?_⟩
  · rw [loadFetchWord_eq_emptied, hfetch]; exact hs
  · rw [loadFetchWord_eq_emptied, hfetch]; exact hw

/-- The next step runs the placed word. -/
theorem step_runs_placed {s : State} (hwf : s.imem.wf) (hs : s.status = .running)
    (hfit : s.launch.pcFits = true) (h0 : 0 ≤ s.pc.signed)
    (hm : s.pc.signed + 5 ≤ (s.launch.memWords : Int)) (w : Word)
    (hpc : (loneEffect s w).status = .running → inRange s (loneEffect s w).pc = true) :
    ∃ t, step (loadFetchWord s w) = .next { t with burst := 0 } ∧
      RunsAsAlone (placed s w) t (loneEffect (placed s w) w) := by
  have hrun := loneRun_placed hwf w hs hfit h0 hm
  have hw := wordAtPc_placed hwf w
  refine ⟨_, step_eq _, ?_⟩
  have h := hrun.five_edges (by rw [hw, loneEffect_placed]; exact hpc)
  rw [hw] at h
  exact h

/-- Where the fetch stands after that step, in terms of the instruction. -/
theorem fetchGoesOn_placed {s t u : State} (hwf : s.imem.wf) {w : Word}
    (h : FetchGoesOn (placed s w) t u) :
    ((∃ a b k, decode w = .beq a b k ∧ x s a = x s b) →
      t.pc = u.pc + 1 ∧ t.ifid.pcPlus1 = u.pc + 1) ∧
    ((¬ ∃ a b k, decode w = .beq a b k ∧ x s a = x s b) →
      t.pc = u.pc + 4 ∧ t.ifid.pcPlus1 = u.pc + 4) := by
  rw [FetchGoesOn, wordAtPc_placed hwf] at h
  change if loneTaken s w then _ else _ at h
  rw [← loneTaken_iff]
  by_cases htk : loneTaken s w = true
  · rw [if_pos htk] at h
    obtain ⟨hpc, hifid⟩ := h
    exact ⟨fun _ => ⟨hpc, congrArg IfId.pcPlus1 hifid⟩, fun hn => absurd htk hn⟩
  · rw [if_neg htk] at h
    obtain ⟨hu, hpc, hifid⟩ := h
    have hfive : ahead (placed s w) 5 = u.pc + 4 := by
      rw [hu, BitVec.add_assoc]
      exact congrArg (s.pc + ·) (by decide)
    have hnext : (fetched (placed s w) (ahead (placed s w) 4)).pcPlus1 = ahead (placed s w) 5 :=
      ahead_succ (placed s w) 4
    exact ⟨fun hy => absurd hy htk, fun _ => ⟨hpc.trans hfive, by rw [hifid, hnext, hfive]⟩⟩

/-- Settles O16: the step is five edges from an empty pipeline, and what the instruction does alone does
not depend on the words placed. -/
theorem placedWordIsFetchedAndRun : Obligations.PlacedWordIsFetchedAndRun := by
  intro s hwf hs hfit h0
  refine ⟨fun nbits w hn hm => ?_, fun i u hm hex hpc => ⟨decodeTableWord_encode i, ?_⟩⟩
  · obtain ⟨t, ht, hrun, hifid⟩ :=
      edge_fetches_placed hwf hs (tableWord nbits w) ((inRange_iff s _).2 ⟨h0, hm⟩)
    exact ⟨t, ht, hrun, by rw [hifid], by rw [hifid, decodeTableWord, if_pos hn]⟩
  · have hu : u = { loneEffect s (encode i) with imem := s.imem, stage := none, burst := s.burst } := by
      rw [exec_eq_loneEffect hs] at hex
      exact (Host.Outcome.next.inj hex).symm.trans (loneEffect_with s (encode i) s.imem none s.burst)
    subst hu
    obtain ⟨t, hstep, ⟨hreg, hdmem, hmarks, hstatus, hlaunch⟩, hon⟩ :=
      step_runs_placed hwf hs hfit h0 hm (encode i) hpc
    rw [loneEffect_placed] at hreg hdmem hmarks hstatus hlaunch hon
    rw [State.withFetchWord, tableWord_encode]
    refine ⟨_, hstep, hreg, hdmem, hmarks, hstatus, hlaunch, fun hr => ?_⟩
    obtain ⟨hcycles, hgo⟩ := hon hr
    have hfetch := fetchGoesOn_placed hwf hgo
    rw [decode_encode] at hfetch
    exact ⟨hcycles, hfetch⟩

end Sys2Proof.Machine
end

section
/-! `ADD` and `NOR` (spec/41_alu.md R200, R201): each of their four lines, and the whole instruction alone
and in order (R242, R323). -/

namespace Sys2Proof.Machine

/-! ### One line of an instruction -/

/-- `exec` of a state that asks for one line does that line. -/
theorem exec_of_stage (i : Instr) {s : State} {st : Stage} (h : s.stage = some st) :
    exec i s = .next (stageWork i st s) := by
  rw [exec_eq_perform, perform, h]

/-- The writeback line of an instruction that writes a register: register 0 is guarded (R175). -/
theorem writebackStage_eq (s : State) (d : RegIdx) : writebackStage s d =
    { s with reg := if d = 0 then s.reg else s.reg.set d.toNat s.memwb.writeData d.isLt,
             wbend := { instr := s.memwb.instr, writeData := s.memwb.writeData } } := by
  rw [← writeReg_reg]
  unfold writebackStage writeReg retire
  split <;> rfl

/-- Settles O31: each line of `ADD` is one record of the model, and writeback guards register 0. -/
theorem addStageByStage : Obligations.AddStageByStage := fun a b d s =>
  ⟨exec_of_stage (.add a b d), exec_of_stage (.add a b d), exec_of_stage (.add a b d),
    fun h => (exec_of_stage (.add a b d) h).trans (congrArg _ (writebackStage_eq s d))⟩

/-- Settles O32: the lines of `NOR` are those of `ADD` but for the value computed. -/
theorem norStageByStage : Obligations.NorStageByStage := fun a b d s =>
  ⟨exec_of_stage (.nor a b d), exec_of_stage (.nor a b d), exec_of_stage (.nor a b d),
    fun h => (exec_of_stage (.nor a b d) h).trans (congrArg _ (writebackStage_eq s d))⟩

/-! ### Four lines of which none stops -/

/-- The four lines of an instruction, one after another. -/
def fourLines (work : Stage → State → State) (t : State) : State :=
  work .writeback <| work .memory <| work .execute <| work .decode t

/-- An instruction whose lines leave `status` alone goes through all four of them (R323). -/
theorem inOrder_of_status_kept {work : Stage → State → State}
    (hwork : ∀ st t, (work st t).status = t.status) {s : State} (hs : s.status = .running) (w : Word) :
    inOrder w work s =
      { s with pc := (fourLines work (alone s w)).pc, reg := (fourLines work (alone s w)).reg,
               dmem := (fourLines work (alone s w)).dmem,
               dwritten := (fourLines work (alone s w)).dwritten } := by
  have halone : (alone s w).status = .running := hs
  unfold inOrder fourLines
  simp only [thenStage_of_running, hwork, halone, if_true]

/-! ### The two ALU instructions as one -/

/-- The four lines of an instruction that writes `f` of its two operands to `d`: what `ADD` and `NOR`
share. -/
def aluStage (f : Word → Word → Word) (a b d : RegIdx) (st : Stage) (s : State) : State :=
  match st with
  | .decode => decodeStage s a b (offset s.ifid.instr)
  | .execute => executeStage s
      { ExMem.idle s.idex.instr with aluResult := f (operandA s a) (operandB s b) }
  | .memory => memoryStage s s.exmem.aluResult
  | .writeback => writebackStage s d

theorem stageWork_add (a b d : RegIdx) : stageWork (.add a b d) = aluStage (· + ·) a b d := by
  funext st s
  cases st <;> rfl

theorem stageWork_nor (a b d : RegIdx) :
    stageWork (.nor a b d) = aluStage (fun v u => ~~~(v ||| u)) a b d := by
  funext st s
  cases st <;> rfl

section AluStage

variable (f : Word → Word → Word) (a b d : RegIdx)

/-- No line of an ALU instruction touches `pc`, data memory, the marks or `status` (R200, R201). -/
theorem aluStage_keeps (st : Stage) (s : State) :
    (aluStage f a b d st s).pc = s.pc ∧ (aluStage f a b d st s).dmem = s.dmem ∧
    (aluStage f a b d st s).dwritten = s.dwritten ∧ (aluStage f a b d st s).status = s.status := by
  cases st <;> simp [aluStage]

/-- Alone, an ALU instruction computes on the registers themselves: its operands come from decode, since
nothing is forwarded from bubbles. -/
theorem fourLines_aluStage_reg (s : State) (w : Word) :
    (fourLines (aluStage f a b d) (alone s w)).reg =
      if d = 0 then s.reg else s.reg.set d.toNat (f (x s a) (x s b)) d.isLt := by
  have hfwd : ∀ i v, fwd (decodeStage (alone s w) a b (offset w)) i v = v := fwd_of_bubbles rfl rfl rfl
  have hA : operandA (decodeStage (alone s w) a b (offset w)) a = x s a := hfwd a _
  have hB : operandB (decodeStage (alone s w) a b (offset w)) b = x s b := hfwd b _
  simp only [fourLines, aluStage, alone_ifid, hA, hB, writebackStage_reg, writeReg_reg,
    memoryStage_reg, memoryStage_memwb, executeStage_reg, executeStage_exmem, decodeStage_reg,
    alone_reg]

/-- The rule of R200 and R201 for the whole instruction. -/
theorem inOrder_aluStage {s : State} (hs : s.status = .running) (w : Word) :
    inOrder w (aluStage f a b d) s =
      { s with pc := s.pc + 1,
               reg := if d = 0 then s.reg else s.reg.set d.toNat (f (x s a) (x s b)) d.isLt } := by
  have hkeep := aluStage_keeps f a b d
  have hpc : (fourLines (aluStage f a b d) (alone s w)).pc = s.pc + 1 := by
    simp only [fourLines, hkeep, alone_pc]
  have hdmem : (fourLines (aluStage f a b d) (alone s w)).dmem = s.dmem := by
    simp only [fourLines, hkeep, alone_dmem]
  have hmarks : (fourLines (aluStage f a b d) (alone s w)).dwritten = s.dwritten := by
    simp only [fourLines, hkeep, alone_dwritten]
  have hstatus : ∀ st t, (aluStage f a b d st t).status = t.status := by
    simp only [hkeep, implies_true]
  rw [inOrder_of_status_kept hstatus hs, hpc, hdmem, hmarks, fourLines_aluStage_reg]

end AluStage

/-- Settles O39: the rule of the shared lines, for the sum and for the bitwise NOR. -/
theorem aluInstructionsAlone : Obligations.AluInstructionsAlone := by
  intro a b d s hstage hs
  constructor
  · rw [exec_none hstage, stageWork_add, inOrder_aluStage _ a b d hs]
  · rw [exec_none hstage, stageWork_nor, inOrder_aluStage _ a b d hs]

end Sys2Proof.Machine
end

section
/-! `LW` and `SW` (spec/42_load_store.md R220 to R222): each of their lines with its faults, and the whole
instruction alone and in order (R242, R323). -/

namespace Sys2Proof.Machine

/-! ### The memory line (R220, R222) -/

section MemoryLine

variable (a b : RegIdx) (k : Off16) {s : State}

theorem memory_lw_of_readable (hr : inRange s s.exmem.aluResult = true)
    (hd : readable s s.exmem.aluResult.toNat = true) :
    stageWork (.lw a b k) .memory s = memoryStage s (s.dmem.read s.exmem.aluResult.toNat) := by
  simp only [stageWork, lwStage, dmemRead_of_inRange hr, if_pos hd]

theorem memory_lw_of_not_readable (hr : inRange s s.exmem.aluResult = true)
    (hd : readable s s.exmem.aluResult.toNat = false) :
    stageWork (.lw a b k) .memory s = raiseFault s (.uninitDataRead s.exmem.aluResult) := by
  simp only [stageWork, lwStage, dmemRead_of_inRange hr, hd, Bool.false_eq_true, if_false]

theorem memory_lw_of_not_inRange (hr : inRange s s.exmem.aluResult = false) :
    stageWork (.lw a b k) .memory s = raiseFault s (.dataAddress s.exmem.aluResult) := by
  simp only [stageWork, lwStage, dmemRead_of_not_inRange hr]

theorem memory_sw_of_inRange (hr : inRange s s.exmem.aluResult = true) :
    stageWork (.sw a b k) .memory s =
      memoryStage { s with dmem := s.dmem.write s.exmem.aluResult.toNat s.exmem.storeData,
                           dwritten := setMark s.dwritten s.exmem.aluResult.toNat } 0 := by
  simp only [stageWork, swStage, dmemWrite_of_inRange hr]

theorem memory_sw_of_not_inRange (hr : inRange s s.exmem.aluResult = false) :
    stageWork (.sw a b k) .memory s = raiseFault s (.dataAddress s.exmem.aluResult) := by
  simp only [stageWork, swStage, dmemWrite_of_not_inRange hr]

end MemoryLine

/-- Settles O33: the memory line is decided by the range check, then by `readable`; the other lines are
records of the model. -/
theorem loadStageByStage : Obligations.LoadStageByStage := by
  intro a b k s
  have hline {st : Stage} (h : s.stage = some st) := exec_of_stage (.lw a b k) h
  refine ⟨hline, hline, fun h hr hd => ?_, fun h hr hd => ?_, fun h hr => ?_, fun h => ?_⟩
  · rw [hline h, memory_lw_of_readable a b k hr hd]; rfl
  · rw [hline h, memory_lw_of_not_readable a b k hr hd]; rfl
  · rw [hline h, memory_lw_of_not_inRange a b k hr]; rfl
  · exact (hline h).trans (congrArg _ (writebackStage_eq s b))

/-- Settles O34: the range check decides the memory line; the other lines are records of the model. -/
theorem storeStageByStage : Obligations.StoreStageByStage := by
  intro a b k s
  have hline {st : Stage} (h : s.stage = some st) := exec_of_stage (.sw a b k) h
  refine ⟨hline, hline, fun h hr => ?_, fun h hr => ?_, hline⟩
  · rw [hline h, memory_sw_of_inRange a b k hr]; rfl
  · rw [hline h, memory_sw_of_not_inRange a b k hr]; rfl

/-! ### The instruction alone, from its memory line on (R323) -/

section FromMemory

variable {i : Instr} {s : State}

/-- The first two lines of an instruction alone stop nothing, so its memory line decides how it goes on. -/
theorem thenStage_memory_encode (hs : s.status = .running) (i : Instr) :
    thenStage (stageWork i) .memory (thenStage (stageWork i) .execute
      (thenStage (stageWork i) .decode (alone s (encode i)))) =
      stageWork i .memory (loneAtMemory s (encode i)) := by
  simpa only [decode_encode] using thenStage_memory_alone hs (encode i)

/-- A fault of the memory line is all that is left of an instruction alone (R281). -/
theorem exec_alone_of_memory_fault {f : Fault} (hstage : s.stage = none) (hs : s.status = .running)
    (hf : stageWork i .memory (loneAtMemory s (encode i)) = raiseFault (loneAtMemory s (encode i)) f) :
    exec i s = .next (raiseFault s f) := by
  have hn : (raiseFault (loneAtMemory s (encode i)) f).status ≠ .running := nofun
  rw [exec_none hstage, inOrder, thenStage_memory_encode hs, hf, thenStage_of_not_running hn, if_neg hn]
  rfl

/-- An instruction alone other than `HALT` whose memory line ends in `t` keeps what `t` and its writeback
line did. -/
theorem exec_alone_of_memory_running {t : State} (hstage : s.stage = none) (hs : s.status = .running)
    (ht : stageWork i .memory (loneAtMemory s (encode i)) = t) (hrun : t.status = .running)
    (hi : i ≠ .halt) :
    exec i s = .next { s with
      pc := (stageWork i .writeback t).pc, reg := (stageWork i .writeback t).reg,
      dmem := (stageWork i .writeback t).dmem, dwritten := (stageWork i .writeback t).dwritten } := by
  have hend : (stageWork i .writeback t).status = .running := (writeback_status hi t).trans hrun
  rw [exec_none hstage, inOrder, thenStage_memory_encode hs, ht, thenStage_of_running hrun, if_pos hend]

end FromMemory

/-! ### The address and the data of the instruction alone (R221) -/

/-- Alone, the base register is read in decode, since nothing is forwarded from bubbles. -/
theorem effectiveAddress_alone (s : State) (w : Word) (a b : RegIdx) (k : Word) :
    effectiveAddress (decodeStage (alone s w) a b k) a = x s a + k :=
  congrArg (· + k) (fwd_of_bubbles rfl rfl rfl a (x s a))

theorem operandB_alone (s : State) (w : Word) (a b : RegIdx) (k : Word) :
    operandB (decodeStage (alone s w) a b k) b = x s b :=
  fwd_of_bubbles rfl rfl rfl b (x s b)

theorem loneExMem_encode (s : State) (i : Instr) :
    loneExMem s (encode i) =
      (stageWork i .execute (stageWork i .decode (alone s (encode i)))).exmem := by
  have h := execute_decode_alone s (encode i)
  rw [decode_encode] at h
  rw [h]; rfl

theorem loneExMem_lw (s : State) (a b : RegIdx) (k : Off16) :
    loneExMem s (encode (.lw a b k)) =
      { ExMem.idle (encode (.lw a b k)) with aluResult := x s a + k.sext } := by
  simp only [loneExMem_encode, stageWork, lwStage, effectiveAddress_alone, executeStage_exmem,
    decodeStage_idex, alone_ifid]

theorem loneExMem_sw (s : State) (a b : RegIdx) (k : Off16) :
    loneExMem s (encode (.sw a b k)) =
      { ExMem.idle (encode (.sw a b k)) with aluResult := x s a + k.sext, storeData := x s b } := by
  simp only [loneExMem_encode, stageWork, swStage, effectiveAddress_alone, operandB_alone,
    executeStage_exmem, decodeStage_idex, alone_ifid]

/-! ### The whole instruction -/

/-- Settles O40: the memory line at the address of R221, then writeback of the word it read. -/
theorem loadAlone : Obligations.LoadAlone := by
  rintro a b k s _ hstage hs rfl
  have had : (loneAtMemory s (encode (.lw a b k))).exmem.aluResult = x s a + k.signExtend 32 :=
    congrArg ExMem.aluResult (loneExMem_lw s a b k)
  rw [← had]
  refine ⟨fun hr hd => ?_, fun hr hd => ?_, fun hr => ?_⟩
  · rw [exec_alone_of_memory_running hstage hs (memory_lw_of_readable a b k hr hd) hs nofun]
    simp only [stageWork, lwStage, writebackStage_eq]
    rfl
  · exact exec_alone_of_memory_fault hstage hs (memory_lw_of_not_readable a b k hr hd)
  · exact exec_alone_of_memory_fault hstage hs (memory_lw_of_not_inRange a b k hr)

/-- Settles O41: the memory line at the address of R221; writeback only retires. -/
theorem storeAlone : Obligations.StoreAlone := by
  rintro a b k s _ hstage hs hwf rfl
  have had : (loneAtMemory s (encode (.sw a b k))).exmem.aluResult = x s a + k.signExtend 32 :=
    congrArg ExMem.aluResult (loneExMem_sw s a b k)
  have hdata : (loneAtMemory s (encode (.sw a b k))).exmem.storeData = x s b :=
    congrArg ExMem.storeData (loneExMem_sw s a b k)
  rw [← had]
  refine ⟨fun hr => ?_, fun hr => ?_⟩
  · have hread := Memory.read_write hwf (loneAtMemory s (encode (.sw a b k))).exmem.aluResult.toNat
    refine ⟨_, exec_alone_of_memory_running hstage hs (memory_sw_of_inRange a b k hr) hs nofun, rfl,
      ?_, fun c hc => ?_, fun c => mem_setMark⟩
    · exact ((hread _ _).trans (if_pos rfl)).trans hdata
    · exact (hread _ _).trans (if_neg hc)
  · exact exec_alone_of_memory_fault hstage hs (memory_sw_of_not_inRange a b k hr)

end Sys2Proof.Machine
end

section
/-! `BEQ` (spec/43_branch.md R240, R241): each of its lines, taken and not taken, and the whole instruction
alone and in order (R242, R323). -/

namespace Sys2Proof.Machine

/-! ### The equality flag and the memory line (R240) -/

/-- The flag is a decided equation between the operands (R202). -/
theorem equalityFlag_eq_decide (v u : Word) : equalityFlag v u = decide (v = u) :=
  beq_eq_decide v u

section MemoryLine

variable (a b : RegIdx) (k : Off16) {s : State}

theorem memory_beq_of_flag (hf : s.exmem.equalityFlag = true) :
    stageWork (.beq a b k) .memory s = redirect (memoryStage s 0) s.exmem.branchTarget :=
  if_pos hf

theorem memory_beq_of_not_flag (hf : s.exmem.equalityFlag = false) :
    stageWork (.beq a b k) .memory s = memoryStage s 0 :=
  if_neg (ne_true_of_eq_false hf)

end MemoryLine

/-- Settles O35: the flag decides the memory line; the other lines are records of the model. -/
theorem branchStageByStage : Obligations.BranchStageByStage := by
  intro a b k s
  have hline {st : Stage} (h : s.stage = some st) := exec_of_stage (.beq a b k) h
  refine ⟨hline, fun h => ?_, fun h hf => ?_, fun h hf => ?_, hline⟩
  · rw [hline h, ← equalityFlag_eq_decide]; rfl
  · rw [hline h, memory_beq_of_flag a b k hf]; rfl
  · rw [hline h, memory_beq_of_not_flag a b k hf]; rfl

/-! ### The whole instruction -/

theorem operandA_alone (s : State) (w : Word) (a b : RegIdx) (k : Word) :
    operandA (decodeStage (alone s w) a b k) a = x s a :=
  fwd_of_bubbles rfl rfl rfl a (x s a)

/-- Alone, `BEQ` compares the registers themselves, and its target counts from the address behind its own
(R241). -/
theorem loneExMem_beq (s : State) (a b : RegIdx) (k : Off16) :
    loneExMem s (encode (.beq a b k)) =
      { ExMem.idle (encode (.beq a b k)) with
        equalityFlag := decide (x s a = x s b), branchTarget := s.pc + 1 + k.sext } := by
  simp only [loneExMem_encode, stageWork, beqStage, operandA_alone, operandB_alone,
    equalityFlag_eq_decide, branchTarget, executeStage_exmem, decodeStage_idex, alone_ifid]

/-- Settles O42: equality of the registers sets the flag of the memory line, and the flag decides
`pc`; writeback only retires. -/
theorem branchAlone : Obligations.BranchAlone := by
  intro a b k s hstage hs
  have hflag : (loneAtMemory s (encode (.beq a b k))).exmem.equalityFlag = decide (x s a = x s b) :=
    congrArg ExMem.equalityFlag (loneExMem_beq s a b k)
  have htarget : (loneAtMemory s (encode (.beq a b k))).exmem.branchTarget =
      s.pc + 1 + k.signExtend 32 :=
    congrArg ExMem.branchTarget (loneExMem_beq s a b k)
  refine ⟨fun heq => ?_, fun hne => ?_⟩
  · have hf := hflag.trans (decide_eq_true heq)
    rw [exec_alone_of_memory_running hstage hs (memory_beq_of_flag a b k hf) hs nofun, htarget]
    rfl
  · have hf := hflag.trans (decide_eq_false hne)
    rw [exec_alone_of_memory_running hstage hs (memory_beq_of_not_flag a b k hf) hs nofun]
    rfl

end Sys2Proof.Machine
end

section
/-! `HALT`, `NOOP` and `JALR` (spec/44_halt_noop_jalr.md R260 to R262): each of their lines, and the whole
instruction alone and in order (R323). -/

namespace Sys2Proof.Machine

/-! ### The instructions, stage by stage -/

/-- Settles O36: three lines hand the word on, and the writeback line changes `status` only. -/
theorem haltStageByStage : Obligations.HaltStageByStage := fun _ =>
  ⟨exec_of_stage .halt, exec_of_stage .halt, exec_of_stage .halt, exec_of_stage .halt⟩

/-- Settles O37: four lines hand the word on, the last one to WBEND. -/
theorem noopStageByStage : Obligations.NoopStageByStage := fun _ =>
  ⟨exec_of_stage .noop, exec_of_stage .noop, exec_of_stage .noop, exec_of_stage .noop⟩

/-- Settles O38: two lines hand the word on, and the memory line raises the fault with it. -/
theorem jalrStageByStage : Obligations.JalrStageByStage := fun a b _ =>
  ⟨exec_of_stage (.jalr a b), exec_of_stage (.jalr a b), exec_of_stage (.jalr a b)⟩

/-! ### The memory and writeback lines (R260 to R262) -/

theorem memory_halt (s : State) : stageWork .halt .memory s = memoryStage s 0 := rfl

theorem writeback_halt (s : State) : stageWork .halt .writeback s = { s with status := .halted } := rfl

theorem memory_noop (s : State) : stageWork .noop .memory s = memoryStage s 0 := rfl

theorem writeback_noop (s : State) : stageWork .noop .writeback s = retire s := rfl

theorem memory_jalr (a b : RegIdx) (s : State) :
    stageWork (.jalr a b) .memory s = raiseFault s (.unimplementedJalr s.exmem.instr) := rfl

/-! ### The instruction alone, from its memory line on (R323) -/

section Alone

variable {s : State}

/-- `HALT` alone gets to its writeback line, which stops it, so only `status` is left of it (R131). -/
theorem exec_halt_alone (hstage : s.stage = none) (hs : s.status = .running) :
    exec .halt s = .next { s with status := .halted } := by
  have hrun : (memoryStage (loneAtMemory s (encode .halt)) 0).status = .running := hs
  rw [exec_none hstage, inOrder, thenStage_memory_encode hs, memory_halt, thenStage_of_running hrun,
    writeback_halt, if_neg nofun]

/-- `NOOP` alone goes through writeback, and no line of it touches what an instruction alone keeps but
`pc`, which fetch has moved on. -/
theorem exec_noop_alone (hstage : s.stage = none) (hs : s.status = .running) :
    exec .noop s = .next { s with pc := s.pc + 1 } := by
  rw [exec_alone_of_memory_running hstage hs (memory_noop _) hs nofun, writeback_noop]
  rfl

/-- `JALR` alone stops in its memory line, where EXMEM holds its own word. -/
theorem exec_jalr_alone (a b : RegIdx) (hstage : s.stage = none) (hs : s.status = .running) :
    exec (.jalr a b) s = .next (raiseFault s (.unimplementedJalr (encode (.jalr a b)))) := by
  have hword : (loneAtMemory s (encode (.jalr a b))).exmem.instr = encode (.jalr a b) :=
    loneExMem_instr s _
  have hfault := memory_jalr a b (loneAtMemory s (encode (.jalr a b)))
  rw [hword] at hfault
  exact exec_alone_of_memory_fault hstage hs hfault

end Alone

/-- Settles O43: `HALT` stops in writeback, `NOOP` in no line, `JALR` in the memory line. -/
theorem systemInstructionsAlone : Obligations.SystemInstructionsAlone := fun a b _ hstage hs =>
  ⟨exec_halt_alone hstage hs, exec_noop_alone hstage hs, exec_jalr_alone a b hstage hs⟩

end Sys2Proof.Machine
end

section
/-! Faults and halting (spec/60_exceptions.md): the condition of each fault (R280), what a fault leaves
(R281), and how `Halted` is entered and left (R295). -/

namespace Sys2Proof.Machine

/-! ### The `status` an edge of a running CORE ends with (R132) -/

theorem map_eq_error_iff {ε α β : Type} {g : α → β} {r : Except ε α} {e : ε} :
    r.map g = .error e ↔ r = .error e := by
  cases r with
  | error e' => simp only [Except.map, Except.error.injEq]
  | ok v => exact iff_of_false nofun nofun

section EdgeStatus

variable {s t : State}

theorem eq_blockStep (h : clockEdge false s = .next t) : t = blockStep s :=
  (Host.Outcome.next.inj ((clockEdge_eq_blockStep s).symm.trans h)).symm

theorem clockEdge_of_not_running (hs : s.status ≠ .running) : clockEdge false s = .next s := by
  rw [clockEdge_eq_blockStep, blockStep_of_not_running hs]

theorem fetchAnswer_error_iff {f : Fault} : fetchAnswer s = .error f ↔ fetch s = .error f := by
  rw [fetchAnswer_eq, map_eq_error_iff]

/-- Behind a `HALT` no fault is taken, and no other instruction halts the CORE (R132, R295). -/
theorem edge_halted_iff (h : clockEdge false s = .next t) (hs : s.status = .running) :
    t.status = .halted ↔ decode s.memwb.instr = .halt := by
  rw [eq_blockStep h]
  obtain ⟨hn, -⟩ | ⟨-, hh, e⟩ | ⟨-, hh, f, -, e⟩ | ⟨-, hh, m, -, ⟨f, -, e⟩ | ⟨p, -, e⟩⟩ :=
    blockStep_cases s
  · exact absurd hs hn
  · rw [e]; exact iff_of_true rfl hh
  · rw [e]; exact iff_of_false nofun hh
  · rw [e]; exact iff_of_false nofun hh
  · rw [e]; exact iff_of_false (fun ht => nomatch hs.symm.trans ht) hh

/-- A fault is the memory block's or, where that block raises none, the fetch unit's (R132). -/
theorem edge_faulted_iff (h : clockEdge false s = .next t) (hs : s.status = .running)
    (hh : decode s.memwb.instr ≠ .halt) (f : Fault) :
    t.status = .faulted f ↔ (memoryLoadStore s).memwbNext = .error f ∨
      (∃ m, (memoryLoadStore s).memwbNext = .ok m) ∧ fetch s = .error f := by
  rw [eq_blockStep h, ← fetchAnswer_error_iff]
  cases hm : (memoryLoadStore s).memwbNext with
  | error g => simp [blockStep_of_memoryFault hs hh hm]
  | ok m =>
    cases hp : fetchAnswer s with
    | error g => simp [blockStep_of_fetchFault hs hh hm hp]
    | ok p => simp [blockStep_of_ok hs hh hm hp, blockCommit, hs]

end EdgeStatus

/-! ### When an access faults (R74, R75, R76) -/

theorem fetch_error_iff (s : State) (f : Fault) :
    fetch s = .error f ↔
      flush s = false ∧ stall s = false ∧ f = .fetchAddress s.pc ∧ inRange s s.pc = false := by
  rw [← and_assoc, ← Bool.or_eq_false_iff]
  obtain ⟨hn, e⟩ | ⟨-, hr, e⟩ | ⟨hn, hr, e⟩ := fetch_cases s <;> rw [e]
  · simp [hn]
  · simp [hr]
  · simpa [hn, hr] using eq_comm

theorem dataAddr_error_iff (s : State) (v : Word) (f : Fault) :
    dataAddr s v = .error f ↔ f = .dataAddress v ∧ inRange s v = false := by
  obtain ⟨hr, e⟩ | ⟨hr, e⟩ := dataAddr_cases s v <;> rw [e]
  · simp [hr]
  · simpa [hr] using eq_comm

theorem dmemRead_error_iff (s : State) (v : Word) (f : Fault) :
    dmemRead s v = .error f ↔ (f = .dataAddress v ∧ inRange s v = false) ∨
      (f = .uninitDataRead v ∧ inRange s v = true ∧ readable s v.toNat = false) := by
  obtain ⟨hr, hrd, e⟩ | ⟨hr, hrd, e⟩ | ⟨hr, e⟩ := dmemRead_cases s v <;> rw [e]
  · simp [hr, hrd]
  · simpa [hr, hrd] using eq_comm
  · simpa [hr] using eq_comm

theorem readable_eq_false_iff (s : State) (a : Nat) :
    readable s a = false ↔
      s.launch.dataUninit = .fault ∧ s.launch.imageLen ≤ a ∧ a ∉ s.dwritten := by
  refine ⟨fun h => ?_, fun ⟨hu, hi, hw⟩ => readable_eq_false hi hw hu⟩
  rw [← Bool.not_eq_true, readable_iff] at h
  push Not at h
  obtain ⟨hi, hw, hu⟩ := h
  cases hd : s.launch.dataUninit with
  | fault => exact ⟨rfl, hi, hw⟩
  | zero => exact absurd hd hu

/-! ### When the memory block faults (R171) -/

section MemoryBlock

variable {s : State} {a b : RegIdx} {k : Off16}

theorem memwbNext_of_lw (h : decode s.exmem.instr = .lw a b k) :
    (memoryLoadStore s).memwbNext =
      (dmemRead s s.exmem.aluResult).map fun v => { instr := s.exmem.instr, writeData := v } := by
  simp only [memoryLoadStore, opIn, op_of_decode h]
  cases dmemRead s s.exmem.aluResult <;> rfl

theorem memwbNext_of_sw (h : decode s.exmem.instr = .sw a b k) :
    (memoryLoadStore s).memwbNext =
      (dataAddr s s.exmem.aluResult).map fun _ => { instr := s.exmem.instr, writeData := 0 } := by
  simp only [memoryLoadStore, opIn, op_of_decode h]
  cases dataAddr s s.exmem.aluResult <;> rfl

theorem memwbNext_of_jalr (h : decode s.exmem.instr = .jalr a b) :
    (memoryLoadStore s).memwbNext = .error (.unimplementedJalr s.exmem.instr) := by
  simp only [memoryLoadStore, opIn, op_of_decode h]; rfl

/-- An instruction other than `LW`, `SW` and `JALR` raises no fault in the memory stage. -/
theorem memwbNext_ok (hlw : ∀ a b k, decode s.exmem.instr ≠ .lw a b k)
    (hsw : ∀ a b k, decode s.exmem.instr ≠ .sw a b k)
    (hjalr : ∀ a b, decode s.exmem.instr ≠ .jalr a b) :
    ∃ m, (memoryLoadStore s).memwbNext = .ok m := by
  cases hi : decode s.exmem.instr with
  | lw a b k => exact absurd hi (hlw a b k)
  | sw a b k => exact absurd hi (hsw a b k)
  | jalr a b => exact absurd hi (hjalr a b)
  | _ => simp only [memoryLoadStore, opIn, op_of_decode hi]; exact ⟨_, rfl⟩

end MemoryBlock

/-- The faults of the memory block, row by row of R280. -/
theorem memwbNext_error_iff (s : State) (f : Fault) :
    (memoryLoadStore s).memwbNext = .error f ↔
      ((∃ a b, decode s.exmem.instr = .jalr a b) ∧ f = .unimplementedJalr s.exmem.instr) ∨
      ((∃ a b k, decode s.exmem.instr = .lw a b k ∨ decode s.exmem.instr = .sw a b k) ∧
        f = .dataAddress s.exmem.aluResult ∧ inRange s s.exmem.aluResult = false) ∨
      ((∃ a b k, decode s.exmem.instr = .lw a b k) ∧ f = .uninitDataRead s.exmem.aluResult ∧
        inRange s s.exmem.aluResult = true ∧ readable s s.exmem.aluResult.toNat = false) := by
  cases hi : decode s.exmem.instr with
  | lw a b k => simp [memwbNext_of_lw hi, map_eq_error_iff, dmemRead_error_iff]
  | sw a b k => simp [memwbNext_of_sw hi, map_eq_error_iff, dataAddr_error_iff]
  | jalr a b => simpa [memwbNext_of_jalr hi] using eq_comm
  | _ =>
    obtain ⟨m, e⟩ := memwbNext_ok (s := s) (by simp [hi]) (by simp [hi]) (by simp [hi])
    simp [e]

/-! ### The table of R280 -/

section FaultTable

variable {s t : State} (h : clockEdge false s = .next t) (hs : s.status = .running)
  (hh : decode s.memwb.instr ≠ .halt)

include h hs hh

theorem faulted_unimplementedJalr_iff (w : Word) :
    t.status = .faulted (.unimplementedJalr w) ↔
      (∃ a b, decode s.exmem.instr = .jalr a b) ∧ w = s.exmem.instr := by
  rw [edge_faulted_iff h hs hh, memwbNext_error_iff, fetch_error_iff]
  simp

theorem faulted_dataAddress_iff (v : Word) :
    t.status = .faulted (.dataAddress v) ↔
      (∃ a b k, decode s.exmem.instr = .lw a b k ∨ decode s.exmem.instr = .sw a b k) ∧
      v = s.exmem.aluResult ∧ inRange s v = false := by
  rw [edge_faulted_iff h hs hh, memwbNext_error_iff, fetch_error_iff]
  simp only [reduceCtorEq, false_and, and_false, or_false, false_or, Fault.dataAddress.injEq]
  exact and_congr_right fun _ => and_congr_right fun e => by rw [e]

theorem faulted_uninitDataRead_iff (v : Word) :
    t.status = .faulted (.uninitDataRead v) ↔
      (∃ a b k, decode s.exmem.instr = .lw a b k) ∧ v = s.exmem.aluResult ∧
      inRange s v = true ∧ readable s v.toNat = false := by
  rw [edge_faulted_iff h hs hh, memwbNext_error_iff, fetch_error_iff]
  simp only [reduceCtorEq, false_and, and_false, or_false, false_or, Fault.uninitDataRead.injEq]
  exact and_congr_right fun _ => and_congr_right fun e => by rw [e]

theorem faulted_fetchAddress_iff (p : Word) :
    t.status = .faulted (.fetchAddress p) ↔
      (∃ m, (memoryLoadStore s).memwbNext = .ok m) ∧ flush s = false ∧ stall s = false ∧
      p = s.pc ∧ inRange s p = false := by
  rw [edge_faulted_iff h hs hh, memwbNext_error_iff, fetch_error_iff]
  simp only [reduceCtorEq, false_and, and_false, false_or, Fault.fetchAddress.injEq]
  exact and_congr_right fun _ => and_congr_right fun _ => and_congr_right fun _ =>
    and_congr_right fun e => by rw [e]

end FaultTable

/-- Settles O45: one lemma above for each row of the table; the codes and the information are read off
`Fault.code` and `Fault.info`. -/
theorem faultsAreRaisedAsTabled : Obligations.FaultsAreRaisedAsTabled := by
  refine ⟨fun v => ⟨rfl, rfl, rfl, rfl, rfl, rfl, rfl, rfl⟩, fun s t hs h hh =>
    ⟨faulted_unimplementedJalr_iff h hs hh, fun v => ?_, fun v => ?_, fun p => ?_⟩⟩
  · rw [faulted_dataAddress_iff h hs hh, inRange_eq_false_iff]
  · rw [faulted_uninitDataRead_iff h hs hh, inRange_iff, readable_eq_false_iff, and_assoc]
  · rw [faulted_fetchAddress_iff h hs hh, inRange_eq_false_iff]

/-! ### Stopped, until reset (R281, R283, R295) -/

/-- The reset edge of a CORE with any `status` leaves it running (R310). -/
theorem clockEdge_reset (s : State) :
    clockEdge true s = .next (restart s) ∧ (restart s).status = .running := ⟨rfl, rfl⟩

/-- Settles O46: an edge that does not end running changes `status` at most, and an edge of a CORE that
is not running changes nothing. -/
theorem aFaultCommitsNothing : Obligations.AFaultCommitsNothing := by
  intro s t f _ h ht
  have hstop : t.status ≠ .running := by rw [ht]; exact nofun
  obtain ⟨st, rfl⟩ := edge_stops h (.inr hstop)
  obtain rfl : st = .faulted f := ht
  exact ⟨rfl, clockEdge_of_not_running hstop, clockEdge_reset _⟩

/-- Settles O47: `edge_halted_iff` says when, the halting cycle of the blocks what with, and a CORE that
is not running stays as it is. -/
theorem haltedIsEnteredByHaltAndFinal : Obligations.HaltedIsEnteredByHaltAndFinal := by
  intro s t h
  have hhalt : s.status = .running → decode s.memwb.instr = .halt → t = { s with status := .halted } :=
    fun hs hh => (eq_blockStep h).trans (blockStep_of_halt hs hh)
  refine ⟨hhalt, fun hs ht => ?_, fun hs => ⟨?_, clockEdge_reset s⟩⟩
  · have hh := (edge_halted_iff h hs).1 ht
    exact ⟨hh, hhalt hs hh⟩
  · exact (eq_blockStep h).trans (blockStep_of_not_running (by rw [hs]; exact nofun))

end Sys2Proof.Machine
end

section
/-! The reset edge and the drained pipeline (spec/70_reset_and_hazards.md R310, R311, R323). -/

namespace Sys2Proof.Machine

/-! ### The reset edge (R310) -/

/-- Settles O9: the image read back from `imem` is the one loaded, and a restart is its launch. -/
theorem resetEdgeRestoresTheLaunch : Obligations.ResetEdgeRestoresTheLaunch := by
  intro s ws himem hlen
  have hcells : imageCells s = Memory.ofImage 0 ws := imageCells_of_holdsImage ⟨rfl, hlen, himem⟩
  change Host.Outcome.next (restart s) = _
  rw [restart, hcells, launchState, ← hlen]

/-! ### The drained pipeline (R311, R323) -/

theorem emptied_of_bubbles {s : State} (hf : s.ifid = IfId.bubble) (hd : s.idex = IdEx.bubble)
    (hx : s.exmem = ExMem.bubble) (hm : s.memwb = MemWb.bubble) (hw : s.wbend = WbEnd.bubble) :
    emptied s = s := by
  rw [emptied, ← hf, ← hd, ← hx, ← hm, ← hw]

/-- A drained pipeline with `NOOP`s behind the word at `pc`. -/
theorem loneRun_of_noops {s : State} (hs : s.status = .running) (hfit : s.launch.pcFits = true)
    (h0 : 0 ≤ s.pc.signed) (hm : s.pc.signed + 5 ≤ (s.launch.memWords : Int))
    (hnoop : ∀ k, 1 ≤ k → k ≤ 4 → decode (s.imem.read (s.pc.toNat + k)) = .noop) : LoneRun s where
  running := hs
  range := fun _ hk => inRange_ahead hfit hk hm h0
  noop := fun k h1 h4 => by rw [ahead_toNat hfit h4 hm h0]; exact hnoop k h1 h4

/-- Settles O17: five edges of a `LoneRun` do what the word does alone. -/
theorem drainedPipelineRunsTheInstruction : Obligations.DrainedPipelineRunsTheInstruction := by
  intro i s u hs hfit hf hd hx hmw hwb h0 hm hword hnoop hex hpc
  have hrun := loneRun_of_noops hs hfit h0 hm hnoop
  obtain rfl : { loneEffect s (encode i) with imem := s.imem, stage := none, burst := s.burst } = u := by
    rw [exec_eq_loneEffect hs] at hex
    exact (loneEffect_with s (encode i) s.imem none s.burst).symm.trans (Host.Outcome.next.inj hex)
  have hw : wordAtPc s = encode i := hword
  have h := hrun.five_edges (by rw [hw]; exact hpc)
  rw [emptied_of_bubbles hf hd hx hmw hwb, hw] at h
  obtain ⟨⟨hreg, hdmem, hmarks, hstatus, -⟩, hon⟩ := h
  refine ⟨_, edges_eq 5 s, hreg, hdmem, hmarks, hstatus, fun hr => ?_⟩
  obtain ⟨-, hgo⟩ := hon hr
  have htaken := loneTaken_iff s (encode i)
  rw [decode_encode] at htaken
  rw [FetchGoesOn, hw] at hgo
  rw [← htaken]
  by_cases htk : loneTaken s (encode i) = true
  · rw [if_pos htk] at hgo
    exact ⟨fun _ => hgo, fun hn => absurd htk hn⟩
  · rw [if_neg htk] at hgo
    obtain ⟨hu, hp, hifid⟩ := hgo
    have hfive : ahead s 5 = (loneEffect s (encode i)).pc + 4 := by
      rw [hu, BitVec.add_assoc]
      exact congrArg (s.pc + ·) (by decide)
    refine ⟨fun hy => absurd hy htk, fun _ => ⟨hu, hp.trans hfive, ?_⟩⟩
    rw [hifid, fetched, ahead_succ, hfive, ahead_toNat hfit le_rfl hm h0]

end Sys2Proof.Machine
end

section
/-! One step of the in-order execution (spec/70_reset_and_hazards.md R323) in terms of the word at `pc`: the
unused bits of the word, which the canonical word of its instruction has zero (R109), do not matter. -/

namespace Sys2Proof.Machine

/-! ### Two words of the same instruction (R101, R109) -/

/-- The offset of an instruction, where it uses one (R106). -/
def offsetOperand : Instr → Option Off16
  | .lw _ _ k => some k
  | .sw _ _ k => some k
  | .beq _ _ k => some k
  | .add _ _ _ => none
  | .nor _ _ _ => none
  | .jalr _ _ => none
  | .halt => none
  | .noop => none

/-- The offset of an instruction is the offset field of its word (R101, R105). -/
theorem off16_of_decode {w : Word} {j : Instr} {k : Off16} (h : decode w = j)
    (hj : offsetOperand j = some k) : off16 w = k := by
  have hd := decodesTo w
  rw [h] at hd
  generalize op w = o at hd
  cases hd with
  | lw => exact Option.some.inj hj
  | sw => exact Option.some.inj hj
  | beq => exact Option.some.inj hj
  | _ => cases hj

theorem exists_offsetOperand {j : Instr} (h : usesOffset j = true) : ∃ k, offsetOperand j = some k := by
  cases j with
  | lw a b k => exact ⟨k, rfl⟩
  | sw a b k => exact ⟨k, rfl⟩
  | beq a b k => exact ⟨k, rfl⟩
  | _ => cases h

theorem exists_regOperands {j : Instr} (h : readsA j = true ∨ readsB j = true) :
    ∃ p, regOperands j = some p := by
  cases j with
  | halt => exact absurd h (by decide)
  | noop => exact absurd h (by decide)
  | _ => exact ⟨_, rfl⟩

section SameInstr

variable {w w' : Word} (h : decode w' = decode w)

include h

theorem op_eq_of_decode_eq : op w' = op w := by
  rw [← opNumber_decode, h, opNumber_decode]

/-- The registers an instruction reads are the same fields of all its words. -/
theorem regs_eq_of_decode_eq (hr : readsA (decode w) = true ∨ readsB (decode w) = true) :
    regA w' = regA w ∧ regB w' = regB w := by
  obtain ⟨⟨a, b⟩, hj⟩ := exists_regOperands hr
  obtain ⟨hA, hB⟩ := regs_of_decode rfl hj
  obtain ⟨hA', hB'⟩ := regs_of_decode h hj
  exact ⟨hA'.trans hA.symm, hB'.trans hB.symm⟩

theorem offset_eq_of_decode_eq (ho : usesOffset (decode w) = true) : offset w' = offset w := by
  obtain ⟨k, hj⟩ := exists_offsetOperand ho
  rw [offset, offset, off16_of_decode rfl hj, off16_of_decode h hj]

end SameInstr

/-! ### The blocks on two words of the same instruction -/

/-- The ALU block reads the operands, the offset and `pcPlus1` only where the instruction uses them, and
of the word only the instruction (R165). -/
theorem executeAlu_congr {d d' : IdEx} {a b a' b' : Word} (hi : decode d'.instr = decode d.instr)
    (hA : readsA (decode d.instr) = true → a' = a) (hB : readsB (decode d.instr) = true → b' = b)
    (ho : usesOffset (decode d.instr) = true → d'.offset = d.offset)
    (hp : isBranch (decode d.instr) = true → d'.pcPlus1 = d.pcPlus1) :
    executeAlu d' a' b' false = { executeAlu d a b false with instr := d'.instr } := by
  have hop := op_eq_of_decode_eq hi
  have hd := decodesTo d.instr
  unfold executeAlu opIn
  rw [hop]
  generalize op d.instr = o, decode d.instr = i at hd hA hB ho hp
  cases hd with
  | add => rw [hA rfl, hB rfl]; rfl
  | nor => rw [hA rfl, hB rfl]; rfl
  | lw => rw [hA rfl, ho rfl]; rfl
  | sw => rw [hA rfl, hB rfl, ho rfl]; rfl
  | beq => rw [hA rfl, hB rfl, ho rfl, hp rfl]; rfl
  | jalr => rfl
  | halt => rfl
  | noop => rfl

/-- The memory block reads of the word in EXMEM only the opcode; it hands the word on (R171). -/
theorem memoryLoadStore_withWord (s : State) {r : ExMem} {w : Word} (h : op w = op r.instr) :
    dmemEdge s (memoryLoadStore { s with exmem := { r with instr := w } }) =
      dmemEdge s (memoryLoadStore { s with exmem := r }) ∧
    ∀ m, (memoryLoadStore { s with exmem := r }).memwbNext = .ok m →
      (memoryLoadStore { s with exmem := { r with instr := w } }).memwbNext =
        .ok { m with instr := w } := by
  have hin : ∀ ops, opIn w ops = opIn r.instr ops := fun ops => by rw [opIn, opIn, h]
  have hread : dmemRead { s with exmem := { r with instr := w } } =
    dmemRead { s with exmem := r } := rfl
  have haddr : dataAddr { s with exmem := { r with instr := w } } =
    dataAddr { s with exmem := r } := rfl
  refine ⟨by simp only [dmemEdge, memoryLoadStore, hin], fun m => ?_⟩
  simp only [memoryLoadStore, hin, hread, haddr]
  split_ifs
  · cases dmemRead { s with exmem := r } r.aluResult <;> rintro ⟨⟩
    rfl
  · cases dataAddr { s with exmem := r } r.aluResult <;> rintro ⟨⟩
    rfl
  · rintro ⟨⟩; rfl
  · rintro ⟨⟩
  · rintro ⟨⟩; rfl

/-! ### The word alone -/

/-- EXMEM with a word executed alone depends on its instruction, but for the word itself. -/
theorem loneExMem_congr (s : State) {w w' : Word} (h : decode w' = decode w) :
    loneExMem s w' = { loneExMem s w with instr := w' } := by
  refine executeAlu_congr (d := loneIdEx s w) (d' := loneIdEx s w') h (fun hA => ?_) (fun hB => ?_)
    (offset_eq_of_decode_eq h) fun _ => rfl
  · rw [(regs_eq_of_decode_eq h (.inl hA)).1]
  · rw [(regs_eq_of_decode_eq h (.inr hB)).2]

/-- What goes through writeback does alone what its instruction does. -/
theorem loneThrough_congr (s : State) {w w' : Word} (h : decode w' = decode w) {m : MemWb}
    (hm : (loneMemory s w).memwbNext = .ok m) :
    (loneMemory s w').memwbNext = .ok { m with instr := w' } ∧
    loneThrough s w' { m with instr := w' } = loneThrough s w m := by
  have hop : op w' = op (loneExMem s w).instr := by
    rw [loneExMem_instr]; exact op_eq_of_decode_eq h
  have hmw : decode m.instr = decode w' := by
    rw [memwbNext_instr hm, h]
    exact congrArg decode (loneExMem_instr s w)
  obtain ⟨hstore, hnext⟩ := memoryLoadStore_withWord s hop
  have hx := loneExMem_congr s h
  have htaken : loneTaken s w' = loneTaken s w := by
    rw [loneTaken, loneTaken, hx, flush, flush]
    simp only [hop]
  have hwb : writebackBlock { m with instr := w' } =
      { writebackBlock m with wbendNext := { instr := w', writeData := m.writeData } } := by
    simp only [writebackBlock, wdestWord_eq, hmw]
  refine ⟨by rw [loneMemory, hx]; exact hnext m hm, ?_⟩
  unfold loneThrough
  rw [htaken, hwb, loneMemory, loneMemory, hx, hstore]

/-! ### A step in order (R323) -/

section InOrderStep

variable {v : State}

theorem inOrderStep_eq_exec (hv : v.status = .running) (hr : inRange v v.pc = true) :
    inOrderStep v = exec (decode (wordAtPc v)) { v with stage := none } := by
  rw [inOrderStep, if_pos hv, imemRead_of_inRange hr]
  rfl

/-- The in-order execution of the word at `pc` where the memory block raises no fault and the word is no
`HALT`. -/
theorem inOrderStep_through (hv : v.status = .running) (hr : inRange v v.pc = true) {m : MemWb}
    (hm : (loneMemory v (wordAtPc v)).memwbNext = .ok m) (hh : decode (wordAtPc v) ≠ .halt) :
    inOrderStep v = .next { loneThrough v (wordAtPc v) m with stage := none } := by
  have hd : decode (encode (decode (wordAtPc v))) = decode (wordAtPc v) := decode_encode _
  obtain ⟨hnext, hthrough⟩ := loneThrough_congr v hd hm
  have heffect : loneEffect v (encode (decode (wordAtPc v))) = loneThrough v (wordAtPc v) m := by
    rw [loneEffect, hnext]
    exact (if_neg (by rwa [hd])).trans hthrough
  rw [inOrderStep_eq_exec hv hr, exec_eq_loneEffect hv]
  exact congrArg _ ((loneEffect_with v _ v.imem none v.burst).trans (by rw [heffect]; rfl))

/-- The in-order execution of a `HALT`. -/
theorem inOrderStep_halt (hv : v.status = .running) (hr : inRange v v.pc = true)
    (hh : decode (wordAtPc v) = .halt) :
    inOrderStep v = .next { v with stage := none, status := .halted } := by
  rw [inOrderStep_eq_exec hv hr, hh]
  exact exec_halt_alone (s := { v with stage := none }) rfl hv

end InOrderStep

/-! ### Runs in order -/

theorem iterate_add (f : State → Host.Outcome State Fault Refusal) (a b : Nat) (s : State) :
    iterate f (a + b) s = andThen (iterate f a s) (iterate f b) := by
  induction a generalizing s with
  | zero => rw [Nat.zero_add]; rfl
  | succ a ih =>
    rw [Nat.add_right_comm]
    change andThen (f s) (iterate f (a + b)) = andThen (andThen (f s) (iterate f a)) (iterate f b)
    cases f s with
    | next u => exact ih u
    | fault r => rfl
    | refused r => rfl

/-- A run in order goes on from the state it has got to. -/
theorem runInOrder_add {a : Nat} {v w : State} (h : runInOrder a v = .next w) (b : Nat) :
    runInOrder (a + b) v = runInOrder b w := by
  rw [runInOrder, iterate_add]
  change andThen (runInOrder a v) _ = _
  rw [h]; rfl

theorem runInOrder_one (v : State) : runInOrder 1 v = inOrderStep v := by
  change andThen (inOrderStep v) _ = _
  cases inOrderStep v <;> rfl

/-- Nothing runs after a `HALT` or a fault. -/
theorem runInOrder_of_not_running {v : State} (hv : v.status ≠ .running) (k : Nat) :
    runInOrder k v = .next v := by
  induction k with
  | zero => rfl
  | succ k ih =>
    have hstep : inOrderStep v = .next v := if_neg hv
    rw [Nat.add_comm, runInOrder_add ((runInOrder_one v).trans hstep), ih]

/-- `d` instructions complete in order from `v`, and the next one is a `HALT`, which leaves `h`. -/
def HaltsAfter (d : Nat) (v h : State) : Prop :=
  ∃ w, runInOrder d v = .next w ∧ w.status = .running ∧ inOrderStep w = .next h ∧ h.status = .halted

theorem HaltsAfter.run {d : Nat} {v h : State} (hd : HaltsAfter d v h) :
    runInOrder (d + 1) v = .next h := by
  obtain ⟨w, hw, -, hstep, -⟩ := hd
  rw [runInOrder_add hw, runInOrder_one, hstep]

theorem HaltsAfter.add {a d : Nat} {u v h : State} (ha : runInOrder a u = .next v)
    (hd : HaltsAfter d v h) : HaltsAfter (a + d) u h := by
  obtain ⟨w, hw, hrest⟩ := hd
  exact ⟨w, (runInOrder_add ha d).trans hw, hrest⟩

/-- Past the `HALT` nothing runs, so no later instruction is a first `HALT`. -/
theorem HaltsAfter.le {d e : Nat} {v g h : State} (hd : HaltsAfter d v g) (he : HaltsAfter e v h) :
    e ≤ d := by
  by_contra hlt
  obtain ⟨k, rfl⟩ : ∃ k, e = d + 1 + k := ⟨e - (d + 1), by omega⟩
  obtain ⟨-, -, -, -, hg⟩ := id hd
  have hstop : g.status ≠ .running := by rw [hg]; exact nofun
  obtain ⟨w, hw, hrun, -⟩ := he
  rw [runInOrder_add hd.run, runInOrder_of_not_running hstop] at hw
  exact hstop (Host.Outcome.next.inj hw ▸ hrun)

theorem HaltsAfter.unique {d e : Nat} {v g h : State} (hd : HaltsAfter d v g)
    (he : HaltsAfter e v h) : d = e := Nat.le_antisymm (he.le hd) (hd.le he)

end Sys2Proof.Machine
end

section
/-! The pipeline and the in-order execution (spec/70_reset_and_hazards.md R323): the relation between a
state of the pipeline and the in-order state before the oldest instruction that has not done its memory
line, and that every committed edge keeps it. -/

namespace Sys2Proof.Machine

/-! ### The registers after writeback (R155, R175) -/

/-- The registers `reg` after the writeback of the MEMWB `m`. -/
def regAfter (reg : Vector Word 8) (m : MemWb) : Vector Word 8 :=
  rfWrite reg (writebackBlock m).rfWe ((writebackBlock m).rfWaddr.getD 0) (writebackBlock m).rfWdata

theorem regAfter_of_noop {m : MemWb} (h : decode m.instr = .noop) (reg : Vector Word 8) :
    regAfter reg m = reg := rfWrite_of_noop h reg

/-- A register read after the writeback of `m`. -/
theorem x_of_regAfter {s t : State} {m : MemWb} (h : t.reg = regAfter s.reg m) (i : RegIdx) :
    x t i = if i = 0 then 0 else if wdest (decode m.instr) = some i then m.writeData else x s i := by
  have hreg : t.reg = ((wdest (decode m.instr)).elim { s with memwb := m }
      (writeReg { s with memwb := m } · m.writeData)).reg :=
    h.trans ((rfWrite_writebackBlock { s with memwb := m }).trans
      (stageOf_writeback_reg { s with memwb := m }))
  rw [x_congr hreg]
  cases wdest (decode m.instr) with
  | none =>
    by_cases hi : i = 0
    · rw [if_pos hi, hi]; rfl
    · rw [if_neg hi, if_neg nofun]; rfl
  | some d =>
    rw [Option.elim, x_writeReg]
    simp only [Option.some.injEq, eq_comm (a := d)]
    rfl

/-! ### The operands in IDEX (R160, R162) -/

/-- Forwarding gives the register `i`, which decode read as `v`, the value of the newest write ahead of
IDEX, and that write is no load's in EXMEM. -/
def Supplied (s : State) (i : RegIdx) (v : Word) : Prop :=
  (i ≠ 0 → ∀ a k, decode s.exmem.instr ≠ .lw a i k) ∧
  fwd s i v =
    if i = 0 then 0
    else if aluDest (decode s.exmem.instr) = some i then s.exmem.aluResult
    else if wdest (decode s.memwb.instr) = some i then s.memwb.writeData
    else x s i

/-- Each operand that the instruction in IDEX reads is supplied. -/
def OperandsSupplied (s : State) : Prop :=
  (readsA (decode s.idex.instr) = true → Supplied s (regA s.idex.instr) s.idex.readRegA) ∧
  (readsB (decode s.idex.instr) = true → Supplied s (regB s.idex.instr) s.idex.readRegB)

theorem operandsSupplied_of_bubble {s : State} (h : s.idex = IdEx.bubble) : OperandsSupplied s := by
  unfold OperandsSupplied
  rw [h]
  exact ⟨fun hr => absurd hr (by decide), fun hr => absurd hr (by decide)⟩

/-- After a committed edge the operands are supplied (R162). -/
theorem operandsSupplied_of_edge {s t : State} (hs : s.status = .running)
    (h : clockEdge false s = .next t) (ht : t.status = .running) : OperandsSupplied t := by
  have hup := forwardedOperandsAreUpToDate s t hs h ht
  refine ⟨fun hA => ?_, fun hB => ?_⟩
  · obtain ⟨hload, hfwd⟩ := hup _ (.inl ⟨hA, rfl⟩)
    exact ⟨hload, hfwd _ (.inl ⟨hA, rfl, rfl⟩)⟩
  · obtain ⟨hload, hfwd⟩ := hup _ (.inr ⟨hB, rfl⟩)
    exact ⟨hload, hfwd _ (.inr ⟨hB, rfl, rfl⟩)⟩

/-- What `ADD` and `NOR` hand to MEMWB is the ALU result (R171). -/
theorem memwbNext_of_aluDest {s : State} {i : RegIdx} (h : aluDest (decode s.exmem.instr) = some i) :
    (memoryLoadStore s).memwbNext =
      .ok { instr := s.exmem.instr, writeData := s.exmem.aluResult } := by
  obtain ⟨a, b, e | e⟩ := (aluDest_eq_some_iff _ _).1 h <;>
    simp only [memoryLoadStore, opIn, op_of_decode e] <;> rfl

/-- An instruction that writes a register is a load, or forwards from EXMEM. -/
theorem aluDest_or_lw_of_wdest {j : Instr} {i : RegIdx} (h : wdest j = some i) :
    aluDest j = some i ∨ ∃ a k, j = .lw a i k := by
  cases j with
  | add a b d => exact .inl h
  | nor a b d => exact .inl h
  | lw a b k => obtain rfl := Option.some.inj h; exact .inr ⟨a, k, rfl⟩
  | _ => cases h

/-- A supplied operand is the value of the register once the two instructions ahead of IDEX are through
writeback, where `m` is what the memory block makes of EXMEM. -/
theorem Supplied.eq_x {s v u : State} {i : RegIdx} {d : Word} {m : MemWb} (h : Supplied s i d)
    (hv : v.reg = regAfter s.reg s.memwb) (hm : (memoryLoadStore s).memwbNext = .ok m)
    (hu : u.reg = regAfter v.reg m) : fwd s i d = x u i := by
  obtain ⟨hload, hfwd⟩ := h
  have hinstr : m.instr = s.exmem.instr := memwbNext_instr hm
  rw [hfwd, x_of_regAfter hu, x_of_regAfter hv, hinstr]
  by_cases hi : i = 0
  · rw [if_pos hi, if_pos hi]
  rw [if_neg hi, if_neg hi, if_neg hi]
  by_cases hx : aluDest (decode s.exmem.instr) = some i
  · have hdata : m = { instr := s.exmem.instr, writeData := s.exmem.aluResult } :=
      Except.ok.inj (hm.symm.trans (memwbNext_of_aluDest hx))
    have hw : wdest (decode s.exmem.instr) = some i := by
      obtain ⟨a, b, e | e⟩ := (aluDest_eq_some_iff _ _).1 hx <;> rw [e] <;> rfl
    rw [if_pos hx, if_pos hw, hdata]
  · have hw : wdest (decode s.exmem.instr) ≠ some i := fun hw => by
      obtain hx' | ⟨a, k, e⟩ := aluDest_or_lw_of_wdest hw
      · exact hx hx'
      · exact hload hi a k e
    rw [if_neg hx, if_neg hw]

/-! ### Which stages hold a word of the program -/

/-- Whether EXMEM, IDEX and IFID hold a word of the program rather than a bubble. -/
structure Slots where
  /-- A word of the program is in EXMEM. -/
  ex : Bool
  /-- A word of the program is in IDEX. -/
  de : Bool
  /-- A word of the program is in IFID. -/
  fe : Bool

/-- Nothing in flight. -/
def Slots.empty : Slots := { ex := false, de := false, fe := false }

/-- How many of the three stages hold a word of the program. -/
def Slots.count (c : Slots) : Nat := c.ex.toNat + c.de.toNat + c.fe.toNat

/-- The three stages after a committed edge with the given flush and stall (R136). -/
def Slots.next (c : Slots) (flush stall : Bool) : Slots :=
  if flush then Slots.empty
  else if stall then { ex := c.de, de := false, fe := c.fe }
  else { ex := c.de, de := c.fe, fe := true }

/-- Behind a word in EXMEM or IDEX there is one in IFID. -/
def Slots.Fed (c : Slots) : Prop := (c.ex = true → c.fe = true) ∧ (c.de = true → c.fe = true)

/-- IDEX holds the word at `a`, decoded; the registers read are `OperandsSupplied`'s. -/
def HoldsDecoded (s : State) (a : Word) : Prop :=
  s.idex.instr = s.imem.read a.toNat ∧ s.idex.pcPlus1 = a + 1 ∧ s.idex.offset = offset s.idex.instr

/-- The in-order state `v` is what the instructions from MEMWB on leave of the pipeline state `s`. -/
structure AgreesFromMemwb (s v : State) : Prop where
  running : s.status = .running
  burst : s.burst = 0
  vRunning : v.status = .running
  launch : v.launch = s.launch
  imem : v.imem = s.imem
  dmem : v.dmem = s.dmem
  dwritten : v.dwritten = s.dwritten
  /-- The instruction in MEMWB has still to write its register. -/
  reg : v.reg = regAfter s.reg s.memwb
  noHalt : decode s.memwb.instr ≠ .halt
  operands : OperandsSupplied s

/-- The pipeline state `s` follows the in-order state `v`: besides, the words in EXMEM, IDEX and IFID are
those at `v.pc` and behind, as many as `c` says. -/
structure Follows (c : Slots) (s v : State) : Prop extends AgreesFromMemwb s v where
  exmem : s.exmem = if c.ex then loneExMem v (wordAtPc v) else ExMem.bubble
  idex : if c.de then HoldsDecoded s (ahead v c.ex.toNat) else s.idex = IdEx.bubble
  ifid : s.ifid = if c.fe then fetched s (ahead v (c.ex.toNat + c.de.toNat)) else IfId.bubble
  pc : s.pc = ahead v c.count
  /-- Every word in flight was fetched. -/
  range : ∀ k, k < c.count → inRange s (ahead v k) = true
  fed : c.Fed
  /-- A bubble behind a word in EXMEM is a stall's, so the word is a load. -/
  gap : c.ex = true → c.de = false → op s.exmem.instr = encoding.opLw

/-- A launch follows itself. -/
theorem follows_launchState (m : Nat) (u : DataUninit) (ws : List Word) :
    Follows Slots.empty (launchState m u ws) (launchState m u ws) where
  running := rfl
  burst := rfl
  vRunning := rfl
  launch := rfl
  imem := rfl
  dmem := rfl
  dwritten := rfl
  reg := (regAfter_of_noop (m := MemWb.bubble) decode_noopWord _).symm
  noHalt := decode_noopWord_ne_halt
  exmem := rfl
  idex := rfl
  ifid := rfl
  pc := (ahead_zero _).symm
  range := fun _ hk => absurd hk (Nat.not_lt_zero _)
  operands := operandsSupplied_of_bubble rfl
  fed := ⟨nofun, nofun⟩
  gap := nofun

/-! ### The memory line of the word in EXMEM -/

/-- The memory block reads EXMEM, data memory with its marks, and the launch. -/
theorem memoryLoadStore_congr {s u : State} (hx : u.exmem = s.exmem) (hl : u.launch = s.launch)
    (hd : u.dmem = s.dmem) (hw : u.dwritten = s.dwritten) :
    (memoryLoadStore u).memwbNext = (memoryLoadStore s).memwbNext ∧
    dmemEdge u (memoryLoadStore u) = dmemEdge s (memoryLoadStore s) := by
  have hr : inRange u = inRange s := by funext a; rw [inRange, inRange, hl]
  have hrd : readable u = readable s := by funext a; rw [readable, readable, hl, hw]
  have haddr : dataAddr u = dataAddr s := by funext a; rw [dataAddr, dataAddr, hr]
  have hread : dmemRead u = dmemRead s := by funext a; simp only [dmemRead, haddr, hrd, hd]
  have hports : memoryLoadStore u = memoryLoadStore s := by
    simp only [memoryLoadStore, hx, hread, haddr]
  exact ⟨by rw [hports], by rw [dmemEdge, dmemEdge, hports, hd, hw]⟩

/-- `u` is the in-order state `v` after the memory line of EXMEM, from which `m` goes to MEMWB. -/
structure AfterMemory (c : Slots) (s v u : State) (m : MemWb) : Prop where
  running : u.status = .running
  launch : u.launch = s.launch
  imem : u.imem = s.imem
  dmem : u.dmem = (dmemEdge s (memoryLoadStore s)).1
  dwritten : u.dwritten = (dmemEdge s (memoryLoadStore s)).2
  reg : u.reg = regAfter v.reg m
  pc : u.pc = if flush s then s.exmem.branchTarget else ahead v c.ex.toNat

section Memory

variable {c : Slots} {s v : State} {m : MemWb}

/-- A bubble in EXMEM does nothing. -/
theorem Follows.memory_of_bubble (h : Follows c s v) (hc : c.ex = false)
    (hm : (memoryLoadStore s).memwbNext = .ok m) : AfterMemory c s v v m := by
  have hx : s.exmem = ExMem.bubble := h.exmem.trans (if_neg (by rw [hc]; exact nofun))
  have hop : op s.exmem.instr = encoding.opNoop := by rw [hx]; exact op_noopWord
  have hnoop : decode m.instr = .noop := by rw [memwbNext_instr hm, decode_noop hop]
  constructor
  · exact h.vRunning
  · exact h.launch
  · exact h.imem
  · rw [dmemEdge_of_noop hop, h.dmem]
  · rw [dmemEdge_of_noop hop, h.dwritten]
  · rw [regAfter_of_noop hnoop]
  · rw [flush_of_noop hop, hc]
    exact (ahead_zero v).symm

/-- The address of a word in EXMEM is in range. -/
theorem Follows.inRange_pc (h : Follows c s v) (hc : c.ex = true) : inRange v v.pc = true := by
  have hr := h.range 0 (by simp only [Slots.count, hc, Bool.toNat_true]; omega)
  rw [ahead_zero, inRange, ← h.launch] at hr
  exact hr

/-- What the blocks make of a word in EXMEM is what they make of it alone. -/
theorem Follows.loneMemory_eq (h : Follows c s v) (hc : c.ex = true) :
    (loneMemory v (wordAtPc v)).memwbNext = (memoryLoadStore s).memwbNext ∧
    dmemEdge v (loneMemory v (wordAtPc v)) = dmemEdge s (memoryLoadStore s) ∧
    loneTaken v (wordAtPc v) = flush s := by
  have hx : loneExMem v (wordAtPc v) = s.exmem := (h.exmem.trans (if_pos hc)).symm
  rw [loneMemory, loneTaken, hx]
  obtain ⟨hnext, hstore⟩ := memoryLoadStore_congr (s := s) (u := { v with exmem := s.exmem }) rfl
    h.launch h.dmem h.dwritten
  exact ⟨hnext, hstore, rfl⟩

/-- A word in EXMEM does what it does alone and in order. -/
theorem Follows.memory_of_word (h : Follows c s v) (hc : c.ex = true)
    (hm : (memoryLoadStore s).memwbNext = .ok m) (hh : decode s.exmem.instr ≠ .halt) :
    ∃ u, inOrderStep v = .next u ∧ AfterMemory c s v u m := by
  obtain ⟨hnext, hstore, htaken⟩ := h.loneMemory_eq hc
  have hx : loneExMem v (wordAtPc v) = s.exmem := (h.exmem.trans (if_pos hc)).symm
  have hw : decode (wordAtPc v) ≠ .halt := by rwa [← hx, loneExMem_instr] at hh
  refine ⟨_, inOrderStep_through h.vRunning (h.inRange_pc hc) (hnext.trans hm) hw, ?_⟩
  constructor
  · exact h.vRunning
  · exact h.launch
  · exact h.imem
  · exact congrArg Prod.fst hstore
  · exact congrArg Prod.snd hstore
  · rfl
  · change (if loneTaken v (wordAtPc v) then _ else _) = _
    rw [htaken, hx, hc]
    rfl

/-- EXMEM's memory line is one step in order, or none for a bubble. -/
theorem Follows.memory (h : Follows c s v) (hm : (memoryLoadStore s).memwbNext = .ok m)
    (hh : decode s.exmem.instr ≠ .halt) :
    ∃ u, runInOrder c.ex.toNat v = .next u ∧ AfterMemory c s v u m := by
  cases hc : c.ex with
  | false => exact ⟨v, rfl, h.memory_of_bubble hc hm⟩
  | true =>
    obtain ⟨u, hu, hafter⟩ := h.memory_of_word hc hm hh
    exact ⟨u, (runInOrder_one v).trans hu, hafter⟩

end Memory

/-! ### The execute, decode and fetch lines -/

/-- On one word the ALU block reads the operands, the offset and `pcPlus1` only where its instruction uses
them (R165). -/
theorem executeAlu_congr_same {d d' : IdEx} {a b a' b' : Word} (hi : d'.instr = d.instr)
    (hA : readsA (decode d.instr) = true → a = a') (hB : readsB (decode d.instr) = true → b = b')
    (ho : usesOffset (decode d.instr) = true → d.offset = d'.offset)
    (hp : isBranch (decode d.instr) = true → d.pcPlus1 = d'.pcPlus1) :
    executeAlu d a b false = executeAlu d' a' b' false := by
  rw [executeAlu_congr (congrArg decode hi) (fun h => (hA h).symm) (fun h => (hB h).symm)
    (fun h => (ho h).symm) fun h => (hp h).symm, hi]
  have e := executeAlu_instr d a b
  generalize executeAlu d a b false = r at e ⊢
  rw [← e]

section Edge

variable {c : Slots} {s v u : State} {m : MemWb} {i : IfId}

theorem AfterMemory.pc_eq (hu : AfterMemory c s v u m) (hfl : flush s = false) :
    u.pc = ahead v c.ex.toNat := hu.pc.trans (by rw [hfl]; rfl)

/-- Without a flush the in-order execution goes on behind the word in EXMEM. -/
theorem AfterMemory.ahead (hu : AfterMemory c s v u m) (hfl : flush s = false) (k : Nat) :
    ahead u k = ahead v (c.ex.toNat + k) := by
  rw [Machine.ahead, hu.pc_eq hfl, Machine.ahead, Machine.ahead, BitVec.add_assoc, BitVec.ofNat_add]

/-- Behind a word in EXMEM that is no bubble and no load there is a word in IDEX and in IFID. -/
theorem Follows.full_of_ex (h : Follows c s v) {o : BitVec 3} (hop : op s.exmem.instr = o)
    (hnoop : o ≠ encoding.opNoop) (hlw : o ≠ encoding.opLw) :
    c.ex = true ∧ c.de = true ∧ c.fe = true := by
  have hex : c.ex = true := by
    by_contra hc
    have hx := h.exmem
    rw [if_neg hc] at hx
    rw [hx] at hop
    exact hnoop (hop.symm.trans op_noopWord)
  have hde : c.de = true := by
    by_contra hc
    exact hlw (hop.symm.trans (h.gap hex (Bool.eq_false_iff.2 hc)))
  exact ⟨hex, hde, h.fed.1 hex⟩

/-- Without a flush the word in IDEX is executed on the registers that the in-order execution has for
it. -/
theorem Follows.execute (h : Follows c s v) (hm : (memoryLoadStore s).memwbNext = .ok m)
    (hu : AfterMemory c s v u m) (hfl : flush s = false) :
    executeAlu s.idex (operandA s (regA s.idex.instr)) (operandB s (regB s.idex.instr)) false =
      if c.de then loneExMem u (wordAtPc u) else ExMem.bubble := by
  have hidex := h.idex
  cases hc : c.de with
  | false =>
    rw [hc, if_neg nofun] at hidex
    rw [if_neg nofun, hidex, executeAlu_bubble]
  | true =>
    rw [hc, if_pos rfl] at hidex
    obtain ⟨hinstr, hplus, hoff⟩ := hidex
    have hpc := hu.pc_eq hfl
    have hword : wordAtPc u = s.idex.instr := by rw [wordAtPc, hu.imem, hpc, hinstr]
    obtain ⟨hA, hB⟩ := h.operands
    rw [if_pos rfl, hword]
    exact executeAlu_congr_same rfl (fun hr => (hA hr).eq_x h.reg hm hu.reg)
      (fun hr => (hB hr).eq_x h.reg hm hu.reg) (fun _ => hoff)
      fun _ => hplus.trans (congrArg (· + 1) hpc).symm

/-- What the fetch unit leaves in IFID where there is neither a flush nor a stall. -/
theorem Follows.fetched_pc (h : Follows c s v) (hfl : flush s = false) (hst : stall s = false)
    (hf : fetch s = .ok i) : inRange s (ahead v c.count) = true ∧ i = fetched s (ahead v c.count) := by
  have hr : inRange s s.pc = true := by
    by_contra hr
    cases hf.symm.trans (fetch_of_fault hfl hst (Bool.eq_false_iff.2 hr))
  rw [← h.pc]
  exact ⟨hr, fetch_word hfl hst hf⟩

/-- Decode of a word in IFID, or of its bubble. -/
theorem Follows.decoded_ifid (h : Follows c s v) :
    if c.fe then (decoded s s.ifid).instr = s.imem.read (ahead v (c.ex.toNat + c.de.toNat)).toNat ∧
      (decoded s s.ifid).pcPlus1 = ahead v (c.ex.toNat + c.de.toNat) + 1 ∧
      (decoded s s.ifid).offset = offset (decoded s s.ifid).instr
    else decoded s s.ifid = IdEx.bubble := by
  have hifid := h.ifid
  cases hc : c.fe with
  | false =>
    rw [hc, if_neg nofun] at hifid
    rw [if_neg nofun, hifid, decoded_bubble]
  | true =>
    rw [hc, if_pos rfl] at hifid
    rw [if_pos rfl, hifid]
    exact ⟨rfl, rfl, rfl⟩

/-- A stall is of a load in IDEX that is no bubble. -/
theorem Follows.de_of_stall (h : Follows c s v) (hst : stall s = true) :
    c.de = true ∧ op s.idex.instr = encoding.opLw := by
  obtain ⟨⟨a, r, k, hlw⟩, -⟩ := load_and_reader_of_hazard hst
  refine ⟨?_, op_of_lw hlw⟩
  by_contra hc
  have hidex := h.idex
  rw [if_neg hc] at hidex
  rw [stall_of_idex_bubble hidex] at hst
  cases hst

/-- A flush is of a branch in EXMEM, with a word in every stage. -/
theorem Follows.full_of_flush (h : Follows c s v) (hfl : flush s = true) :
    c.ex = true ∧ c.de = true ∧ c.fe = true := by
  have hop : op s.exmem.instr = encoding.opBeq := of_decide_eq_true (Bool.and_eq_true_iff.1 hfl).1
  exact h.full_of_ex hop (by decide) (by decide)
/-- A committed edge leaves in MEMWB and behind what the in-order execution has after the memory line. -/
theorem AgreesFromMemwb.commit (h : AgreesFromMemwb s v) (hu : AfterMemory c s v u m)
    (hm : (memoryLoadStore s).memwbNext = .ok m) (hh : decode s.exmem.instr ≠ .halt)
    {p : Word × IfId} (hops : OperandsSupplied (blockCommit s m p)) :
    AgreesFromMemwb (blockCommit s m p) u where
  running := h.running
  burst := h.burst
  vRunning := hu.running
  launch := hu.launch
  imem := hu.imem
  dmem := hu.dmem
  dwritten := hu.dwritten
  reg := hu.reg.trans (congrArg (regAfter · m) h.reg)
  noHalt := fun e => hh (by rw [← memwbNext_instr hm]; exact e)
  operands := hops

/-- After a flush nothing is in flight, and the fetch goes on where the in-order execution does. -/
theorem Follows.commit_flush (hu : AfterMemory c s v u m) (hfl : flush s = true)
    (ha : AgreesFromMemwb (blockCommit s m (nextPcIfId s i)) u) :
    Follows Slots.empty (blockCommit s m (nextPcIfId s i)) u where
  toAgreesFromMemwb := ha
  exmem := by simp only [blockCommit, hfl]; rfl
  idex := by simp only [blockCommit, hfl]; rfl
  ifid := by simp only [blockCommit, nextPcIfId, hfl]; rfl
  pc := by
    have hpc : u.pc = s.exmem.branchTarget := hu.pc.trans (if_pos hfl)
    simp only [blockCommit, nextPcIfId, hfl, if_true, ← hpc]
    exact (ahead_zero u).symm
  range := fun _ hk => absurd hk (Nat.not_lt_zero _)
  fed := ⟨nofun, nofun⟩
  gap := nofun

/-- In a stall the load goes on to EXMEM, a bubble follows it, and IFID and `pc` stay. -/
theorem Follows.commit_stall (h : Follows c s v) (hm : (memoryLoadStore s).memwbNext = .ok m)
    (hu : AfterMemory c s v u m) (hfl : flush s = false) (hst : stall s = true)
    (ha : AgreesFromMemwb (blockCommit s m (nextPcIfId s i)) u) :
    Follows { ex := c.de, de := false, fe := c.fe } (blockCommit s m (nextPcIfId s i)) u where
  toAgreesFromMemwb := ha
  exmem := by
    rw [← h.execute hm hu hfl]
    simp only [blockCommit, hfl]
  idex := by simp only [blockCommit, hfl, hst]; rfl
  ifid := by
    simp only [blockCommit, nextPcIfId, hfl, hst, hu.ahead hfl]
    exact h.ifid
  pc := by
    simp only [blockCommit, nextPcIfId, hfl, hst, hu.ahead hfl]
    exact h.pc.trans (congrArg (ahead v) (by simp only [Slots.count, Bool.toNat_false]; omega))
  range := fun k hk => by
    rw [hu.ahead hfl]
    exact h.range _ (by simp only [Slots.count, Bool.toNat_false] at hk ⊢; omega)
  fed := ⟨h.fed.2, nofun⟩
  gap := fun _ _ => by
    simp only [blockCommit, hfl, executeAlu_instr]
    exact (h.de_of_stall hst).2

/-- With neither a flush nor a stall every word goes one stage on, and the word at `pc` comes into IFID. -/
theorem Follows.commit_advance (h : Follows c s v) (hm : (memoryLoadStore s).memwbNext = .ok m)
    (hf : fetch s = .ok i) (hu : AfterMemory c s v u m) (hfl : flush s = false) (hst : stall s = false)
    (ha : AgreesFromMemwb (blockCommit s m (nextPcIfId s i)) u) :
    Follows { ex := c.de, de := c.fe, fe := true } (blockCommit s m (nextPcIfId s i)) u where
  toAgreesFromMemwb := ha
  exmem := by
    rw [← h.execute hm hu hfl]
    simp only [blockCommit, hfl]
  idex := by
    simp only [HoldsDecoded, blockCommit, hfl, hst, hu.ahead hfl]
    exact h.decoded_ifid
  ifid := by
    obtain ⟨-, rfl⟩ := h.fetched_pc hfl hst hf
    simp only [blockCommit, nextPcIfId, hfl, hst, hu.ahead hfl, ← Nat.add_assoc]
    rfl
  pc := by
    simp only [blockCommit, nextPcIfId, hfl, hst, hu.ahead hfl, h.pc]
    exact (ahead_succ v _).trans
      (congrArg (ahead v) (by simp only [Slots.count, Bool.toNat_true]; omega))
  range := fun k hk => by
    obtain ⟨hr, -⟩ := h.fetched_pc hfl hst hf
    rw [hu.ahead hfl]
    simp only [Slots.count, Bool.toNat_true] at hk hr
    have hle : c.ex.toNat + k ≤ c.ex.toNat + c.de.toNat + c.fe.toNat := by omega
    obtain hlt | heq := Nat.lt_or_eq_of_le hle
    · exact h.range _ hlt
    · rw [heq]; exact hr
  fed := ⟨fun _ => rfl, fun _ => rfl⟩
  gap := fun hde hfe => absurd (h.fed.2 hde) (Bool.eq_false_iff.1 hfe)

/-- A committed edge with no `HALT` in EXMEM is one step in order, or none for a bubble there. -/
theorem Follows.edge {t : State} (h : Follows c s v) (he : clockEdge false s = .next t)
    (ht : t.status = .running) (hh : decode s.exmem.instr ≠ .halt) :
    ∃ u, runInOrder c.ex.toNat v = .next u ∧ Follows (c.next (flush s) (stall s)) t u := by
  have hops := operandsSupplied_of_edge h.running he ht
  obtain ⟨m, i, hm, hf, rfl⟩ := edge_blockCommit he h.running ht
  obtain ⟨u, hrun, hu⟩ := h.memory hm hh
  have ha := h.toAgreesFromMemwb.commit hu hm hh hops
  refine ⟨u, hrun, ?_⟩
  cases hfl : flush s with
  | true => exact Follows.commit_flush hu hfl ha
  | false =>
    cases hst : stall s with
    | true => exact h.commit_stall hm hu hfl hst ha
    | false => exact h.commit_advance hm hf hu hfl hst ha

end Edge

end Sys2Proof.Machine
end

section
/-! Halting runs (spec/70_reset_and_hazards.md R323, R330): a run that halts ends as the in-order execution
does, and its cycles are those of the items that go through the pipeline ahead of the `HALT`. -/

namespace Sys2Proof.Machine

/-! ### Runs and counts, edge by edge -/

section Counts

variable {s t : State} {n : Nat}

theorem run_succ (hb : s.burst = 0) (h : clockEdge false s = .next t) : run (n + 1) s = run n t := by
  obtain rfl := Host.Outcome.next.inj ((clockEdge_eq s).symm.trans h)
  change andThen (step s) _ = _
  rw [step_of_edgeResult hb]; rfl

theorem run_of_not_running (hb : s.burst = 0) (hs : s.status ≠ .running) (n : Nat) :
    run n s = .next s := by
  induction n with
  | zero => rfl
  | succ n ih => rw [run_succ hb (clockEdge_of_not_running hs), ih]

/-- A cycle executes when the CORE runs before and after it (R48). -/
theorem executes_eq (h : clockEdge false s = .next t) :
    executes s = (decide (s.status = .running) && decide (t.status = .running)) := by
  change runEdge s = .next t at h
  rw [executes, h]

theorem countCycles_succ (h : clockEdge false s = .next t) (p : State → Bool) (n : Nat) :
    countCycles p (n + 1) s = (if executes s && p s then 1 else 0) + countCycles p n t := by
  change runEdge s = .next t at h
  rw [countCycles, h]

/-- A cycle that executes is counted where it has the property. -/
theorem countCycles_of_executed (hs : s.status = .running) (h : clockEdge false s = .next t)
    (ht : t.status = .running) (p : State → Bool) (n : Nat) :
    countCycles p (n + 1) s = (p s).toNat + countCycles p n t := by
  rw [countCycles_succ h, executes_eq h, decide_eq_true hs, decide_eq_true ht]
  cases p s <;> rfl

/-- Where no cycle executes any more nothing is counted. -/
theorem countCycles_of_stopped (h : clockEdge false s = .next t) (ht : t.status ≠ .running)
    (p : State → Bool) (n : Nat) : countCycles p n s = 0 := by
  induction n generalizing s with
  | zero => rfl
  | succ n ih =>
    rw [countCycles_succ h, executes_eq h, decide_eq_false ht, Bool.and_false,
      ih (clockEdge_of_not_running ht)]
    rfl

/-- `cycles` counts the cycles executed (R48). -/
theorem run_cycles (hb : s.burst = 0) (h : run n s = .next t) :
    t.cycles = s.cycles + BitVec.ofNat 32 (countCycles (fun _ => true) n s) := by
  induction n generalizing s with
  | zero =>
    obtain rfl := Host.Outcome.next.inj h
    exact (BitVec.add_zero _).symm
  | succ n ih =>
    have he := clockEdge_eq s
    rw [run_succ hb he] at h
    obtain ⟨hcount, hkeep⟩ := cyclesCountCommittedCycles s _ he
    have hrest := ih ((edge_keeps he).2.2.2.trans hb) h
    by_cases hrun : s.status = .running ∧ (edgeResult s).status = .running
    · rw [hrest, hcount hrun, countCycles_of_executed hrun.1 he hrun.2, BitVec.ofNat_add,
        BitVec.add_assoc]
      rfl
    · have hn := not_and_or.1 hrun
      have hexec : executes s = false := by
        rw [executes_eq he]
        simpa using hrun
      rw [hrest, hkeep hn, countCycles_succ he, hexec]
      simp

end Counts

/-! ### The `HALT` (R131, R260) -/

/-- A running CORE with a `HALT` in MEMWB takes one edge, on which it changes `status` only. -/
theorem run_of_halt_in_memwb {s t : State} {n : Nat} (hs : s.status = .running) (hb : s.burst = 0)
    (hh : decode s.memwb.instr = .halt) (h : run n s = .next t) (ht : t.status = .halted) :
    t = { s with status := .halted } ∧ ∀ p, countCycles p n s = 0 := by
  have he : clockEdge false s = .next { s with status := .halted } := by
    rw [clockEdge_eq_blockStep, blockStep_of_halt hs hh]
  refine ⟨?_, fun p => countCycles_of_stopped he nofun p n⟩
  cases n with
  | zero =>
    obtain rfl := Host.Outcome.next.inj h
    cases hs.symm.trans ht
  | succ n =>
    rw [run_succ hb he, run_of_not_running (s := { s with status := .halted }) hb nofun] at h
    exact (Host.Outcome.next.inj h).symm

/-- What R323 compares: the final registers, data memory and marks. -/
def SameEnd (v t : State) : Prop := v.reg = t.reg ∧ v.dmem = t.dmem ∧ v.dwritten = t.dwritten

/-- How a run of `n` edges from `s`, whose words in flight are `c`, ends at the `HALT` that the in-order
execution comes to from `v`: with the same registers and data memory, and with as many cycles as the words
in flight and still to come take (R330). -/
def EndsInOrder (c : Slots) (n : Nat) (s v t : State) : Prop :=
  ∃ d h, HaltsAfter d v h ∧ SameEnd h t ∧
    countCycles (fun _ => true) n s + c.count =
      4 + d + countCycles stallBeforeHalt n s + 3 * countCycles flush n s

section Halting

variable {c : Slots} {s u v w t : State} {n : Nat}

/-- With a `HALT` in EXMEM one more cycle executes, and the edge after it halts. -/
theorem Follows.ends_of_halt (h : Follows c s v) (he : clockEdge false s = .next u)
    (hu : u.status = .running) (hh : decode s.exmem.instr = .halt) (hrun : run n u = .next t)
    (ht : t.status = .halted) : EndsInOrder c (n + 1) s v t := by
  have hop : op s.exmem.instr = encoding.opHalt := op_of_decode hh
  obtain ⟨hex, hde, hfe⟩ := h.full_of_ex hop (by decide) (by decide)
  have hx : loneExMem v (wordAtPc v) = s.exmem := (h.exmem.trans (if_pos hex)).symm
  have hw : decode (wordAtPc v) = .halt := by rw [← hx, loneExMem_instr] at hh; exact hh
  have hfl : flush s = false := by rw [flush, hop]; rfl
  have hst : stallBeforeHalt s = false := by
    rw [stallBeforeHalt, hop]
    exact Bool.and_false _
  have hc : c.count = 3 := by rw [Slots.count, hex, hde, hfe]; rfl
  have hcount := fun p => countCycles_of_executed h.running he hu p n
  have hb : u.burst = 0 := (edge_keeps he).2.2.2.trans h.burst
  obtain ⟨m, i, hm, -, rfl⟩ := edge_blockCommit he h.running hu
  have hmw : decode m.instr = .halt := by rw [memwbNext_instr hm, hh]
  obtain ⟨rfl, hzero⟩ := run_of_halt_in_memwb hu hb hmw hrun ht
  have hstore : dmemEdge s (memoryLoadStore s) = (s.dmem, s.dwritten) :=
    dmemEdge_of_ne_sw (by rw [hop]; decide)
  refine ⟨0, _, ⟨v, rfl, h.vRunning, inOrderStep_halt h.vRunning (h.inRange_pc hex) hw, rfl⟩,
    ⟨h.reg, ?_, ?_⟩, ?_⟩
  · exact h.dmem.trans (congrArg Prod.fst hstore).symm
  · exact h.dwritten.trans (congrArg Prod.snd hstore).symm
  · rw [hcount, hcount, hcount, hzero, hzero, hzero, hst, hfl, hc]
    rfl

/-- One edge's share of the count: a stall and a flush put words off that are still to come. -/
theorem Slots.count_next (c : Slots) {flush stall : Bool}
    (hfull : flush = true → c.ex = true ∧ c.de = true ∧ c.fe = true) :
    1 + c.count =
      (c.next flush stall).count + c.ex.toNat + (stall && !flush).toNat + 3 * flush.toNat := by
  cases flush with
  | true =>
    obtain ⟨hex, hde, hfe⟩ := hfull rfl
    simp [Slots.count, Slots.next, Slots.empty, hex, hde, hfe]
  | false =>
    cases stall with
    | true => simp [Slots.count, Slots.next]; omega
    | false => simp [Slots.count, Slots.next]; omega

/-- A committed edge with no `HALT` in EXMEM adds the words it completes and its own cycle to the count. -/
theorem Follows.ends_of_edge (h : Follows c s v) (he : clockEdge false s = .next u)
    (hu : u.status = .running) (hh : decode s.exmem.instr ≠ .halt)
    (hv : runInOrder c.ex.toNat v = .next w)
    (hend : EndsInOrder (c.next (flush s) (stall s)) n u w t) : EndsInOrder c (n + 1) s v t := by
  obtain ⟨d, g, hd, hsame, hcount⟩ := hend
  have hop : op s.exmem.instr ≠ encoding.opHalt := fun e => hh (decode_halt e)
  have hst : stallBeforeHalt s = (stall s && !flush s) := by
    rw [stallBeforeHalt, decide_eq_true hop, Bool.and_true, stallCycle]
  have hshare := c.count_next (stall := stall s) h.full_of_flush
  refine ⟨c.ex.toNat + d, g, hd.add hv, hsame, ?_⟩
  simp only [countCycles_of_executed h.running he hu, hst, Bool.toNat_true]
  omega

/-- A run that halts ends as the in-order execution does, from every state that follows it. -/
theorem Follows.ends_in_order (h : Follows c s v) (hrun : run n s = .next t)
    (ht : t.status = .halted) : EndsInOrder c n s v t := by
  induction n generalizing c s v with
  | zero =>
    obtain rfl := Host.Outcome.next.inj hrun
    cases h.running.symm.trans ht
  | succ n ih =>
    have he := clockEdge_eq s
    have hb : (edgeResult s).burst = 0 := (edge_keeps he).2.2.2.trans h.burst
    rw [run_succ h.burst he] at hrun
    by_cases hu : (edgeResult s).status = .running
    · by_cases hh : decode s.exmem.instr = .halt
      · exact h.ends_of_halt he hu hh hrun ht
      · obtain ⟨w, hw, hnext⟩ := h.edge he hu hh
        exact h.ends_of_edge he hu hh hw (ih hnext hrun)
    · rw [run_of_not_running hb hu] at hrun
      obtain rfl := Host.Outcome.next.inj hrun
      exact absurd ((edge_halted_iff he h.running).1 ht) h.noHalt

end Halting

/-- Settles O54: a launch follows itself, and one step in order past the instructions before the `HALT` is
the `HALT`. -/
theorem sequentialEquivalence : Obligations.SequentialEquivalence := by
  intro m u ws n t _ hrun ht
  obtain ⟨d, h, hd, ⟨hreg, hdmem, hmarks⟩, -⟩ := (follows_launchState m u ws).ends_in_order hrun ht
  have ⟨_, _, _, _, hhalted⟩ := hd
  exact ⟨d + 1, h, hd.run, hhalted, hreg, hdmem, hmarks⟩

/-- Settles O55: nothing is in flight at a launch, and `D` is the number of instructions before the first
`HALT`. -/
theorem cyclesOfAHaltingRun : Obligations.CyclesOfAHaltingRun := by
  rintro m u ws n d _ t v h rfl _ hrun ht hv hvrun hstep hhalted
  obtain ⟨e, g, he, -, hcount⟩ := (follows_launchState m u ws).ends_in_order hrun ht
  obtain rfl : e = d := he.unique ⟨v, hv, hvrun, hstep, hhalted⟩
  have hempty : Slots.empty.count = 0 := rfl
  rw [hempty, Nat.add_zero] at hcount
  rw [run_cycles rfl hrun, hcount]
  exact BitVec.zero_add _

end Sys2Proof.Machine
end

section
/-! The cycle count of R330 (spec/70_reset_and_hazards.md) with every stall counted: a stall behind the `HALT`
delays nothing. -/

namespace Sys2Proof.Machine

/-- `halt`, and behind it `lw 0 1 0` with a reader of its destination, `add 1 1 1`, which stalls while the
`HALT` is in EXMEM. -/
def haltBeforeStall : State := launchState 64 .fault [0x01800000, 0x00810000, 0x00090001]

/-- After five edges it has halted, with 4 cycles counted. -/
theorem haltBeforeStall_run :
    ∃ t, run 5 haltBeforeStall = .next t ∧ t.status = .halted ∧ t.cycles = 4 := ⟨_, rfl, rfl, rfl⟩

theorem haltBeforeStall_counts :
    countCycles stallCycle 5 haltBeforeStall = 1 ∧ countCycles flush 5 haltBeforeStall = 0 := by
  decide

theorem haltBeforeStall_inOrder :
    ∃ h, inOrderStep haltBeforeStall = .next h ∧ h.status = .halted := ⟨_, rfl, rfl⟩

/-- Refutes O56: of the run above the formula gives 5, `4 + 0 + 1 + 0`, and `cycles` is 4. -/
theorem not_cycleFormulaCountingEveryStall : ¬ Obligations.CycleFormulaCountingEveryStall := by
  intro hall
  obtain ⟨t, ht, hhalted, hcycles⟩ := haltBeforeStall_run
  obtain ⟨h, hh, hh'⟩ := haltBeforeStall_inOrder
  obtain ⟨hstalls, hflushes⟩ := haltBeforeStall_counts
  have hformula := hall 64 .fault _ 5 0 haltBeforeStall t haltBeforeStall h rfl (by decide) ht hhalted
    rfl rfl hh hh'
  rw [hcycles, hstalls, hflushes] at hformula
  exact absurd hformula (by decide)

end Sys2Proof.Machine
end

section
/-! The loader (spec/70_reset_and_hazards.md R314): hexadecimal digits and numbers, white space at the ends
of a line and of a file, and the load-time errors. -/

namespace Sys2Proof.Machine

/-! ### Digits and numbers -/

/-- The three ranges of the hexadecimal digits. -/
theorem hexDigit_eq_some_iff (c : Char) (v : Nat) : hexDigit c = some v ↔
    (48 ≤ c.toNat ∧ c.toNat ≤ 57 ∧ v = c.toNat - 48) ∨
    (97 ≤ c.toNat ∧ c.toNat ≤ 102 ∧ v = c.toNat - 97 + 10) ∨
    (65 ≤ c.toNat ∧ c.toNat ≤ 70 ∧ v = c.toNat - 65 + 10) := by
  simp only [hexDigit, Char.reduceToNat]
  split_ifs <;> simp only [Option.some.injEq, false_iff] <;> omega

/-- A character whose digit has no value is no digit. -/
theorem ne_of_hexDigit {c d : Char} {v : Nat} (h : hexDigit c = some v) (hd : hexDigit d = none) :
    c ≠ d := by
  rintro rfl
  cases h.symm.trans hd

/-- No hexadecimal digit is white space. -/
theorem isWhitespace_of_hexDigit {c : Char} {v : Nat} (h : hexDigit c = some v) :
    c.isWhitespace = false := by
  have hne := fun d => ne_of_hexDigit (d := d) h
  simp [Char.isWhitespace, hne ' ' (by decide), hne '\t' (by decide), hne '\r' (by decide),
    hne '\n' (by decide)]

/-- A list of digits writes a number when each of them is one, the first the most significant. -/
theorem hexValue_eq_some_iff (ds : List Char) (acc n : Nat) : hexValue acc ds = some n ↔
    ∃ vs : List Nat, ds.map hexDigit = vs.map some ∧ n = vs.foldl (fun n d => 16 * n + d) acc := by
  induction ds generalizing acc with
  | nil =>
    refine ⟨fun h => ⟨[], rfl, (Option.some.inj h).symm⟩, ?_⟩
    rintro ⟨vs, h, rfl⟩
    rw [List.map_eq_nil_iff.1 h.symm]
    rfl
  | cons c cs ih =>
    have hstep : hexValue acc (c :: cs) = (hexDigit c).bind fun d => hexValue (16 * acc + d) cs := by
      rw [hexValue]
      cases hexDigit c <;> rfl
    simp only [hstep, Option.bind_eq_some_iff, ih]
    constructor
    · rintro ⟨d, hd, vs, h, rfl⟩
      exact ⟨d :: vs, by rw [List.map_cons, hd, h, List.map_cons], rfl⟩
    · rintro ⟨_ | ⟨d, vs⟩, h, rfl⟩
      · cases h
      · obtain ⟨hd, h⟩ := List.cons.inj h
        exact ⟨d, hd, vs, h, rfl⟩

/-! ### White space at the ends of a line -/

/-- Dropping what satisfies `p` from the front stops at the first part that has nothing of the kind. -/
theorem dropWhile_append_append {α : Type} {p : α → Bool} {pre core : List α}
    (hpre : ∀ a ∈ pre, p a = true) (hcore : ∀ a ∈ core, p a = false) (hne : core ≠ [])
    (post : List α) : (pre ++ (core ++ post)).dropWhile p = core ++ post := by
  obtain ⟨c, cs, rfl⟩ := List.exists_cons_of_ne_nil hne
  rw [List.dropWhile_append_of_pos hpre, List.cons_append,
    List.dropWhile_cons_of_neg (by rw [hcore c List.mem_cons_self]; exact nofun)]

/-- Trimming leaves what stands between the white space at both ends. -/
theorem trimLine_append {pre core post : List Char} (hpre : blankLine pre) (hpost : blankLine post)
    (hcore : ∀ c ∈ core, c.isWhitespace = false) (hne : core ≠ []) :
    trimLine (pre ++ core ++ post) = core := by
  have hback : (post.reverse ++ (core.reverse ++ [])).dropWhile Char.isWhitespace =
      core.reverse ++ [] :=
    dropWhile_append_append (fun c hc => hpost c (List.mem_reverse.1 hc))
      (fun c hc => hcore c (List.mem_reverse.1 hc)) (mt List.reverse_eq_nil_iff.1 hne) []
  rw [List.append_nil] at hback
  rw [trimLine, List.append_assoc, dropWhile_append_append hpre hcore hne, List.reverse_append, hback,
    List.reverse_reverse]

/-- What trimming takes off a line is white space. -/
theorem exists_eq_append_trimLine (line : List Char) :
    ∃ pre post, blankLine pre ∧ blankLine post ∧ line = pre ++ trimLine line ++ post := by
  refine ⟨line.takeWhile Char.isWhitespace,
    (line.dropWhile Char.isWhitespace).rtakeWhile Char.isWhitespace,
    fun c hc => List.mem_takeWhile_imp hc, fun c hc => List.mem_rtakeWhile_imp hc, ?_⟩
  change _ = _ ++ (line.dropWhile Char.isWhitespace).rdropWhile Char.isWhitespace ++ _
  rw [List.append_assoc, List.rdropWhile_append_rtakeWhile, List.takeWhile_append_dropWhile]

theorem trimLine_eq_nil_iff (line : List Char) : trimLine line = [] ↔ blankLine line := by
  change (line.dropWhile Char.isWhitespace).rdropWhile Char.isWhitespace = [] ↔ _
  constructor
  · intro h
    obtain ⟨pre, post, hpre, hpost, e⟩ := exists_eq_append_trimLine line
    rw [e, show trimLine line = [] from h, List.append_nil]
    exact fun c hc => (List.mem_append.1 hc).elim (hpre c) (hpost c)
  · intro h
    rw [List.dropWhile_eq_nil_iff.2 h, List.rdropWhile_nil]

/-! ### The grammar of a line -/

/-- What may stand before the digits of a word: nothing, `0x` or `0X`. -/
def HexPrefix (p : List Char) : Prop := p = [] ∨ p = ['0', 'x'] ∨ p = ['0', 'X']

theorem exists_eq_append_stripPrefix (l : List Char) : ∃ p, HexPrefix p ∧ l = p ++ stripPrefix l := by
  unfold stripPrefix
  split
  · exact ⟨['0', 'x'], .inr (.inl rfl), rfl⟩
  · exact ⟨['0', 'X'], .inr (.inr rfl), rfl⟩
  · exact ⟨[], .inl rfl, rfl⟩

/-- Before digits exactly the `0x` or `0X` is taken off: its letter is no digit. -/
theorem stripPrefix_append {p ds : List Char} (hp : HexPrefix p)
    (hds : ∀ c ∈ ds, ∃ v, hexDigit c = some v) : stripPrefix (p ++ ds) = ds := by
  obtain rfl | rfl | rfl := hp
  · rw [List.nil_append]
    unfold stripPrefix
    split
    · obtain ⟨v, hv⟩ := hds 'x' (by simp)
      exact absurd rfl (ne_of_hexDigit hv (by decide))
    · obtain ⟨v, hv⟩ := hds 'X' (by simp)
      exact absurd rfl (ne_of_hexDigit hv (by decide))
    · rfl
  · rfl
  · rfl

/-- The characters of `0x` and `0X` are no white space. -/
theorem HexPrefix.isWhitespace {p : List Char} (hp : HexPrefix p) :
    ∀ c ∈ p, c.isWhitespace = false := by
  obtain rfl | rfl | rfl := hp <;> simp [Char.isWhitespace]

/-- A line parses when 1 to 8 digits are left without the white space and the `0x` or `0X`. -/
theorem parseLine_eq_some_iff (line : List Char) (w : Word) : parseLine line = some w ↔
    1 ≤ (stripPrefix (trimLine line)).length ∧ (stripPrefix (trimLine line)).length ≤ 8 ∧
    ∃ n, hexValue 0 (stripPrefix (trimLine line)) = some n ∧ w = BitVec.ofNat 32 n := by
  simp only [parseLine]
  generalize stripPrefix (trimLine line) = ds
  have hlen : (ds = [] ∨ 8 < ds.length) ↔ ¬ (1 ≤ ds.length ∧ ds.length ≤ 8) := by
    rw [← List.length_eq_zero_iff]
    omega
  rw [← and_assoc]
  by_cases h : 1 ≤ ds.length ∧ ds.length ≤ 8
  · rw [if_neg (hlen.not.2 (not_not.2 h)), Option.map_eq_some_iff]
    simp only [h, and_self, true_and, eq_comm]
  · rw [if_pos (hlen.2 h)]
    exact iff_of_false nofun fun hn => h hn.1

/-- Settles O58: trimming and taking off `0x` or `0X` invert the grammar, and the digits left write the
number. -/
theorem lineGrammar : Obligations.LineGrammar := by
  refine ⟨hexDigit_eq_some_iff, fun line w => ?_⟩
  rw [parseLine_eq_some_iff]
  simp only [hexValue_eq_some_iff]
  constructor
  · rintro ⟨h1, h8, _, ⟨vs, hvs, rfl⟩, rfl⟩
    obtain ⟨pre, post, hpre, hpost, hline⟩ := exists_eq_append_trimLine line
    obtain ⟨p, hp, htrim⟩ := exists_eq_append_stripPrefix (trimLine line)
    refine ⟨pre, p, stripPrefix (trimLine line), post, vs, ?_, hpre, hpost, hp, h1, h8, hvs, rfl⟩
    rwa [List.append_assoc pre, ← htrim]
  · rintro ⟨pre, p, ds, post, vs, rfl, hpre, hpost, (hp : HexPrefix p), h1, h8, hvs, rfl⟩
    have hdigit : ∀ c ∈ ds, ∃ v, hexDigit c = some v := fun c hc => by
      have hm : hexDigit c ∈ vs.map some := hvs ▸ List.mem_map_of_mem hc
      obtain ⟨v, -, hv⟩ := List.mem_map.1 hm
      exact ⟨v, hv.symm⟩
    have hcore : ∀ c ∈ p ++ ds, c.isWhitespace = false := fun c hc => by
      obtain hc | hc := List.mem_append.1 hc
      · exact hp.isWhitespace c hc
      · obtain ⟨v, hv⟩ := hdigit c hc
        exact isWhitespace_of_hexDigit hv
    have hne : p ++ ds ≠ [] := fun e => by simp [(List.append_eq_nil_iff.1 e).2] at h1
    rw [List.append_assoc pre, trimLine_append hpre hpost hcore hne, stripPrefix_append hp hdigit]
    exact ⟨h1, h8, _, ⟨vs, hvs, rfl⟩, rfl⟩

/-! ### The lines of a file -/

/-- A line of white space has no digits. -/
theorem parseLine_of_blank {l : List Char} (h : blankLine l) : parseLine l = none := by
  rw [parseLine, (trimLine_eq_nil_iff l).2 h]
  rfl

/-- The blank lines at the end of a file are dropped, and no other. -/
theorem dropTrailingBlank_append {body blanks : List (List Char)} (hblanks : ∀ l ∈ blanks, blankLine l)
    (hbody : body = [] ∨ ∃ front last, body = front ++ [last] ∧ ¬ blankLine last) :
    dropTrailingBlank (body ++ blanks) = body := by
  have hp : ∀ l, (trimLine l == []) = true ↔ blankLine l := fun l => by
    rw [beq_iff_eq, trimLine_eq_nil_iff]
  rw [dropTrailingBlank, List.reverse_append,
    List.dropWhile_append_of_pos fun l hl => (hp l).2 (hblanks l (List.mem_reverse.1 hl))]
  obtain rfl | ⟨front, last, rfl, hlast⟩ := hbody
  · rfl
  · rw [List.reverse_append, List.reverse_singleton, List.singleton_append,
      List.dropWhile_cons_of_neg (p := fun l => trimLine l == []) (mt (hp last).1 hlast),
      List.reverse_cons, List.reverse_reverse]

theorem parseLines_cons (l : List Char) (ls : List (List Char)) :
    parseLines (l :: ls) = (parseLine l).bind fun w => (parseLines ls).map (w :: ·) := by
  rw [parseLines]
  cases parseLine l <;> cases parseLines ls <;> rfl

theorem parseLines_eq_some {ls : List (List Char)} {ws : List Word}
    (h : ls.map parseLine = ws.map some) : parseLines ls = some ws := by
  induction ls generalizing ws with
  | nil => obtain rfl := List.map_eq_nil_iff.1 h.symm; rfl
  | cons l ls ih =>
    obtain _ | ⟨w, ws⟩ := ws
    · cases h
    · obtain ⟨hl, hls⟩ := List.cons.inj h
      rw [parseLines_cons, hl, ih hls]
      rfl

theorem parseLines_eq_none {ls : List (List Char)} (h : ∃ l ∈ ls, parseLine l = none) :
    parseLines ls = none := by
  induction ls with
  | nil => obtain ⟨l, hl, -⟩ := h; cases hl
  | cons l ls ih =>
    rw [parseLines_cons]
    obtain ⟨l', hl', hnone⟩ := h
    obtain rfl | hl' := List.mem_cons.1 hl'
    · rw [hnone]; rfl
    · rw [ih ⟨l', hl', hnone⟩]
      cases parseLine l <;> rfl

section LoadImage

variable {m : Nat} {lines : List (List Char)}

theorem loadImage_of_badLine (h : parseLines (dropTrailingBlank lines) = none) :
    loadImage m 1 (some lines) = .error .badLine := by
  simp [loadImage, h]

theorem loadImage_of_words {ws : List Word} (h : parseLines (dropTrailingBlank lines) = some ws) :
    loadImage m 1 (some lines) = if m < ws.length then .error .imageTooLong else .ok ws := by
  simp [loadImage, h]

end LoadImage

/-- Settles O57: the blank lines at the end go, and the lines of the body parse one by one. -/
theorem loadErrorsAndImage : Obligations.LoadErrorsAndImage := by
  refine ⟨fun e => by cases e <;> rfl, fun l => parseLine_of_blank, fun m args =>
    ⟨fun hargs file => if_pos hargs, rfl, fun body blanks hblanks hbody => ?_⟩⟩
  have hdrop := dropTrailingBlank_append hblanks hbody
  refine ⟨fun hbad => ?_, fun ws hws => ?_⟩
  · exact loadImage_of_badLine (by rw [hdrop, parseLines_eq_none hbad])
  · rw [loadImage_of_words (by rw [hdrop, parseLines_eq_some hws])]
    exact ⟨fun hm => if_pos hm, fun hm => if_neg (by omega)⟩

end Sys2Proof.Machine
end
